-- ==== Sys2Proof/Word.lean ====
section
/-! DEFINITION. The bit strings the block moves (spec 00_scope R7, R8; 30_encoding R80): a byte of a buffer,
a command word, a 64-bit operand or result. Bit 0 is the least significant bit of each. -/

namespace Sys2Proof

/-- A byte of `RMEM` or `WMEM`, or the accumulator `WACC` (10_state R24, R27, R28). -/
abbrev Byte := BitVec 8

/-- A command word `CW` (30_encoding R80). -/
abbrev CommandWord := BitVec 32

/-- An operand `OPD`, `OPD2` or a result `RES` (00_scope R6, R9). -/
abbrev Word := BitVec 64

end Sys2Proof
end

