-- ==== Sys2Proof/Syntax.lean ====
section
/-! DEFINITION. The commands (spec 30_encoding R86), one constructor per row of spec/opcode_table.json. A
width-like operand is the signed integer `sint_8` of its field (00_scope R12, 30_encoding R83); `s` is the
flag `S`. The operands `OPD` and `OPD2` are presented beside the word and are not part of it (R80). -/

namespace Sys2Proof

/-- A command as its word `CW` names it. -/
inductive Instr where
  /-- `RD_BIT` (40 R110) -/
  | rdBit
  /-- `RD_BOOL` (40 R111) -/
  | rdBool
  /-- `RD_BYTE w` (40 R114) -/
  | rdByte (w : Int)
  /-- `RD_SHORT w` (40 R115) -/
  | rdShort (w : Int)
  /-- `RD_INT w` (40 R116) -/
  | rdInt (w : Int)
  /-- `RD_LONG w` (40 R117) -/
  | rdLong (w : Int)
  /-- `RD_PINT w` (40 R118) -/
  | rdPint (w : Int)
  /-- `RD_SINT w, s` (40 R119) -/
  | rdSint (w : Int) (s : Bool)
  /-- `RD_FLOAT e, m, s` (41 R132) -/
  | rdFloat (e m : Int) (s : Bool)
  /-- `RD_DOUBLE e, m, s` (41 R131) -/
  | rdDouble (e m : Int) (s : Bool)
  /-- `RD_VARINT g` (42 R141) -/
  | rdVarint (g : Int)
  /-- `RD_DEC d` (43 R151) -/
  | rdDec (d : Int)
  /-- `RD_STAT n` (40 R120) -/
  | rdStat (n : Int)
  /-- `WR_BIT` (44 R160) -/
  | wrBit
  /-- `WR_BOOL` (44 R161) -/
  | wrBool
  /-- `WR_BYTE w` (44 R164) -/
  | wrByte (w : Int)
  /-- `WR_SHORT w` (44 R165) -/
  | wrShort (w : Int)
  /-- `WR_INT w` (44 R166) -/
  | wrInt (w : Int)
  /-- `WR_LONG w` (44 R167) -/
  | wrLong (w : Int)
  /-- `WR_PINT w` (44 R168) -/
  | wrPint (w : Int)
  /-- `WR_SINT w, s` (44 R169) -/
  | wrSint (w : Int) (s : Bool)
  /-- `WR_FLOAT e, m, s` (45 R181) -/
  | wrFloat (e m : Int) (s : Bool)
  /-- `WR_DOUBLE e, m, s` (45 R180) -/
  | wrDouble (e m : Int) (s : Bool)
  /-- `WR_VARINT g` (46 R190) -/
  | wrVarint (g : Int)
  /-- `WR_DEC d` (47 R200) -/
  | wrDec (d : Int)
  /-- `WR_PACK` (48 R210) -/
  | wrPack
  /-- `WR_STAT n` (44 R170) -/
  | wrStat (n : Int)
  /-- `TW_GETBIT8 pos` (49 R221) -/
  | twGetbit8 (pos : Int)
  /-- `TW_GETBIT16 pos` (49 R222) -/
  | twGetbit16 (pos : Int)
  /-- `TW_GETBIT32 pos` (49 R223) -/
  | twGetbit32 (pos : Int)
  /-- `TW_GETBIT64 pos` (49 R224) -/
  | twGetbit64 (pos : Int)
  /-- `TW_SETBIT8 pos, s` (49 R226) -/
  | twSetbit8 (pos : Int) (s : Bool)
  /-- `TW_SETBIT16 pos, s` (49 R227) -/
  | twSetbit16 (pos : Int) (s : Bool)
  /-- `TW_SETBIT32 pos, s` (49 R228) -/
  | twSetbit32 (pos : Int) (s : Bool)
  /-- `TW_SETBIT64 pos, s` (49 R229) -/
  | twSetbit64 (pos : Int) (s : Bool)
  /-- `TW_BITSNEEDED` (49 R231) -/
  | twBitsneeded
deriving DecidableEq, Repr

end Sys2Proof
end

