-- ==== Sys2Proof/WellFormed.lean ====
section
/-! DEFINITION. Which commands have a word: every width-like operand must fit the signed 8-bit field that
carries it (spec 30_encoding R81, R83). The range checks of the commands themselves (`1 <= w <= 8` and the
like) are no part of this: such a word exists and is answered with an error. -/

namespace Sys2Proof

/-- `v` fits field `A` or `B`: it is from -128 to 127 (30_encoding R83). -/
abbrev FitsField (v : Int) : Prop := -128 ≤ v ∧ v ≤ 127

/-- Every operand of the command fits its field. -/
def Instr.WellFormed : Instr → Bool
  | .rdBit | .rdBool | .wrBit | .wrBool | .wrPack | .twBitsneeded => true
  | .rdByte w | .rdShort w | .rdInt w | .rdLong w | .rdPint w => decide (FitsField w)
  | .wrByte w | .wrShort w | .wrInt w | .wrLong w | .wrPint w => decide (FitsField w)
  | .rdSint w _ | .wrSint w _ => decide (FitsField w)
  | .rdFloat e m _ | .rdDouble e m _ => decide (FitsField e) && decide (FitsField m)
  | .wrFloat e m _ | .wrDouble e m _ => decide (FitsField e) && decide (FitsField m)
  | .rdVarint g | .wrVarint g => decide (FitsField g)
  | .rdDec d | .wrDec d => decide (FitsField d)
  | .rdStat n | .wrStat n => decide (FitsField n)
  | .twGetbit8 p | .twGetbit16 p | .twGetbit32 p | .twGetbit64 p => decide (FitsField p)
  | .twSetbit8 p _ | .twSetbit16 p _ | .twSetbit32 p _ | .twSetbit64 p _ => decide (FitsField p)

end Sys2Proof
end

