-- ==== Sys2Proof/Decode.lean ====
section
/-! DEFINITION. The decoder and the encoder of command words (spec 30_encoding R80 to R90). The decoder is
total: a word is exactly one command or is rejected by the name of the step of R87 that finds it illegal. -/

namespace Sys2Proof

/-- Why a word is no command: the three steps of 30_encoding R87. -/
inductive IllegalWord where
  /-- step (1): `CW[31:25]` is not zero -/
  | reservedBitsSet
  /-- step (2): `OPC` is none of the 36 opcodes -/
  | unassignedOpcode
  /-- step (3): a field the format does not use is not zero -/
  | unusedFieldSet
deriving DecidableEq, Repr

/-- What decoding a word gives. -/
inductive Decoded where
  | command (i : Instr)
  | illegal (why : IllegalWord)
deriving DecidableEq, Repr

/-- The command, where there is one. -/
def Decoded.toOption : Decoded → Option Instr
  | .command i => some i
  | .illegal _ => none

/-- `OPC = CW[7:0]` (30_encoding R81). -/
def opcField (cw : CommandWord) : BitVec 8 := cw.extractLsb' 0 8
/-- `A = CW[15:8]` (R81). -/
def aField (cw : CommandWord) : BitVec 8 := cw.extractLsb' 8 8
/-- `B = CW[23:16]` (R81). -/
def bField (cw : CommandWord) : BitVec 8 := cw.extractLsb' 16 8
/-- `S = CW[24]` (R81). -/
def sField (cw : CommandWord) : Bool := cw.getLsbD 24
/-- `Z = CW[31:25]` (R81). -/
def zField (cw : CommandWord) : BitVec 7 := cw.extractLsb' 25 7

/-- Step (3) of R87: the command, if the fields its format leaves unused are zero. -/
def Decoded.unless (unusedSet : Bool) (i : Instr) : Decoded :=
  if unusedSet then .illegal .unusedFieldSet else .command i

/-- Format N (R82): `A`, `B` and `S` must be zero. -/
def formatN (cw : CommandWord) (i : Instr) : Decoded :=
  Decoded.unless (aField cw != 0 || bField cw != 0 || sField cw) i

/-- Format W (R82): operand `sint_8(A)`; `B` and `S` must be zero. -/
def formatW (cw : CommandWord) (i : Int → Instr) : Decoded :=
  Decoded.unless (bField cw != 0 || sField cw) (i (aField cw).toInt)

/-- Format WS (R82): operands `sint_8(A)` and `S`; `B` must be zero. -/
def formatWS (cw : CommandWord) (i : Int → Bool → Instr) : Decoded :=
  Decoded.unless (bField cw != 0) (i (aField cw).toInt (sField cw))

/-- Format F (R82): operands `sint_8(A)`, `sint_8(B)` and `S`. -/
def formatF (cw : CommandWord) (i : Int → Int → Bool → Instr) : Decoded :=
  .command (i (aField cw).toInt (bField cw).toInt (sField cw))

/-- The opcodes of unit RDU, `OPC[7:6] = 00` (30_encoding R84, R86). -/
def decodeRdu (cw : CommandWord) : BitVec 8 → Decoded
  | 0x00 => formatN cw .rdBit
  | 0x01 => formatN cw .rdBool
  | 0x02 => formatW cw .rdByte
  | 0x03 => formatW cw .rdShort
  | 0x04 => formatW cw .rdInt
  | 0x05 => formatW cw .rdLong
  | 0x06 => formatW cw .rdPint
  | 0x07 => formatWS cw .rdSint
  | 0x08 => formatF cw .rdFloat
  | 0x09 => formatF cw .rdDouble
  | 0x0A => formatW cw .rdVarint
  | 0x0B => formatW cw .rdDec
  | 0x0C => formatW cw .rdStat
  | _ => .illegal .unassignedOpcode

/-- The opcodes of unit WRU, `OPC[7:6] = 01` (R84, R86). -/
def decodeWru (cw : CommandWord) : BitVec 8 → Decoded
  | 0x40 => formatN cw .wrBit
  | 0x41 => formatN cw .wrBool
  | 0x42 => formatW cw .wrByte
  | 0x43 => formatW cw .wrShort
  | 0x44 => formatW cw .wrInt
  | 0x45 => formatW cw .wrLong
  | 0x46 => formatW cw .wrPint
  | 0x47 => formatWS cw .wrSint
  | 0x48 => formatF cw .wrFloat
  | 0x49 => formatF cw .wrDouble
  | 0x4A => formatW cw .wrVarint
  | 0x4B => formatW cw .wrDec
  | 0x4C => formatN cw .wrPack
  | 0x4D => formatW cw .wrStat
  | _ => .illegal .unassignedOpcode

/-- The opcodes of unit TWU, `OPC[7:6] = 10` (R84, R86). -/
def decodeTwu (cw : CommandWord) : BitVec 8 → Decoded
  | 0x80 => formatW cw .twGetbit8
  | 0x81 => formatW cw .twGetbit16
  | 0x82 => formatW cw .twGetbit32
  | 0x83 => formatW cw .twGetbit64
  | 0x84 => formatWS cw .twSetbit8
  | 0x85 => formatWS cw .twSetbit16
  | 0x86 => formatWS cw .twSetbit32
  | 0x87 => formatWS cw .twSetbit64
  | 0x88 => formatN cw .twBitsneeded
  | _ => .illegal .unassignedOpcode

/-- Unit selection by `OPC[7:6]` (R84): `00` RDU, `01` WRU, `10` TWU, `11` unassigned. -/
def decodeOpcode (cw : CommandWord) (opc : BitVec 8) : Decoded :=
  match opc.extractLsb' 6 2 with
  | 0b00 => decodeRdu cw opc
  | 0b01 => decodeWru cw opc
  | 0b10 => decodeTwu cw opc
  | _ => .illegal .unassignedOpcode

/-- Decoding of a command word (R87). -/
def decode (cw : CommandWord) : Decoded :=
  if zField cw != 0 then .illegal .reservedBitsSet else decodeOpcode cw (opcField cw)

/-- The word of a line of the spec's assembler (30_encoding R91):
`OPC OR (trunc_8(a) << 8) OR (trunc_8(b) << 16) OR (s << 24)`. -/
def commandWord (opc : BitVec 8) (a b : Int) (s : Bool) : CommandWord :=
  opc.setWidth 32 ||| (BitVec.ofInt 8 a).setWidth 32 <<< 8 |||
    (BitVec.ofInt 8 b).setWidth 32 <<< 16 ||| (BitVec.ofBool s).setWidth 32 <<< 24

/-- The word of a command (30_encoding R81, R82, R86). -/
def encode : Instr → CommandWord
  | .rdBit => commandWord 0x00 0 0 false
  | .rdBool => commandWord 0x01 0 0 false
  | .rdByte w => commandWord 0x02 w 0 false
  | .rdShort w => commandWord 0x03 w 0 false
  | .rdInt w => commandWord 0x04 w 0 false
  | .rdLong w => commandWord 0x05 w 0 false
  | .rdPint w => commandWord 0x06 w 0 false
  | .rdSint w s => commandWord 0x07 w 0 s
  | .rdFloat e m s => commandWord 0x08 e m s
  | .rdDouble e m s => commandWord 0x09 e m s
  | .rdVarint g => commandWord 0x0A g 0 false
  | .rdDec d => commandWord 0x0B d 0 false
  | .rdStat n => commandWord 0x0C n 0 false
  | .wrBit => commandWord 0x40 0 0 false
  | .wrBool => commandWord 0x41 0 0 false
  | .wrByte w => commandWord 0x42 w 0 false
  | .wrShort w => commandWord 0x43 w 0 false
  | .wrInt w => commandWord 0x44 w 0 false
  | .wrLong w => commandWord 0x45 w 0 false
  | .wrPint w => commandWord 0x46 w 0 false
  | .wrSint w s => commandWord 0x47 w 0 s
  | .wrFloat e m s => commandWord 0x48 e m s
  | .wrDouble e m s => commandWord 0x49 e m s
  | .wrVarint g => commandWord 0x4A g 0 false
  | .wrDec d => commandWord 0x4B d 0 false
  | .wrPack => commandWord 0x4C 0 0 false
  | .wrStat n => commandWord 0x4D n 0 false
  | .twGetbit8 p => commandWord 0x80 p 0 false
  | .twGetbit16 p => commandWord 0x81 p 0 false
  | .twGetbit32 p => commandWord 0x82 p 0 false
  | .twGetbit64 p => commandWord 0x83 p 0 false
  | .twSetbit8 p s => commandWord 0x84 p 0 s
  | .twSetbit16 p s => commandWord 0x85 p 0 s
  | .twSetbit32 p s => commandWord 0x86 p 0 s
  | .twSetbit64 p s => commandWord 0x87 p 0 s
  | .twBitsneeded => commandWord 0x88 0 0 false

/-- A row of the opcode table: a word is the row's when its masked bits are the row's (30_encoding R82). -/
structure OpcodeRow where
  mask : CommandWord
  bits : CommandWord
deriving DecidableEq, Repr

/-- The mask of format N (R82). -/
abbrev maskN : CommandWord := 0xFFFFFFFF
/-- The mask of format W (R82). -/
abbrev maskW : CommandWord := 0xFFFF00FF
/-- The mask of format WS (R82). -/
abbrev maskWS : CommandWord := 0xFEFF00FF
/-- The mask of format F (R82). -/
abbrev maskF : CommandWord := 0xFE0000FF

/-- The rows of spec/opcode_table.json for unit RDU, in its order. -/
def opcodeRowsRdu : List OpcodeRow :=
  [⟨maskN, 0x00⟩, ⟨maskN, 0x01⟩, ⟨maskW, 0x02⟩, ⟨maskW, 0x03⟩, ⟨maskW, 0x04⟩, ⟨maskW, 0x05⟩,
   ⟨maskW, 0x06⟩, ⟨maskWS, 0x07⟩, ⟨maskF, 0x08⟩, ⟨maskF, 0x09⟩, ⟨maskW, 0x0A⟩, ⟨maskW, 0x0B⟩,
   ⟨maskW, 0x0C⟩]

/-- The rows of spec/opcode_table.json for unit WRU, in its order. -/
def opcodeRowsWru : List OpcodeRow :=
  [⟨maskN, 0x40⟩, ⟨maskN, 0x41⟩, ⟨maskW, 0x42⟩, ⟨maskW, 0x43⟩, ⟨maskW, 0x44⟩, ⟨maskW, 0x45⟩,
   ⟨maskW, 0x46⟩, ⟨maskWS, 0x47⟩, ⟨maskF, 0x48⟩, ⟨maskF, 0x49⟩, ⟨maskW, 0x4A⟩, ⟨maskW, 0x4B⟩,
   ⟨maskN, 0x4C⟩, ⟨maskW, 0x4D⟩]

/-- The rows of spec/opcode_table.json for unit TWU, in its order. -/
def opcodeRowsTwu : List OpcodeRow :=
  [⟨maskW, 0x80⟩, ⟨maskW, 0x81⟩, ⟨maskW, 0x82⟩, ⟨maskW, 0x83⟩, ⟨maskWS, 0x84⟩, ⟨maskWS, 0x85⟩,
   ⟨maskWS, 0x86⟩, ⟨maskWS, 0x87⟩, ⟨maskN, 0x88⟩]

/-- The opcode table (30_encoding R86, spec/opcode_table.json). -/
def opcodeTable : List OpcodeRow := opcodeRowsRdu ++ opcodeRowsWru ++ opcodeRowsTwu

/-- The command the decoder reads from the word whose low `nbits` bits are those of `w` and whose other bits
are zero. A command is one 32-bit word that the host presents as it is: no byte order enters (20_memory R68,
30_encoding R80). -/
def decodeTableWord (nbits w : Nat) : Option Instr :=
  (decode (BitVec.ofNat 32 (w % 2 ^ nbits))).toOption

end Sys2Proof
end

