-- ==== Sys2Proof/Config.lean ====
section
/-! DEFINITION. What is fixed for the block (spec 00_scope R6) and the free values: the parameters of the
spec with the values it gives them, the tie rules it leaves as a parameter, and the field bits of the one
result it leaves unspecified. -/

namespace Sys2Proof.Config

/-- Greatest width of a byte field (00_scope R6, 40 R114). -/
abbrev maxWidthByte : Nat := 8
/-- Greatest width of a short field (00_scope R6, 40 R115). -/
abbrev maxWidthShort : Nat := 16
/-- Greatest width of an int field, signed or not (00_scope R6, 40 R116, R119). -/
abbrev maxWidthInt : Nat := 32
/-- Greatest width of a long field (00_scope R6, 40 R117). -/
abbrev maxWidthLong : Nat := 64
/-- Greatest width of a positive-only int field (00_scope R6, 40 R118). -/
abbrev maxWidthPint : Nat := 31
/-- Greatest group size of a variable-length integer (00_scope R6, 42 R141). -/
abbrev maxGroup : Nat := 64
/-- `DP_MAX`, the greatest `decimalPlaces` (00_scope R6, 43 R153, 92 D19). -/
abbrev maxDecimalPlaces : Nat := 18

/-- The tie rules that the parameter `ROUND_TIES` chooses from (47_writer_decimal R201, 92 D20). -/
inductive RoundTies where
  /-- a tie goes to `floor(y) + 1` -/
  | halfUp
  /-- a tie goes to the even neighbour -/
  | halfEven
deriving DecidableEq, Repr, Inhabited

/-- FREE VALUE (log 6): the integral field that the `k`-th `WR_DEC` of a NaN or an infinity writes, before
it is cut to `a` bits. Unspecified by 47_writer_decimal R203; 63 bits cover every `a`. -/
opaque freeIntegral : Nat → BitVec 63

/-- FREE VALUE (log 6): the scaled-decimal field that the `k`-th `WR_DEC` of a NaN or an infinity writes,
before it is cut to `b` bits. Unspecified by 47_writer_decimal R203; 60 bits cover every `b`. -/
opaque freeScaled : Nat → BitVec 60

end Sys2Proof.Config
end

