-- ==== Sys2Proof/Machine/Bits.lean ====
section
/-! DEFINITION. The three functions of the bit-twiddling leaf (spec 49_twiddle R220, R225, R230). The reader and
the writer use them too: `GetBit` is what `v[i]` means, `SetBit` what `v[i] <- b` means, and `BitsNeeded` sizes
the fields of a decimal. -/

namespace Sys2Proof.Machine

/-- `GetBit_n(v, pos)`: whether `v AND 2^pos` is not zero (49 R220). -/
def getBit {n : Nat} (v : BitVec n) (pos : Nat) : Bool := v &&& (1#n <<< pos) != 0#n

/-- `SetBit_n(v, pos, flag)`: `v OR 2^pos` or `v AND NOT 2^pos` (49 R225). -/
def setBit {n : Nat} (v : BitVec n) (pos : Nat) (flag : Bool) : BitVec n :=
  if flag then v ||| (1#n <<< pos) else v &&& ~~~(1#n <<< pos)

/-- `BitsNeeded(r)`: the least `b >= 1` with `2^b >= r` (49 R230). -/
def bitsNeeded (r : Int) : Nat := if r ≤ 2 then 1 else (r.toNat - 1).log2 + 1

end Sys2Proof.Machine
end

