-- ==== Sys2Proof/Machine/Binary64.lean ====
section
/-! DEFINITION. The binary64 arithmetic of the decimal commands (spec 00_scope R13, 92 D18; log 7): `f64`, the
nearest pattern with ties to even, of a non-negative rational `num / den`; the operations `fromint`, `fmul`,
`fdiv`, `fadd` on non-negative finite patterns, each one exact operation and one rounding; `DecSplit` and
`DecCombine` (47 R201, 43 R152). -/

namespace Sys2Proof.Machine

/-- The exponent `e` of the last place of `f64(num / den)`: `num / den` is from `2^(e+52)` up to, not
including, `2^(e+53)`, but `e` is never below -1074, the last place of the subnormals. -/
def f64Exponent (num den : Nat) : Int :=
  let k : Int := (num.log2 : Int) - (den.log2 : Int)
  let below : Bool := if 0 ≤ k then num < den * 2 ^ k.toNat else num * 2 ^ (-k).toNat < den
  max ((if below then k - 1 else k) - 52) (-1074)

/-- `num / den` rounded to the nearest integer, a tie to the even one. -/
def roundEven (num den : Nat) : Nat :=
  let q := num / den
  let r := num % den
  if den < 2 * r ∨ (den = 2 * r ∧ q % 2 = 1) then q + 1 else q

/-- The pattern of infinity. -/
abbrev f64Infinity : Nat := 0x7FF0000000000000

/-- `f64(num / den)`: the binary64 pattern nearest `num / den`, ties to even (00_scope R13). The sum of the
rounded significand and the shifted exponent is the pattern, a carry out of the significand included. -/
def f64 (num den : Nat) : Word :=
  if num = 0 then 0
  else
    let e := f64Exponent num den
    let significand := if 0 ≤ e then roundEven num (den * 2 ^ e.toNat) else roundEven (num * 2 ^ (-e).toNat) den
    BitVec.ofNat 64 (min f64Infinity ((e + 1074).toNat * 2 ^ 52 + significand))

/-- The exponent field of a pattern. -/
def f64ExpField (p : Word) : Nat := (p.extractLsb' 52 11).toNat

/-- The mantissa field of a pattern. -/
def f64ManField (p : Word) : Nat := (p.extractLsb' 0 52).toNat

/-- The pattern is of a finite number: neither an infinity nor a NaN. -/
def f64IsFinite (p : Word) : Bool := f64ExpField p != 2047

/-- `|F64(p)|` of a finite pattern, as a numerator and a denominator that is a power of two. -/
def f64Magnitude (p : Word) : Nat × Nat :=
  let e := f64ExpField p
  let significand := if e = 0 then f64ManField p else 2 ^ 52 + f64ManField p
  let place := max e 1
  if 1075 ≤ place then (significand * 2 ^ (place - 1075), 1) else (significand, 2 ^ (1075 - place))

/-- `fromint(n)` (00_scope R13). -/
def fromint (n : Nat) : Word := f64 n 1

/-- `fmul` of non-negative finite patterns (00_scope R13). -/
def fmul (p q : Word) : Word :=
  let x := f64Magnitude p
  let y := f64Magnitude q
  f64 (x.1 * y.1) (x.2 * y.2)

/-- `fdiv` of non-negative finite patterns, the divisor not zero (00_scope R13). -/
def fdiv (p q : Word) : Word :=
  let x := f64Magnitude p
  let y := f64Magnitude q
  f64 (x.1 * y.2) (x.2 * y.1)

/-- `fadd` of non-negative finite patterns (00_scope R13). -/
def fadd (p q : Word) : Word :=
  let x := f64Magnitude p
  let y := f64Magnitude q
  f64 (x.1 * y.2 + y.1 * x.2) (x.2 * y.2)

/-- `Round(num / den)`: the nearest integer, a tie as `ROUND_TIES` says (47 R201, 92 D20). -/
def roundTie (ties : Config.RoundTies) (num den : Nat) : Nat :=
  match ties with
  | .halfUp => if den ≤ 2 * (num % den) then num / den + 1 else num / den
  | .halfEven => roundEven num den

/-- The three parts of a decimal field: the sign bit, the integral part, the scaled decimal part. -/
structure DecimalParts where
  sg : Bool
  ip : Nat
  sd : Nat
deriving DecidableEq, Repr

/-- `DecSplit(P, d)` of a finite `P` (47 R201). -/
def decSplit (ties : Config.RoundTies) (p : Word) (d : Nat) : DecimalParts :=
  let av := f64Magnitude p
  let fr := f64 (av.1 % av.2) av.2
  let pr := f64Magnitude (fmul fr (fromint (10 ^ d)))
  { sg := p.getLsbD 63 && av.1 != 0
    ip := av.1 / av.2
    sd := roundTie ties pr.1 pr.2 }

/-- `x < 0` in the IEEE sense, for an infinity or a NaN: only negative infinity is (47 R203). -/
def nonFiniteSign (p : Word) : Bool := p == 0xFFF0000000000000

/-- `WR_DEC` of an infinity or a NaN (47 R203): the sign bit is determined and the two fields are free values,
the `k`-th of the run (log 6). -/
def nonFiniteParts (k : Nat) (p : Word) : DecimalParts :=
  { sg := nonFiniteSign p
    ip := (Config.freeIntegral k).toNat
    sd := (Config.freeScaled k).toNat }

/-- `DecCombine(sg, ip, sd, d)` (43 R152). -/
def decCombine (sg : Bool) (ip sd d : Nat) : Word :=
  let t1 := fromint ip
  let t2 := fdiv (fromint sd) (fromint (10 ^ d))
  setBit (fadd t1 t2) 63 sg

end Sys2Proof.Machine
end

