-- ==== Sys2Proof/Machine/State.lean ====
section
/-! DEFINITION. The state of the block as plain data (spec 10_state), the host's side of the command port, and
the state right after reset (10_state R34, 70_reset R271, R272). -/

namespace Sys2Proof.Machine

/-- A byte buffer's contents: its bytes that are not `0x00`, by rising address. An address with no entry reads
as `Memory.unlisted` (log 8). -/
abbrev Memory := List Host.Cell

/-- What an address without an entry reads as: beyond the end of `RMEM` the spec says 0 (20_memory R55). -/
abbrev Memory.unlisted : Byte := 0x00

/-- The entries after address `lo` are in the canonical form. -/
def Memory.wfFrom : Nat → Memory → Bool
  | _, [] => true
  | lo, (a, b) :: rest => decide (lo ≤ a) && b != Memory.unlisted && Memory.wfFrom (a + 1) rest

/-- The canonical form: addresses strictly rise and no entry equals what an unlisted address reads as. -/
def Memory.wf (m : Memory) : Bool := Memory.wfFrom 0 m

/-- A command: the word and the two operands presented with it (30_encoding R80). -/
structure Command where
  /-- `CW` -/
  cw : CommandWord
  /-- `OPD` -/
  opd : Word
  /-- `OPD2` -/
  opd2 : Word
deriving DecidableEq, Repr

/-- A response: the 4-bit status and the 64-bit result (30_encoding R80). -/
structure Response where
  /-- `ST` -/
  st : BitVec 4
  /-- `RES` -/
  res : Word
deriving DecidableEq, Repr

/-- What the host does to the block, one event at a time (70_reset R270 to R272, 10_state R21). -/
inductive HostEvent where
  /-- a command is issued -/
  | command (c : Command)
  /-- RDU is reset and bound to these `RLEN` bytes (R271) -/
  | resetRdu (bytes : List Byte)
  /-- WRU is reset (R272) -/
  | resetWru
deriving DecidableEq, Repr

/-- The state of unit RDU (10_state R22 to R24). -/
structure Rdu where
  /-- `RCUR`, the read bit cursor (R22) -/
  rcur : Nat
  /-- `RCNT`, the compressed-bit counter (R23) -/
  rcnt : Nat
  /-- `RLEN`, the length of `RMEM` in bytes (R24) -/
  rlen : Nat
  /-- `RMEM`, the read buffer (R24, 20_memory R50) -/
  rmem : Memory
deriving DecidableEq, Repr

/-- The state of unit WRU (10_state R25 to R29). -/
structure Wru where
  /-- `WCUR`, the write bit cursor (R25) -/
  wcur : Nat
  /-- `WCNT`, the compressed-bit counter (R26) -/
  wcnt : Nat
  /-- `WLEN`, the length of `WMEM` in bytes (R27) -/
  wlen : Nat
  /-- `WMEM`, the output buffer (R27, 20_memory R50) -/
  wmem : Memory
  /-- `WACC`, the in-progress accumulator (R28) -/
  wacc : Byte
  /-- `WFIN`, the finalized flag (R29) -/
  wfin : Bool
deriving DecidableEq, Repr

/-- The whole block. TWU has no state (10_state R30). `CW`, `OPD`, `OPD2`, `ST` and `RES` are not state
(R20, R34): they stand in the host's events and in the responses only. -/
structure State where
  /-- unit RDU -/
  rdu : Rdu
  /-- unit WRU -/
  wru : Wru
  /-- the host's remaining events, the one presented now at the head (log 2) -/
  port : List HostEvent
  /-- the responses given so far, the latest at the head (70_reset R276, log 3) -/
  responses : List Response
  /-- `ROUND_TIES`, a parameter no step writes (00_scope R6, log 5) -/
  roundTies : Config.RoundTies
  /-- how many free values have been drawn (log 6): the model's own counter -/
  freeCount : Nat
deriving DecidableEq, Repr

/-- Reasons to stop with a fault. There is none: every error of the block is a response after which it goes
on (60_exceptions R250), so nothing raises one. -/
inductive Fault where
deriving DecidableEq, Repr

/-- Reasons to refuse a command. -/
inductive Refusal where
  /-- Raised by `exec` for a command without a meaning; safe. No arm of `exec` raises it. -/
  | notModelled (mnemonic : String)
deriving DecidableEq, Repr

/-- What a command, or a step, answers. -/
abbrev Result := Host.Outcome State Fault Refusal

/-- `RDU` bound to the empty buffer, right after its reset (70_reset R271; the buffer is the host's, log 1). -/
def Rdu.reset : Rdu := { rcur := 0, rcnt := 0, rlen := 0, rmem := [] }

/-- `WRU` right after its reset (70_reset R272). -/
def Wru.reset : Wru := { wcur := 0, wcnt := 0, wlen := 0, wmem := [], wacc := 0x00, wfin := false }

/-- The block right after the reset of both units, with no event left to come (10_state R34; log 1, 2, 5, 6). -/
def State.reset : State :=
  { rdu := Rdu.reset
    wru := Wru.reset
    port := []
    responses := []
    roundTies := .halfUp
    freeCount := 0 }

end Sys2Proof.Machine
end

