-- ==== Sys2Proof/Machine/Ops.lean ====
section
/-! DEFINITION. The named operations over the buffers, the cursors and the command port: the read primitive
and the field read (spec 00_scope R10, 20_memory R54 to R56), the write primitive and the field write
(20_memory R58), the two resets (70_reset R271, R272), the answer to a command, and `raise`, the one way a
command fails (00_scope R11, 60_exceptions R250). There is no return from an error (R251). -/

namespace Sys2Proof.Machine

/-! ### Byte buffers -/

/-- The byte at an address. -/
def Memory.readByte : Memory → Nat → Byte
  | [], _ => Memory.unlisted
  | (a, b) :: rest, addr => if a = addr then b else Memory.readByte rest addr

/-- An entry for a byte, or none where the byte is what an unlisted address reads as. -/
def Memory.cell (addr : Nat) (b : Byte) : Memory :=
  if b = Memory.unlisted then [] else [(addr, b)]

/-- The buffer with one byte written, in canonical form. -/
def Memory.writeByte : Memory → Nat → Byte → Memory
  | [], addr, v => Memory.cell addr v
  | (a, b) :: rest, addr, v =>
    if addr < a then Memory.cell addr v ++ (a, b) :: rest
    else if addr = a then Memory.cell addr v ++ rest
    else (a, b) :: Memory.writeByte rest addr v

/-- The buffer that holds the given bytes from address `base` upward. -/
def Memory.ofBytes : Nat → List Byte → Memory
  | _, [] => []
  | base, b :: rest => Memory.cell base b ++ Memory.ofBytes (base + 1) rest

/-! ### The reader's primitive -/

/-- `MemRead(p, 1)`: bit `p mod 8` of byte `p div 8` inside the buffer, 0 beyond its end (20_memory R51, R54,
R55). -/
def Rdu.memRead (u : Rdu) (p : Nat) : Bool :=
  if p / 8 < u.rlen then (u.rmem.readByte (p / 8)).getLsbD (p % 8) else false

/-- `RCUR` moved on by `n`. -/
def Rdu.advance (u : Rdu) (n : Nat) : Rdu := { u with rcur := u.rcur + n }

/-- `RCNT` raised by `n` (10_state R31). -/
def Rdu.count (u : Rdu) (n : Nat) : Rdu := { u with rcnt := u.rcnt + n }

/-- `RdBit()`: the bit at the cursor, which moves on by one, inside the buffer and beyond it (00_scope R10,
20_memory R56). -/
def rdBit (u : Rdu) : Bool × Rdu := (u.memRead u.rcur, u.advance 1)

/-- `RdField(n)`: `n` calls of `RdBit`, least significant bit first (00_scope R10). -/
def rdField : Nat → Rdu → Nat × Rdu
  | 0, u => (0, u)
  | n + 1, u =>
    let bit := rdBit u
    let rest := rdField n bit.2
    (bit.1.toNat + 2 * rest.1, rest.2)

/-- The optional sign bit of a field: one `RdBit` when `s = 1`, none and the value 0 when `s = 0` (40 R119,
41 R130). -/
def rdSign (s : Bool) (u : Rdu) : Bool × Rdu := if s then rdBit u else (false, u)

/-! ### The writer's primitive -/

/-- Appends one byte to `WMEM` (20_memory R59). -/
def Wru.appendByte (u : Wru) (b : Byte) : Wru :=
  { u with wmem := u.wmem.writeByte u.wlen b, wlen := u.wlen + 1 }

/-- `WCNT` raised by `n` (10_state R31). -/
def Wru.count (u : Wru) (n : Nat) : Wru := { u with wcnt := u.wcnt + n }

/-- `WrBit(b)`: the bit goes to bit `WCUR mod 8` of `WACC`; the eighth bit of a byte appends the byte and
clears `WACC` (20_memory R58). -/
def wrBit (b : Bool) (u : Wru) : Wru :=
  let k := u.wcur % 8
  let acc := setBit u.wacc k b
  if k = 7 then
    { u with wcur := u.wcur + 1, wacc := 0x00 }.appendByte acc
  else
    { u with wcur := u.wcur + 1, wacc := acc }

/-- `WrField(n, v)`: `n` calls of `WrBit`, least significant bit first (00_scope R10). -/
def wrField : Nat → Nat → Wru → Wru
  | 0, _, u => u
  | n + 1, v, u => wrField n (v / 2) (wrBit (v.testBit 0) u)

/-- The optional sign bit of a field: one `WrBit` when `s = 1` (44 R169, 45 R180). -/
def wrSign (s b : Bool) (u : Wru) : Wru := if s then wrBit b u else u

/-- What the host sees of the output: byte `i` of `WMEM`, for `i < WLEN` (20_memory R60). The read has no
effect. -/
def Wru.hostByte (u : Wru) (i : Nat) : Option Byte :=
  if i < u.wlen then some (u.wmem.readByte i) else none

/-- The bytes of `WMEM`, as the host takes them (20_memory R60). -/
def Wru.bytes (u : Wru) : List Byte := (List.range u.wlen).map u.wmem.readByte

/-! ### Answers and errors -/

/-- The errors of the block (60_exceptions R240 to R248). -/
inductive Error where
  /-- a width operand outside its range (R241) -/
  | invalidFieldWidth
  /-- a group size outside 1 to 64 (R242) -/
  | invalidGroupSize
  /-- a negative value for the positive-only writer (R243) -/
  | negativeValue
  /-- `maxAbsInteger` or `decimalPlaces` out of range (R244) -/
  | invalidRange
  /-- a writing command after finalization (R245) -/
  | finalized
  /-- a word that is no command, or an unknown status register (R246) -/
  | illegalCommand
  /-- a bit position outside the operand (R247) -/
  | invalidBitPosition
deriving DecidableEq, Repr

/-- The status `OK` (60_exceptions R248). -/
abbrev okCode : BitVec 4 := 0

/-- The status code of an error (60_exceptions R248). -/
def Error.code : Error → BitVec 4
  | .invalidFieldWidth => 1
  | .invalidGroupSize => 2
  | .negativeValue => 3
  | .invalidRange => 4
  | .finalized => 5
  | .illegalCommand => 6
  | .invalidBitPosition => 7

/-- The command presented at the port is answered: it leaves the port and its one response is given
(30_encoding R80, 20_memory R66). -/
def State.answer (s : State) (st : BitVec 4) (res : Word) : State :=
  { s with port := s.port.tail, responses := ⟨st, res⟩ :: s.responses }

/-- `raise E`: the command ends with the code of `E` and `RES = 0`, and no state of any unit changes
(00_scope R11, 60_exceptions R250). The next state is the one the host issues its next command to (R251). -/
def raise (e : Error) (s : State) : Result := .next (s.answer e.code 0)

/-- A command that changes no unit's state completes: `ST = OK`. -/
def finish (res : Word) (s : State) : Result := .next (s.answer okCode res)

/-- A reader command completes with the reader it leaves. -/
def finishRdu (u : Rdu) (res : Word) (s : State) : Result := finish res { s with rdu := u }

/-- A writer command completes with the writer it leaves; `RES` is 0 (30_encoding R85). -/
def finishWru (u : Wru) (s : State) : Result := finish 0 { s with wru := u }

/-! ### Resets -/

/-- Reset of RDU: `RCUR` and `RCNT` are 0, `RLEN` and `RMEM` are what the host presents (70_reset R271). -/
def Rdu.resetWith (bytes : List Byte) : Rdu :=
  { rcur := 0, rcnt := 0, rlen := bytes.length, rmem := Memory.ofBytes 0 bytes }

/-- The host resets RDU; nothing else changes and there is no response (70_reset R270, R271). -/
def resetRdu (bytes : List Byte) (s : State) : Result :=
  .next { s with rdu := Rdu.resetWith bytes, port := s.port.tail }

/-- The host resets WRU; nothing else changes and there is no response (70_reset R270, R272). -/
def resetWru (s : State) : Result := .next { s with wru := Wru.reset, port := s.port.tail }

end Sys2Proof.Machine
end

