-- ==== Sys2Proof/Machine/Operands.lean ====
section
/-! DEFINITION. The operands of a command: the two presented beside the word (spec 30_encoding R85), the width
checks that a width-like operand goes through (R83, 60_exceptions R241 to R247), and the field widths of a
decimal (43 R150). -/

namespace Sys2Proof.Machine

/-- `OPD` of the command presented at the port; 0 where none is presented, which no step comes to (log 10). -/
def State.opd (s : State) : Word :=
  match s.port with
  | .command c :: _ => c.opd
  | _ => 0

/-- `OPD2` of the command presented at the port; 0 where none is presented, which no step comes to (log 10). -/
def State.opd2 (s : State) : Word :=
  match s.port with
  | .command c :: _ => c.opd2
  | _ => 0

/-- `OPD[0]` (30_encoding R85). -/
def State.opdBit (s : State) : Bool := s.opd.getLsbD 0

/-- `OPD[n-1:0]`; the bits above are ignored (30_encoding R85, 92 D28). -/
def State.opdLow (s : State) (n : Nat) : BitVec n := s.opd.setWidth n

/-- `M = sint_64(OPD2)`, `maxAbsInteger` (43 R151, 92 D32). -/
def State.maxAbs (s : State) : Int := s.opd2.toInt

/-- `lo <= v <= hi`, the range check of a width-like operand. -/
abbrev InRange (v : Int) (lo hi : Nat) : Prop := (lo : Int) ≤ v ∧ v ≤ (hi : Int)

/-- `a = BitsNeeded(M)`, the width of the integral field (43 R150). -/
def integralWidth (maxAbs : Int) : Nat := bitsNeeded maxAbs

/-- `b = BitsNeeded(10^d)`, the width of the scaled-decimal field (43 R150). -/
def scaledWidth (d : Nat) : Nat := bitsNeeded ((10 ^ d : Nat) : Int)

/-- The preconditions of the decimal commands (43 R153): `M > 0` and `0 <= d <= 18`. -/
abbrev DecimalRange (maxAbs d : Int) : Prop := 0 < maxAbs ∧ InRange d 0 Config.maxDecimalPlaces

end Sys2Proof.Machine
end

