-- ==== Sys2Proof/Machine/ReaderDecimal.lean ====
section
/-! DEFINITION. The reader command for the fixed-point decimal (spec 43_reader_decimal R150 to R153). -/

namespace Sys2Proof.Machine

/-- `RD_DEC d` with `OPD2 = M` (43 R151): the sign bit, the integral part in `a` bits, the scaled decimal part
in `b` bits; nothing checks the parts against `M` or `10^d`. -/
def execRdDec (d : Int) (s : State) : Result :=
  if DecimalRange s.maxAbs d then
    let a := integralWidth s.maxAbs
    let b := scaledWidth d.toNat
    let sign := rdBit s.rdu
    let integral := rdField a sign.2
    let scaled := rdField b integral.2
    finishRdu (scaled.2.count (a + b)) (decCombine sign.1 integral.1 scaled.1 d.toNat) s
  else raise .invalidRange s

end Sys2Proof.Machine
end

