-- ==== Sys2Proof/Machine/ReaderFloat.lean ====
section
/-! DEFINITION. The reader commands for the custom floating-point layout (spec 41_reader_float R130 to R134). -/

namespace Sys2Proof.Machine

/-- The common body of `RD_FLOAT` and `RD_DOUBLE` (41 R130 to R132): the sign first, to bit `top`, then the
exponent, from bit `place` upward, then the mantissa, from bit 0 upward. The greatest exponent and mantissa
widths are `eMax` and `mMax`. -/
def rdFloating (eMax mMax place top : Nat) (e m : Int) (signed : Bool) (s : State) : Result :=
  if InRange e 1 eMax ∧ InRange m 1 mMax then
    let sign := rdSign signed s.rdu
    let exponent := rdField e.toNat sign.2
    let mantissa := rdField m.toNat exponent.2
    let pattern := BitVec.ofNat 64 mantissa.1 ||| BitVec.ofNat 64 exponent.1 <<< place |||
      (BitVec.ofBool sign.1).setWidth 64 <<< top
    finishRdu (mantissa.2.count (e.toNat + m.toNat)) pattern s
  else raise .invalidFieldWidth s

/-- `RD_FLOAT e, m, s` (41 R132): the pattern is returned as it is (R133). -/
def execRdFloat (e m : Int) (signed : Bool) (s : State) : Result := rdFloating 8 23 23 31 e m signed s

/-- `RD_DOUBLE e, m, s` (41 R131): the pattern is returned as it is (R133). -/
def execRdDouble (e m : Int) (signed : Bool) (s : State) : Result := rdFloating 11 52 52 63 e m signed s

end Sys2Proof.Machine
end

