-- ==== Sys2Proof/Machine/ReaderInteger.lean ====
section
/-! DEFINITION. The reader commands for bits, booleans and integers and the reader's status read (spec
40_reader_bits_and_integers R110 to R122). -/

namespace Sys2Proof.Machine

/-- `zext_64` of a bit (30_encoding R85). -/
def bitResult (b : Bool) : Word := (BitVec.ofBool b).setWidth 64

/-- The common body `RdFixed(w, T)` of the unsigned fixed-width reads (40 R113). -/
def rdFixed (w : Int) (T : Nat) (s : State) : Result :=
  if InRange w 1 T then
    let field := rdField w.toNat s.rdu
    finishRdu (field.2.count w.toNat) (BitVec.ofNat 64 field.1) s
  else raise .invalidFieldWidth s

/-- `RD_BIT` (40 R110): the raw primitive; `RCNT` is not changed. -/
def execRdBit (s : State) : Result :=
  let bit := rdBit s.rdu
  finishRdu bit.2 (bitResult bit.1) s

/-- `RD_BOOL` (40 R111). -/
def execRdBool (s : State) : Result :=
  let bit := rdBit s.rdu
  finishRdu (bit.2.count 1) (bitResult bit.1) s

/-- `RD_BYTE w` (40 R114). -/
def execRdByte (w : Int) (s : State) : Result := rdFixed w Config.maxWidthByte s

/-- `RD_SHORT w` (40 R115). -/
def execRdShort (w : Int) (s : State) : Result := rdFixed w Config.maxWidthShort s

/-- `RD_INT w` (40 R116). -/
def execRdInt (w : Int) (s : State) : Result := rdFixed w Config.maxWidthInt s

/-- `RD_LONG w` (40 R117). -/
def execRdLong (w : Int) (s : State) : Result := rdFixed w Config.maxWidthLong s

/-- `RD_PINT w` (40 R118). -/
def execRdPint (w : Int) (s : State) : Result := rdFixed w Config.maxWidthPint s

/-- `RD_SINT w, s` (40 R119): the sign bit is last on the wire and overwrites bit 31; there is no sign extension
(90 C1). -/
def execRdSint (w : Int) (signed : Bool) (s : State) : Result :=
  if InRange w 1 Config.maxWidthInt then
    let field := rdField w.toNat s.rdu
    let sign := rdSign signed field.2
    let v := BitVec.ofNat 32 field.1
    let pattern := if signed then setBit v 31 sign.1 else v
    finishRdu (sign.2.count w.toNat) (pattern.setWidth 64) s
  else raise .invalidFieldWidth s

/-- `RD_STAT n` (40 R120): a natural number is returned modulo `2^64` (30_encoding R85, log 4). -/
def execRdStat (n : Int) (s : State) : Result :=
  if n = 0 then finish (BitVec.ofNat 64 s.rdu.rcur) s
  else if n = 1 then finish (BitVec.ofNat 64 s.rdu.rcnt) s
  else if n = 2 then finish (BitVec.ofNat 64 s.rdu.rlen) s
  else raise .illegalCommand s

end Sys2Proof.Machine
end

