-- ==== Sys2Proof/Machine/ReaderVarint.lean ====
section
/-! DEFINITION. The reader command for the variable-length integer (spec 42_reader_varint R140 to R144). -/

namespace Sys2Proof.Machine

/-- What the loop of `RD_VARINT` leaves: the accumulator, the number of groups read, the reader. -/
structure VarintRead where
  acc : Word
  groups : Nat
  rdu : Rdu
deriving DecidableEq, Repr

/-- One turn of the loop of `RD_VARINT` (42 R141): a group, to accumulator position `k` upward, where positions of
64 and above are dropped (R142), then the continuation bit. -/
def rdGroup (g k : Nat) (r : VarintRead) : Bool × VarintRead :=
  let group := rdField g r.rdu
  let more := rdBit group.2
  (more.1, { acc := r.acc ||| BitVec.ofNat 64 group.1 <<< k, groups := r.groups + 1, rdu := more.2 })

/-- The loop of `RD_VARINT` (42 R141): groups until a continuation bit is 0. `fuel` bounds the groups that may
follow the first (log 14). -/
def rdGroups (g : Nat) : Nat → Nat → VarintRead → VarintRead
  | 0, k, r => (rdGroup g k r).2
  | fuel + 1, k, r =>
    let turn := rdGroup g k r
    if turn.1 then rdGroups g fuel (k + g) turn.2 else turn.2

/-- No continuation bit from the cursor on is 1 after this many groups: every bit beyond the buffer is 0 (42
R143). -/
def rdVarintFuel (u : Rdu) : Nat := 8 * u.rlen - u.rcur

/-- `RD_VARINT g` (42 R141): `RCNT` grows by the payload bits of the groups (R144). -/
def execRdVarint (g : Int) (s : State) : Result :=
  if InRange g 1 Config.maxGroup then
    let r := rdGroups g.toNat (rdVarintFuel s.rdu) 0 { acc := 0, groups := 0, rdu := s.rdu }
    finishRdu (r.rdu.count (r.groups * g.toNat)) r.acc s
  else raise .invalidGroupSize s

end Sys2Proof.Machine
end

