-- ==== Sys2Proof/Machine/Twiddle.lean ====
section
/-! DEFINITION. The commands of the bit-twiddling leaf (spec 49_twiddle R220 to R232). They read `OPD` and write
the response only. -/

namespace Sys2Proof.Machine

/-- The common body of `TW_GETBITn` (49 R221 to R224, R232), `v = OPD[n-1:0]`. -/
def twGetBit (n : Nat) (pos : Int) (s : State) : Result :=
  if 0 ≤ pos ∧ pos < n then
    finish ((BitVec.ofBool (getBit (s.opdLow n) pos.toNat)).setWidth 64) s
  else raise .invalidBitPosition s

/-- The common body of `TW_SETBITn` (49 R226 to R229, R232), `v = OPD[n-1:0]`. -/
def twSetBit (n : Nat) (pos : Int) (flag : Bool) (s : State) : Result :=
  if 0 ≤ pos ∧ pos < n then
    finish ((setBit (s.opdLow n) pos.toNat flag).setWidth 64) s
  else raise .invalidBitPosition s

/-- `TW_GETBIT8 pos` (49 R221). -/
def execTwGetbit8 (pos : Int) (s : State) : Result := twGetBit 8 pos s

/-- `TW_GETBIT16 pos` (49 R222). -/
def execTwGetbit16 (pos : Int) (s : State) : Result := twGetBit 16 pos s

/-- `TW_GETBIT32 pos` (49 R223). -/
def execTwGetbit32 (pos : Int) (s : State) : Result := twGetBit 32 pos s

/-- `TW_GETBIT64 pos` (49 R224). -/
def execTwGetbit64 (pos : Int) (s : State) : Result := twGetBit 64 pos s

/-- `TW_SETBIT8 pos, s` (49 R226). -/
def execTwSetbit8 (pos : Int) (flag : Bool) (s : State) : Result := twSetBit 8 pos flag s

/-- `TW_SETBIT16 pos, s` (49 R227). -/
def execTwSetbit16 (pos : Int) (flag : Bool) (s : State) : Result := twSetBit 16 pos flag s

/-- `TW_SETBIT32 pos, s` (49 R228). -/
def execTwSetbit32 (pos : Int) (flag : Bool) (s : State) : Result := twSetBit 32 pos flag s

/-- `TW_SETBIT64 pos, s` (49 R229). -/
def execTwSetbit64 (pos : Int) (flag : Bool) (s : State) : Result := twSetBit 64 pos flag s

/-- `TW_BITSNEEDED` (49 R231): every operand has a result. -/
def execTwBitsneeded (s : State) : Result := finish (BitVec.ofNat 64 (bitsNeeded s.opd.toInt)) s

end Sys2Proof.Machine
end

