-- ==== Sys2Proof/Machine/Flags.lean ====
section
/-! DEFINITION. The one flag, `WFIN` (spec 10_state R29, R36): its check at the head of every writing command
(44 R171, 60_exceptions R245, R249) and its setting by `WR_PACK` (48 R210). No command computes a condition
code: there is none (R36). -/

namespace Sys2Proof.Machine

/-- `if WFIN = 1: raise Finalized`, before the command's own checks (44 R171, 60_exceptions R249). -/
def unlessFinalized (s : State) (body : Result) : Result :=
  if s.wru.wfin then raise .finalized s else body

/-- The partial byte, if there is one, is appended and `WACC` cleared (48 R210). -/
def Wru.flush (u : Wru) : Wru :=
  if u.wcur % 8 ≠ 0 then { u with wacc := 0x00 }.appendByte u.wacc else u

/-- The first `WR_PACK` flushes and sets `WFIN`; a later one changes nothing (48 R210, R211). -/
def Wru.pack (u : Wru) : Wru := if u.wfin then u else { u.flush with wfin := true }

end Sys2Proof.Machine
end

