-- ==== Sys2Proof/Machine/WriterDecimal.lean ====
section
/-! DEFINITION. The writer command for the fixed-point decimal (spec 47_writer_decimal R200 to R204). -/

namespace Sys2Proof.Machine

/-- The wire of a decimal: the sign bit, the low `a` bits of the integral part, the low `b` bits of the scaled
decimal part (47 R200); over-large parts lose their high bits (R202). -/
def wrDecimal (a b : Nat) (parts : DecimalParts) (u : Wru) : Wru :=
  (wrField b parts.sd (wrField a parts.ip (wrBit parts.sg u))).count (a + b)

/-- The parts `WR_DEC` writes for the operand `OPD` (47 R201, R203). -/
def decimalParts (d : Nat) (s : State) : DecimalParts :=
  if f64IsFinite s.opd then decSplit s.roundTies s.opd d else nonFiniteParts s.freeCount s.opd

/-- A free value has been drawn when the operand is not finite (47 R203, log 6). -/
def State.drawFree (s : State) : State :=
  if f64IsFinite s.opd then s else { s with freeCount := s.freeCount + 1 }

/-- `WR_DEC d` with `OPD = P`, `OPD2 = M` (47 R200): no value is out of range (R202, R203). -/
def execWrDec (d : Int) (s : State) : Result :=
  unlessFinalized s <|
    if DecimalRange s.maxAbs d then
      let u := wrDecimal (integralWidth s.maxAbs) (scaledWidth d.toNat) (decimalParts d.toNat s) s.wru
      finishWru u s.drawFree
    else raise .invalidRange s

end Sys2Proof.Machine
end

