-- ==== Sys2Proof/Machine/WriterFinalize.lean ====
section
/-! DEFINITION. The finalization of the output (spec 48_writer_finalize R210 to R213). -/

namespace Sys2Proof.Machine

/-- `WR_PACK` (48 R210): never fails; `RES` is `WLEN` after the command, modulo `2^64` (30_encoding R85, log 4). -/
def execWrPack (s : State) : Result :=
  finish (BitVec.ofNat 64 s.wru.pack.wlen) { s with wru := s.wru.pack }

end Sys2Proof.Machine
end

