-- ==== Sys2Proof/Machine/WriterFloat.lean ====
section
/-! DEFINITION. The writer commands for the custom floating-point layout (spec 45_writer_float R180 to R183). -/

namespace Sys2Proof.Machine

/-- The common body of `WR_FLOAT` and `WR_DOUBLE` (45 R180, R181) on the pattern `p`, `top + 1` bits wide: the
sign first, then the low `e` bits of the exponent field `p[top-1:place]`, then the low `m` bits of the mantissa
field `p[place-1:0]`. Bits are selected and nothing is computed (R183). -/
def wrFloating (eMax mMax place top : Nat) (e m : Int) (signed : Bool) (s : State) : Result :=
  unlessFinalized s <|
    if InRange e 1 eMax ∧ InRange m 1 mMax then
      let p := s.opdLow (top + 1)
      let sign := wrSign signed (getBit p top) s.wru
      let exponent := wrField e.toNat (p.extractLsb' place (top - place)).toNat sign
      let mantissa := wrField m.toNat (p.extractLsb' 0 place).toNat exponent
      finishWru (mantissa.count (e.toNat + m.toNat)) s
    else raise .invalidFieldWidth s

/-- `WR_FLOAT e, m, s` (45 R181). -/
def execWrFloat (e m : Int) (signed : Bool) (s : State) : Result := wrFloating 8 23 23 31 e m signed s

/-- `WR_DOUBLE e, m, s` (45 R180). -/
def execWrDouble (e m : Int) (signed : Bool) (s : State) : Result := wrFloating 11 52 52 63 e m signed s

end Sys2Proof.Machine
end

