-- ==== Sys2Proof/Machine/WriterInteger.lean ====
section
/-! DEFINITION. The writer commands for bits, booleans and integers and the writer's status read (spec
44_writer_bits_and_integers R160 to R172). -/

namespace Sys2Proof.Machine

/-- The common body `WrFixed(v, w, T)` of the unsigned fixed-width writes (44 R163), `v = OPD[T-1:0]`: bits 0 to
`w-1` of `v`, the others dropped without error (R162). -/
def wrFixed (w : Int) (T : Nat) (s : State) : Result :=
  unlessFinalized s <|
    if InRange w 1 T then
      finishWru ((wrField w.toNat (s.opdLow T).toNat s.wru).count w.toNat) s
    else raise .invalidFieldWidth s

/-- `WR_BIT` (44 R160): the raw primitive; `WCNT` is not changed. -/
def execWrBit (s : State) : Result :=
  unlessFinalized s <| finishWru (wrBit s.opdBit s.wru) s

/-- `WR_BOOL` (44 R161). -/
def execWrBool (s : State) : Result :=
  unlessFinalized s <| finishWru ((wrBit s.opdBit s.wru).count 1) s

/-- `WR_BYTE w` (44 R164). -/
def execWrByte (w : Int) (s : State) : Result := wrFixed w Config.maxWidthByte s

/-- `WR_SHORT w` (44 R165). -/
def execWrShort (w : Int) (s : State) : Result := wrFixed w Config.maxWidthShort s

/-- `WR_INT w` (44 R166). -/
def execWrInt (w : Int) (s : State) : Result := wrFixed w Config.maxWidthInt s

/-- `WR_LONG w` (44 R167). -/
def execWrLong (w : Int) (s : State) : Result := wrFixed w Config.maxWidthLong s

/-- `WR_PINT w` (44 R168): the width is checked before the sign (60_exceptions R249). -/
def execWrPint (w : Int) (s : State) : Result :=
  unlessFinalized s <|
    if InRange w 1 Config.maxWidthPint then
      if getBit (s.opdLow 32) 31 then raise .negativeValue s
      else finishWru ((wrField w.toNat (s.opdLow 32).toNat s.wru).count w.toNat) s
    else raise .invalidFieldWidth s

/-- `WR_SINT w, s` (44 R169): bits 0 to `w-1` of the pattern, then bit 31 when `s = 1`. -/
def execWrSint (w : Int) (signed : Bool) (s : State) : Result :=
  unlessFinalized s <|
    if InRange w 1 Config.maxWidthInt then
      let field := wrField w.toNat (s.opdLow 32).toNat s.wru
      finishWru ((wrSign signed (getBit (s.opdLow 32) 31) field).count w.toNat) s
    else raise .invalidFieldWidth s

/-- `WR_STAT n` (44 R170): it does not check `WFIN`; a natural number is returned modulo `2^64` (30_encoding R85,
log 4). -/
def execWrStat (n : Int) (s : State) : Result :=
  if n = 0 then finish (BitVec.ofNat 64 s.wru.wcur) s
  else if n = 1 then finish (BitVec.ofNat 64 s.wru.wcnt) s
  else if n = 2 then finish (BitVec.ofNat 64 s.wru.wlen) s
  else if n = 3 then finish ((BitVec.ofBool s.wru.wfin).setWidth 64) s
  else raise .illegalCommand s

end Sys2Proof.Machine
end

