-- ==== Sys2Proof/Machine/WriterVarint.lean ====
section
/-! DEFINITION. The writer command for the variable-length integer (spec 46_writer_varint R190 to R194). -/

namespace Sys2Proof.Machine

/-- What the loop of `WR_VARINT` leaves: the number of groups written and the writer. -/
structure VarintWrite where
  groups : Nat
  wru : Wru
deriving DecidableEq, Repr

/-- One turn of the loop of `WR_VARINT` (46 R190): the low `g` bits of `rem`, then the continuation bit, which says
whether anything but zeros is left. -/
def wrGroup (g rem : Nat) (r : VarintWrite) : VarintWrite :=
  { groups := r.groups + 1, wru := wrBit (rem / 2 ^ g != 0) (wrField g rem r.wru) }

/-- The loop of `WR_VARINT` (46 R190): groups until nothing but zeros is left. `fuel` bounds the groups that may
follow the first (log 14). -/
def wrGroups (g : Nat) : Nat → Nat → VarintWrite → VarintWrite
  | 0, rem, r => wrGroup g rem r
  | fuel + 1, rem, r =>
    if rem / 2 ^ g != 0 then wrGroups g fuel (rem / 2 ^ g) (wrGroup g rem r) else wrGroup g rem r

/-- At most 64 groups are written, so at most 63 follow the first (46 R191). -/
abbrev wrVarintFuel : Nat := 63

/-- `WR_VARINT g` (46 R190): `WCNT` grows by the payload bits of the groups (R194). -/
def execWrVarint (g : Int) (s : State) : Result :=
  unlessFinalized s <|
    if InRange g 1 Config.maxGroup then
      let r := wrGroups g.toNat wrVarintFuel s.opd.toNat { groups := 0, wru := s.wru }
      finishWru (r.wru.count (r.groups * g.toNat)) s
    else raise .invalidGroupSize s

end Sys2Proof.Machine
end

