-- ==== Sys2Proof/Machine/Dispatch.lean ====
section
/-! DEFINITION. Which meaning each command has: one arm per constructor of `Instr`. -/

namespace Sys2Proof.Machine

/-- The effect of a command on the state in which it is presented at the port. -/
def exec (i : Instr) (s : State) : Host.Outcome State Fault Refusal :=
  match i with
  | .rdBit => Sys2Proof.Machine.execRdBit s
  | .rdBool => Sys2Proof.Machine.execRdBool s
  | .rdByte w => Sys2Proof.Machine.execRdByte w s
  | .rdShort w => Sys2Proof.Machine.execRdShort w s
  | .rdInt w => Sys2Proof.Machine.execRdInt w s
  | .rdLong w => Sys2Proof.Machine.execRdLong w s
  | .rdPint w => Sys2Proof.Machine.execRdPint w s
  | .rdSint w flag => Sys2Proof.Machine.execRdSint w flag s
  | .rdFloat e m flag => Sys2Proof.Machine.execRdFloat e m flag s
  | .rdDouble e m flag => Sys2Proof.Machine.execRdDouble e m flag s
  | .rdVarint g => Sys2Proof.Machine.execRdVarint g s
  | .rdDec d => Sys2Proof.Machine.execRdDec d s
  | .rdStat n => Sys2Proof.Machine.execRdStat n s
  | .wrBit => Sys2Proof.Machine.execWrBit s
  | .wrBool => Sys2Proof.Machine.execWrBool s
  | .wrByte w => Sys2Proof.Machine.execWrByte w s
  | .wrShort w => Sys2Proof.Machine.execWrShort w s
  | .wrInt w => Sys2Proof.Machine.execWrInt w s
  | .wrLong w => Sys2Proof.Machine.execWrLong w s
  | .wrPint w => Sys2Proof.Machine.execWrPint w s
  | .wrSint w flag => Sys2Proof.Machine.execWrSint w flag s
  | .wrFloat e m flag => Sys2Proof.Machine.execWrFloat e m flag s
  | .wrDouble e m flag => Sys2Proof.Machine.execWrDouble e m flag s
  | .wrVarint g => Sys2Proof.Machine.execWrVarint g s
  | .wrDec d => Sys2Proof.Machine.execWrDec d s
  | .wrPack => Sys2Proof.Machine.execWrPack s
  | .wrStat n => Sys2Proof.Machine.execWrStat n s
  | .twGetbit8 pos => Sys2Proof.Machine.execTwGetbit8 pos s
  | .twGetbit16 pos => Sys2Proof.Machine.execTwGetbit16 pos s
  | .twGetbit32 pos => Sys2Proof.Machine.execTwGetbit32 pos s
  | .twGetbit64 pos => Sys2Proof.Machine.execTwGetbit64 pos s
  | .twSetbit8 pos flag => Sys2Proof.Machine.execTwSetbit8 pos flag s
  | .twSetbit16 pos flag => Sys2Proof.Machine.execTwSetbit16 pos flag s
  | .twSetbit32 pos flag => Sys2Proof.Machine.execTwSetbit32 pos flag s
  | .twSetbit64 pos flag => Sys2Proof.Machine.execTwSetbit64 pos flag s
  | .twBitsneeded => Sys2Proof.Machine.execTwBitsneeded s

end Sys2Proof.Machine
end

