-- ==== Sys2Proof/Machine/Step.lean ====
section
/-! DEFINITION. One step of the block: the event the host presents takes effect as a whole (spec 00_scope R3,
20_memory R61, R66). A word that is no command is answered `IllegalCommand` (30_encoding R88). With no event left
the block holds its state (60_exceptions R261, log 9). -/

namespace Sys2Proof.Machine

/-- A command presented at the port: the one its word names, or the answer to an illegal word (30_encoding R87,
R88). -/
def runCommand (c : Command) (s : State) : Host.Outcome State Fault Refusal :=
  match decode c.cw with
  | .command i => exec i s
  | .illegal _ => raise .illegalCommand s

/-- One step. -/
def step (s : State) : Host.Outcome State Fault Refusal :=
  match s.port with
  | [] => .next s
  | .command c :: _ => runCommand c s
  | .resetRdu bytes :: _ => resetRdu bytes s
  | .resetWru :: _ => resetWru s

/-- `s` with a command presented at the port before whatever else the host will do: the word whose low `nbits`
bits are those of `w`, with both operands 0 (log 2). -/
def State.withFetchWord (s : State) (nbits w : Nat) : State :=
  { s with port := .command ⟨BitVec.ofNat 32 (w % 2 ^ nbits), 0, 0⟩ :: s.port }

end Sys2Proof.Machine
end

