-- ==== Sys2Proof/Safety.lean ====
section
/-! DEFINITION. The terms the claims use: the invariants of the reader and the writer (spec 10_state R32, R33), the
wire as the writer holds it (R33 (d)), legal responses (60_exceptions R248, R250), which unit a command is addressed
to (30_encoding R84), which words the table gives a command (R82, R86), what a response leaves of the state, what a
write adds to the wire, the status that the error rules give a command (60_exceptions R241 to R249), the value of a
binary64 pattern (00_scope R13), and the mirror of a writing command (44 R172). -/

namespace Sys2Proof.Machine

/-- Every byte of the buffer that is not `0x00` lies below address `n`. -/
abbrev Memory.Below (m : Memory) (n : Nat) : Prop := ∀ c ∈ m, c.1 < n

/-- The reader's invariant: `RMEM` is canonical and lies within `RLEN`; `RCNT <= RCUR` (10_state R32 (c)). -/
abbrev RduInv (u : Rdu) : Prop :=
  u.rmem.wf = true ∧ u.rmem.Below u.rlen ∧ u.rcnt ≤ u.rcur

/-- While `WFIN = 0`: `WLEN = WCUR div 8` and bits `WCUR mod 8` to 7 of `WACC` are zero (10_state R33 (b)). -/
abbrev WruOpen (u : Wru) : Prop :=
  u.wlen = u.wcur / 8 ∧ u.wacc >>> (u.wcur % 8) = 0

/-- When `WFIN = 1`: `WLEN = ceil(WCUR / 8)` and `WACC = 0` (10_state R33 (c)). -/
abbrev WruFinal (u : Wru) : Prop :=
  u.wlen = (u.wcur + 7) / 8 ∧ u.wacc = 0

/-- The writer's invariant (10_state R33 (a) to (c)): `WMEM` is canonical and lies within `WLEN`. -/
abbrev WruInv (u : Wru) : Prop :=
  u.wmem.wf = true ∧ u.wmem.Below u.wlen ∧ u.wcnt ≤ u.wcur ∧
    (u.wfin = false → WruOpen u) ∧ (u.wfin = true → WruFinal u)

/-- A response with one of the eight status codes, and `RES = 0` unless the status is `OK` (60_exceptions R248,
R250). -/
abbrev Response.Legal (r : Response) : Prop := r.st.toNat ≤ 7 ∧ (r.st ≠ okCode → r.res = 0)

/-- The invariant of the block. -/
abbrev Inv (s : State) : Prop := RduInv s.rdu ∧ WruInv s.wru ∧ ∀ r ∈ s.responses, r.Legal

/-- The bit at global position `p` of what has been written: in `WMEM`, or in `WACC` where its byte is not yet
appended (10_state R33 (d)). -/
def Wru.wireBit (u : Wru) (p : Nat) : Bool :=
  if p / 8 < u.wlen then (u.wmem.readByte (p / 8)).getLsbD (p % 8) else u.wacc.getLsbD (p % 8)

/-- The units of the block (00_scope R2). -/
inductive UnitName where
  | rdu
  | wru
  | twu
deriving DecidableEq, Repr

/-- The unit a command is addressed to (30_encoding R84, R86). -/
def unitOf : Instr → UnitName
  | .rdBit | .rdBool | .rdByte _ | .rdShort _ | .rdInt _ | .rdLong _ | .rdPint _ | .rdSint _ _ => .rdu
  | .rdFloat _ _ _ | .rdDouble _ _ _ | .rdVarint _ | .rdDec _ | .rdStat _ => .rdu
  | .wrBit | .wrBool | .wrByte _ | .wrShort _ | .wrInt _ | .wrLong _ | .wrPint _ | .wrSint _ _ => .wru
  | .wrFloat _ _ _ | .wrDouble _ _ _ | .wrVarint _ | .wrDec _ | .wrPack | .wrStat _ => .wru
  | .twGetbit8 _ | .twGetbit16 _ | .twGetbit32 _ | .twGetbit64 _ => .twu
  | .twSetbit8 _ _ | .twSetbit16 _ _ | .twSetbit32 _ _ | .twSetbit64 _ _ | .twBitsneeded => .twu

/-- The writing commands: every command of WRU but `WR_PACK` and `WR_STAT` (10_state R29, 60_exceptions R245). -/
def isWriting : Instr → Bool
  | .wrPack | .wrStat _ => false
  | i => decide (unitOf i = .wru)

/-- The commands whose word passes the decoder and is still illegal: a status read of an unknown register
(30_encoding R88). -/
def unknownRegister : Instr → Bool
  | .rdStat n => decide (n < 0 ∨ 2 < n)
  | .wrStat n => decide (n < 0 ∨ 3 < n)
  | _ => false

/-! ### Words -/

/-- Format N (30_encoding R82): the words `cw AND mask = bits` decode to `i`. -/
def EncodedN (bits : CommandWord) (i : Instr) : Prop :=
  ∀ cw : CommandWord, cw &&& 0xFFFFFFFF#32 = bits → decode cw = .command i

/-- Format W (R82): the operand is `sint_8(CW[15:8])` (R83). -/
def EncodedW (bits : CommandWord) (c : Int → Instr) : Prop :=
  ∀ cw : CommandWord, cw &&& 0xFFFF00FF#32 = bits → decode cw = .command (c (cw.extractLsb' 8 8).toInt)

/-- Format WS (R82): the operands are `sint_8(CW[15:8])` and `CW[24]`. -/
def EncodedWS (bits : CommandWord) (c : Int → Bool → Instr) : Prop :=
  ∀ cw : CommandWord, cw &&& 0xFEFF00FF#32 = bits →
    decode cw = .command (c (cw.extractLsb' 8 8).toInt (cw.getLsbD 24))

/-- Format F (R82): the operands are `sint_8(CW[15:8])`, `sint_8(CW[23:16])` and `CW[24]`. -/
def EncodedF (bits : CommandWord) (c : Int → Int → Bool → Instr) : Prop :=
  ∀ cw : CommandWord, cw &&& 0xFE0000FF#32 = bits →
    decode cw = .command (c (cw.extractLsb' 8 8).toInt (cw.extractLsb' 16 8).toInt (cw.getLsbD 24))

/-- The opcodes of format N, W, WS and F (30_encoding R82, R86). -/
def opcodesN : List Nat := [0x00, 0x01, 0x40, 0x41, 0x4C, 0x88]
def opcodesW : List Nat :=
  [0x02, 0x03, 0x04, 0x05, 0x06, 0x0A, 0x0B, 0x0C, 0x42, 0x43, 0x44, 0x45, 0x46, 0x4A, 0x4B, 0x4D,
   0x80, 0x81, 0x82, 0x83]
def opcodesWS : List Nat := [0x07, 0x47, 0x84, 0x85, 0x86, 0x87]

/-- The illegal words, listed as 30_encoding R88 lists them. -/
def IllegalCommandWord (cw : CommandWord) : Prop :=
  let opc := (cw.extractLsb' 0 8).toNat
  let a := cw.extractLsb' 8 8
  let b := cw.extractLsb' 16 8
  let s := cw.getLsbD 24
  cw.extractLsb' 25 7 ≠ 0 ∨
  (0x0D ≤ opc ∧ opc ≤ 0x3F) ∨ (0x4E ≤ opc ∧ opc ≤ 0x7F) ∨ (0x89 ≤ opc ∧ opc ≤ 0xBF) ∨
    (0xC0 ≤ opc ∧ opc ≤ 0xFF) ∨
  (opc ∈ opcodesN ∧ (a ≠ 0 ∨ b ≠ 0 ∨ s = true)) ∨ (opc ∈ opcodesW ∧ (b ≠ 0 ∨ s = true)) ∨
    (opc ∈ opcodesWS ∧ b ≠ 0) ∨
  (opc = 0x0C ∧ (a.toInt < 0 ∨ 2 < a.toInt)) ∨ (opc = 0x4D ∧ (a.toInt < 0 ∨ 3 < a.toInt))

/-! ### What a response leaves, what a write adds -/

/-- `s` after the presented command has been answered with `st` and `res`: the command has left the port, the response
is the latest, and everything else is as in `s` (30_encoding R80, 60_exceptions R250). -/
abbrev State.responded (s : State) (st : BitVec 4) (res : Word) : State :=
  { s with port := s.port.tail, responses := ⟨st, res⟩ :: s.responses }

/-- From `u` to `u'`, `n` bits are put on the wire at `WCUR` upward, bit `i` of them being `bit i`, and nothing else
happens to the wire: every bit before them and every byte of `WMEM` outside those appended (from address `WLEN`
of `u` up to, not including, `WLEN` of `u'`) is as before. `WLEN` and the clear bits of `WACC` are as 10_state R33 (b)
says. `WCNT` is not spoken of. -/
structure AppendsBits (n : Nat) (bit : Nat → Bool) (u u' : Wru) : Prop where
  cursor : u'.wcur = u.wcur + n
  unfinalized : u'.wfin = u.wfin
  length : u'.wlen = u'.wcur / 8
  accClear : u'.wacc >>> (u'.wcur % 8) = 0
  newBits : ∀ i, i < n → u'.wireBit (u.wcur + i) = bit i
  oldBits : ∀ p, p < u.wcur → u'.wireBit p = u.wireBit p
  otherBytes : ∀ a, a < u.wlen ∨ u'.wlen ≤ a → u'.wmem.readByte a = u.wmem.readByte a

/-! ### The status the error rules give -/

/-- A width operand outside its range (60_exceptions R241). -/
def widthError : Instr → Bool
  | .rdByte w | .wrByte w => decide (w < 1 ∨ 8 < w)
  | .rdShort w | .wrShort w => decide (w < 1 ∨ 16 < w)
  | .rdInt w | .wrInt w | .rdSint w _ | .wrSint w _ => decide (w < 1 ∨ 32 < w)
  | .rdLong w | .wrLong w => decide (w < 1 ∨ 64 < w)
  | .rdPint w | .wrPint w => decide (w < 1 ∨ 31 < w)
  | .rdFloat e m _ | .wrFloat e m _ => decide (e < 1 ∨ 8 < e ∨ m < 1 ∨ 23 < m)
  | .rdDouble e m _ | .wrDouble e m _ => decide (e < 1 ∨ 11 < e ∨ m < 1 ∨ 52 < m)
  | _ => false

/-- A group size outside 1 to 64 (R242). -/
def groupError : Instr → Bool
  | .rdVarint g | .wrVarint g => decide (g < 1 ∨ 64 < g)
  | _ => false

/-- A negative value for the positive-only writer (R243). -/
def negativeError (opd : Word) : Instr → Bool
  | .wrPint _ => opd.getLsbD 31
  | _ => false

/-- `maxAbsInteger` or `decimalPlaces` out of range (R244). -/
def rangeError (opd2 : Word) : Instr → Bool
  | .rdDec d | .wrDec d => decide (opd2.toInt ≤ 0 ∨ d < 0 ∨ 18 < d)
  | _ => false

/-- A bit position outside the operand (R247). -/
def positionError : Instr → Bool
  | .twGetbit8 p | .twSetbit8 p _ => decide (p < 0 ∨ 7 < p)
  | .twGetbit16 p | .twSetbit16 p _ => decide (p < 0 ∨ 15 < p)
  | .twGetbit32 p | .twSetbit32 p _ => decide (p < 0 ∨ 31 < p)
  | .twGetbit64 p | .twSetbit64 p _ => decide (p < 0 ∨ 63 < p)
  | _ => false

/-- The status of a command given `OPD`, `OPD2` and `WFIN`: the first error that holds, in the order of 60_exceptions
R249, else `OK`. -/
def statusOf (i : Instr) (opd opd2 : Word) (wfin : Bool) : BitVec 4 :=
  if unknownRegister i then 6
  else if isWriting i && wfin then 5
  else if widthError i then 1
  else if groupError i then 2
  else if rangeError opd2 i then 4
  else if positionError i then 7
  else if negativeError opd i then 3
  else 0

/-! ### The value of a binary64 pattern -/

/-- The pattern is of a finite number (00_scope R8, R13). -/
abbrev F64Finite (p : Word) : Prop := p.extractLsb' 52 11 ≠ 0x7FF#11

/-- `F64(p)` of a finite pattern (00_scope R13): sign at bit 63, exponent field at bits 52 to 62, mantissa field at bits
0 to 51 (R8). -/
def f64Real (p : Word) : ℚ :=
  let e := (p.extractLsb' 52 11).toNat
  let m := (p.extractLsb' 0 52).toNat
  (if p.getLsbD 63 then -1 else 1) *
    (if e = 0 then (m : ℚ) * 2 ^ (-1074 : ℤ) else ((2 ^ 52 + m : ℕ) : ℚ) * 2 ^ ((e : ℤ) - 1075))

/-- `p` is `f64(x)` for a real `x >= 0` (00_scope R13): a finite pattern with sign 0 that is nearest `x`, and an even one
where another is as near. -/
def IsNearestEven (x : ℚ) (p : Word) : Prop :=
  F64Finite p ∧ p.getLsbD 63 = false ∧
    ∀ q : Word, F64Finite q → q.getLsbD 63 = false →
      |f64Real p - x| ≤ |f64Real q - x| ∧ (|f64Real p - x| = |f64Real q - x| → q ≠ p → p.getLsbD 0 = false)

/-- `n` is `Round(y)` for a real `y >= 0` under a tie rule (47_writer_decimal R201). -/
def IsRounded (ties : Config.RoundTies) (y : ℚ) (n : Nat) : Prop :=
  |(n : ℚ) - y| ≤ 1 / 2 ∧
    (|(n : ℚ) - y| = 1 / 2 → match ties with
      | .halfUp => y < n
      | .halfEven => n % 2 = 0)

/-! ### Mirrors -/

/-- The reader command that mirrors a writing command (44 R172, 45 R182, 46 R193, 47 R204). -/
def mirror : Instr → Instr
  | .wrBit => .rdBit
  | .wrBool => .rdBool
  | .wrByte w => .rdByte w
  | .wrShort w => .rdShort w
  | .wrInt w => .rdInt w
  | .wrLong w => .rdLong w
  | .wrPint w => .rdPint w
  | .wrSint w s => .rdSint w s
  | .wrFloat e m s => .rdFloat e m s
  | .wrDouble e m s => .rdDouble e m s
  | .wrVarint g => .rdVarint g
  | .wrDec d => .rdDec d
  | i => i

/-- What the mirror reads back of a value written: bits 0 to `w - 1` of an integer; of a signed one bit 31 as well (44
R172); the sign, the low `e` exponent bits and the low `m` mantissa bits of a float (45 R182); all of a
variable-length integer (46 R193); of a decimal the parts that fit, combined (47 R204), where the operand is finite:
of a NaN or an infinity nothing is said. -/
def ReadsBack (ties : Config.RoundTies) (opd opd2 : Word) (res : Word) : Instr → Prop
  | .wrBit | .wrBool => ∀ i, res.getLsbD i = (decide (i = 0) && opd.getLsbD 0)
  | .wrByte w | .wrShort w | .wrInt w | .wrLong w | .wrPint w =>
    ∀ i, res.getLsbD i = (decide (i < w.toNat) && opd.getLsbD i)
  | .wrSint w s =>
    ∀ i, res.getLsbD i = if i = 31 ∧ s = true then opd.getLsbD 31 else (decide (i < w.toNat) && opd.getLsbD i)
  | .wrFloat e m s =>
    ∀ i, res.getLsbD i =
      ((decide (i < m.toNat) || decide (23 ≤ i ∧ i < 23 + e.toNat) || (decide (i = 31) && s)) && opd.getLsbD i)
  | .wrDouble e m s =>
    ∀ i, res.getLsbD i =
      ((decide (i < m.toNat) || decide (52 ≤ i ∧ i < 52 + e.toNat) || (decide (i = 63) && s)) && opd.getLsbD i)
  | .wrVarint _ => res = opd
  | .wrDec d =>
    F64Finite opd →
      let parts := decSplit ties opd d.toNat
      res = decCombine parts.sg (parts.ip % 2 ^ integralWidth opd2.toInt) (parts.sd % 2 ^ scaledWidth d.toNat) d.toNat
  | _ => False

/-- A command as the host issues it. -/
def issue (i : Instr) (opd opd2 : Word) : HostEvent := .command ⟨encode i, opd, opd2⟩

end Sys2Proof.Machine
end

