-- ==== Sys2Proof/Certificates/Slice0/Obligations.lean ====
section
/-! DEFINITION. The statements about the block, from the numbered rules of the spec. A next state is written out as the
state before it with what changed: what is not named in it is unchanged. `0`, `1`, … before a result are status codes
(60_exceptions R248). -/

open Sys2Proof Sys2Proof.Machine

/-! ### Words -/

/-- Words written out from the fields of 30_encoding R81 and the opcodes of R86, with the examples of R91. -/
def Obligations.SampleWordsDecode : Prop :=
  decode 0x01000407 = .command (.rdSint 4 true) ∧
  decode 0x01000447 = .command (.wrSint 4 true) ∧
  decode 0x01340B49 = .command (.wrDouble 11 52 true) ∧
  decode 0x0000FF02 = .command (.rdByte (-1)) ∧
  decode 0x0000004C = .command .wrPack ∧
  decode 0x0000074A = .command (.wrVarint 7) ∧
  decode 0x0100FF86 = .command (.twSetbit32 (-1) true) ∧
  decode 0x02000802 = .illegal .reservedBitsSet ∧
  decode 0x0000000D = .illegal .unassignedOpcode ∧
  decode 0x00010802 = .illegal .unusedFieldSet

/-- Decoding the word of a well-formed command gives the command back, every operand at every value its field holds
(30_encoding R81, R83, R86, R87). -/
def Obligations.DecodeOfEncodeIsTheCommand : Prop :=
  ∀ i : Instr, i.WellFormed = true → decode (encode i) = .command i

/-- 30_encoding R87: a word is one command or is illegal; it is a command exactly when `CW AND mask = match` of a row
of the table, of one row only; and its operands are those its word carries: assembling them gives the word. -/
def Obligations.DecodeIsTheOpcodeTable : Prop :=
  (∀ cw : CommandWord, (∃ i, decode cw = .command i) ↔ ∃ row ∈ opcodeTable, cw &&& row.mask = row.bits) ∧
  (opcodeTable.Pairwise fun r r' => ∀ cw : CommandWord, ¬(cw &&& r.mask = r.bits ∧ cw &&& r'.mask = r'.bits)) ∧
  (∀ (cw : CommandWord) (i : Instr), decode cw = .command i → i.WellFormed = true ∧ encode i = cw)

/-- 30_encoding R88: exactly the listed words are answered `IllegalCommand` (6) with `RES = 0`, and they change no
state of any unit. -/
def Obligations.IllegalWordsAreAnsweredAndChangeNothing : Prop :=
  ∀ (s : State) (c : Command) (rest : List HostEvent), s.port = .command c :: rest →
    (IllegalCommandWord c.cw → step s = .next (s.responded 6 0)) ∧
    (¬IllegalCommandWord c.cw → ∃ t r, step s = .next t ∧ t.responses = r :: s.responses ∧ r.st ≠ 6)

/-! ### Steps -/

/-- The command presented at the port runs: a step is the effect of the command its word decodes to, and nothing is
added around it (00_scope R3, 10_state R21). -/
def Obligations.StepRunsThePresentedCommand : Prop :=
  ∀ (s : State) (c : Command) (rest : List HostEvent) (i : Instr),
    s.port = .command c :: rest → decode c.cw = .command i → step s = exec i s

/-- Every step ends in a next state. With no event left the state stays as it is (60_exceptions R261; that a step is
then a step that changes nothing is the model's choice, log 9). A command leaves the port, whatever it is, and has
exactly one response (30_encoding R80). No step writes `ROUND_TIES`. -/
def Obligations.EveryStepEndsInANextState : Prop :=
  ∀ s : State, ∃ t, step s = .next t ∧ t.roundTies = s.roundTies ∧
    (s.port = [] → t = s) ∧
    (∀ c rest, s.port = .command c :: rest → t.port = rest ∧ ∃ r, t.responses = r :: s.responses)

/-- 70_reset section 1. A reset of RDU sets `RCUR` and `RCNT` to 0 and takes `RLEN` and `RMEM` from the host, and a
step without such a reset keeps them; the first `RdBit` after the reset reads global position 0 (R271). The other unit
stays as it is (R270). That there is no response, and that the responses given, `ROUND_TIES` and the counter of free
values stay, is the model's inference (log 17, DEDUCED). -/
def Obligations.RduResetTakesTheHostsBuffer : Prop :=
  ∀ (s : State) (bytes : List Byte) (rest : List HostEvent), s.port = .resetRdu bytes :: rest →
    ∃ m : Memory,
      step s = .next { s with rdu := ⟨0, 0, bytes.length, m⟩, port := rest } ∧
      (∀ i (h : i < bytes.length), m.readByte i = bytes[i]) ∧
      (rdBit ⟨0, 0, bytes.length, m⟩).1 = (match bytes with | [] => false | b :: _ => b.getLsbD 0) ∧
      ∀ u v : State, step u = .next v → (∀ bs more, u.port ≠ .resetRdu bs :: more) →
        v.rdu.rlen = u.rdu.rlen ∧ v.rdu.rmem = u.rdu.rmem

/-- 70_reset section 1. A reset of WRU sets `WCUR`, `WCNT`, `WLEN`, `WACC` and `WFIN` to 0 and empties `WMEM`; the
first `WrBit` after it writes global position 0 (R272). The other unit stays as it is (R270). That there is no
response, and that the responses given, `ROUND_TIES` and the counter of free values stay, is the model's inference
(log 17, DEDUCED). -/
def Obligations.WruResetClearsTheStream : Prop :=
  ∀ (s : State) (rest : List HostEvent), s.port = .resetWru :: rest →
    ∃ t, step s = .next t ∧ t = { s with wru := t.wru, port := rest } ∧
      t.wru.wcur = 0 ∧ t.wru.wcnt = 0 ∧ t.wru.wlen = 0 ∧ t.wru.wacc = 0 ∧ t.wru.wfin = false ∧
      (∀ a, t.wru.wmem.readByte a = 0) ∧ t.wru.bytes = [] ∧
      ∀ b, (wrBit b t.wru).wireBit 0 = b

/-- 10_state R34: the registers of a new stream (the reset values the spec gives). -/
def Obligations.ResetStateIsANewStream : Prop :=
  State.reset.rdu.rcur = 0 ∧ State.reset.rdu.rcnt = 0 ∧
  State.reset.wru.wcur = 0 ∧ State.reset.wru.wcnt = 0 ∧ State.reset.wru.wlen = 0 ∧ State.reset.wru.bytes = [] ∧
  State.reset.wru.wacc = 0x00 ∧ State.reset.wru.wfin = false

/-! ### Reader: bits and integers -/

/-- 40 R110, R111 and 20_memory R54, R55, R56: `RD_BIT` and `RD_BOOL` return bit `RCUR mod 8` of byte `RCUR div 8`, 0
beyond the end, and advance `RCUR` by 1 in both cases; only `RD_BOOL` counts the bit. -/
def Obligations.BitReadsReturnTheBitAtTheCursor : Prop :=
  EncodedN 0x00000000 .rdBit ∧ EncodedN 0x00000001 .rdBool ∧
  ∀ s : State,
    let bit := if s.rdu.rcur / 8 < s.rdu.rlen
      then (s.rdu.rmem.readByte (s.rdu.rcur / 8)).getLsbD (s.rdu.rcur % 8) else false
    let res : Word := if bit then 1 else 0
    exec .rdBit s = .next ({ s with rdu := { s.rdu with rcur := s.rdu.rcur + 1 } }.responded 0 res) ∧
    exec .rdBool s = .next
      ({ s with rdu := { s.rdu with rcur := s.rdu.rcur + 1, rcnt := s.rdu.rcnt + 1 } }.responded 0 res)

/-- 40 R112 to R118: the five unsigned fixed-width reads. With `1 <= w <= T` bit `i` of the result is the wire's bit
`RCUR + i` for `i < w` and 0 above, `RCUR` and `RCNT` grow by `w`; with another `w` the answer is `InvalidFieldWidth`
(1) and no unit changes. -/
def Obligations.FixedWidthReadsReturnTheField : Prop :=
  ∀ form ∈ [((0x02 : CommandWord), Instr.rdByte, 8), (0x03, Instr.rdShort, 16), (0x04, Instr.rdInt, 32),
      (0x05, Instr.rdLong, 64), (0x06, Instr.rdPint, 31)],
    EncodedW form.1 form.2.1 ∧
    ∀ (w : Int) (s : State),
      (1 ≤ w ∧ w ≤ (form.2.2 : Nat) → ∃ res : Word,
        exec (form.2.1 w) s = .next ({ s with rdu := { s.rdu with
          rcur := s.rdu.rcur + w.toNat, rcnt := s.rdu.rcnt + w.toNat } }.responded 0 res) ∧
        ∀ i, res.getLsbD i = (decide (i < w.toNat) && s.rdu.memRead (s.rdu.rcur + i))) ∧
      (w < 1 ∨ (form.2.2 : Nat) < w → exec (form.2.1 w) s = .next (s.responded 1 0))

/-- 40 R119: `RD_SINT`. Bits 0 to `w - 1` are the wire's; with `s = 1` one further bit of the wire is bit 31, whatever
stood there; the rest is 0: no sign extension. `RCUR` grows by `w + s`, `RCNT` by `w`. -/
def Obligations.SignedReadPlacesTheSignBitLast : Prop :=
  EncodedWS 0x07 Instr.rdSint ∧
  ∀ (w : Int) (signed : Bool) (s : State),
    (1 ≤ w ∧ w ≤ 32 → ∃ res : Word,
      exec (.rdSint w signed) s = .next ({ s with rdu := { s.rdu with
        rcur := s.rdu.rcur + w.toNat + signed.toNat, rcnt := s.rdu.rcnt + w.toNat } }.responded 0 res) ∧
      ∀ i, res.getLsbD i =
        if i = 31 ∧ signed = true then s.rdu.memRead (s.rdu.rcur + w.toNat)
        else (decide (i < w.toNat) && s.rdu.memRead (s.rdu.rcur + i))) ∧
    (w < 1 ∨ 32 < w → exec (.rdSint w signed) s = .next (s.responded 1 0))

/-- 40 R120: `RD_STAT` returns `RCUR`, `RCNT` or `RLEN` (modulo `2^64`: the model's choice, log 4, of the two
30_encoding R85 allows), another number is illegal; nothing but the response is written. -/
def Obligations.ReaderStatusReads : Prop :=
  EncodedW 0x0C Instr.rdStat ∧
  ∀ s : State,
    exec (.rdStat 0) s = .next (s.responded 0 (BitVec.ofNat 64 s.rdu.rcur)) ∧
    exec (.rdStat 1) s = .next (s.responded 0 (BitVec.ofNat 64 s.rdu.rcnt)) ∧
    exec (.rdStat 2) s = .next (s.responded 0 (BitVec.ofNat 64 s.rdu.rlen)) ∧
    ∀ n : Int, n < 0 ∨ 2 < n → exec (.rdStat n) s = .next (s.responded 6 0)

/-- 40 R121, which the spec marks as derived: `RD_SINT w, s=0` is `RD_INT w`, also where it fails; `RD_BOOL` differs
from `RD_BIT` in `RCNT` only; `RD_PINT w` differs from `RD_INT w` at `w = 32` only; the byte, short, int and long
reads agree where all four succeed. -/
def Obligations.IntegerReadsAgree : Prop :=
  ∀ s : State,
    (∀ w, exec (.rdSint w false) s = exec (.rdInt w) s) ∧
    (∃ t, exec .rdBit s = .next t ∧
      exec .rdBool s = .next { t with rdu := { t.rdu with rcnt := t.rdu.rcnt + 1 } }) ∧
    (∀ w : Int, w ≠ 32 → exec (.rdPint w) s = exec (.rdInt w) s) ∧
    exec (.rdPint 32) s = .next (s.responded 1 0) ∧
    (∃ t, exec (.rdInt 32) s = .next t ∧ ∃ res, t.responses = ⟨0, res⟩ :: s.responses) ∧
    ∀ w : Int, 1 ≤ w → w ≤ 8 →
      exec (.rdByte w) s = exec (.rdShort w) s ∧ exec (.rdShort w) s = exec (.rdInt w) s ∧
      exec (.rdInt w) s = exec (.rdLong w) s

/-- 40 R122, which the spec marks as derived: a read of `w1` bits and then of `w2` bits gives `x` and `y` with `x + y
* 2^w1` what one read of `w1 + w2` bits gives, and leaves the same reader. -/
def Obligations.ReadsOfAdjacentFieldsJoin : Prop :=
  ∀ form ∈ [(Instr.rdByte, 8), (Instr.rdShort, 16), (Instr.rdInt, 32), (Instr.rdLong, 64), (Instr.rdPint, 31)],
    ∀ (w1 w2 : Int) (s : State), 1 ≤ w1 → 1 ≤ w2 → w1 + w2 ≤ (form.2 : Nat) →
      ∃ t u v x y z,
        exec (form.1 w1) s = .next t ∧ t.responses = ⟨0, x⟩ :: s.responses ∧
        exec (form.1 w2) t = .next u ∧ u.responses = ⟨0, y⟩ :: t.responses ∧
        exec (form.1 (w1 + w2)) s = .next v ∧ v.responses = ⟨0, z⟩ :: s.responses ∧
        x.toNat + y.toNat * 2 ^ w1.toNat = z.toNat ∧ u.rdu = v.rdu

/-! ### Reader: floats, variable-length integers, decimals -/

/-- 41 R131, R132, with the layout of R130: the sign first, to the top bit; then `e` bits, to bit 52 (23) upward; then
`m` bits, to bit 0 upward; the rest 0. `RCUR` grows by `s + e + m`, `RCNT` by `e + m`. Out of range the answer is
`InvalidFieldWidth` (1). -/
def Obligations.FloatReadsPlaceSignExponentMantissa : Prop :=
  ∀ form ∈ [((0x08 : CommandWord), Instr.rdFloat, 8, 23, 31), (0x09, Instr.rdDouble, 11, 52, 63)],
    EncodedF form.1 form.2.1 ∧
    ∀ (e m : Int) (signed : Bool) (s : State),
      let eMax : Nat := form.2.2.1
      let mMax : Nat := form.2.2.2.1
      let top : Nat := form.2.2.2.2
      (1 ≤ e ∧ e ≤ eMax ∧ 1 ≤ m ∧ m ≤ mMax → ∃ res : Word,
        exec (form.2.1 e m signed) s = .next ({ s with rdu := { s.rdu with
          rcur := s.rdu.rcur + signed.toNat + e.toNat + m.toNat,
          rcnt := s.rdu.rcnt + e.toNat + m.toNat } }.responded 0 res) ∧
        ∀ i, res.getLsbD i =
          if i < m.toNat then s.rdu.memRead (s.rdu.rcur + signed.toNat + e.toNat + i)
          else if mMax ≤ i ∧ i < mMax + e.toNat then s.rdu.memRead (s.rdu.rcur + signed.toNat + (i - mMax))
          else if i = top then (signed && s.rdu.memRead s.rdu.rcur)
          else false) ∧
      (e < 1 ∨ eMax < e ∨ m < 1 ∨ mMax < m → exec (form.2.1 e m signed) s = .next (s.responded 1 0))

/-- 42 R141, R142, R144: `RD_VARINT` reads `n >= 1` groups; the continuation bit of each is 1 but of the last, which
is 0; bit `p` of the result is bit `p mod g` of group `p div g`, bits at positions of 64 and above are dropped; `RCUR`
grows by `n * (g + 1)`, `RCNT` by `n * g`. Out of range the answer is `InvalidGroupSize` (2). -/
def Obligations.VarintReadStopsAtTheFirstZeroFlag : Prop :=
  EncodedW 0x0A Instr.rdVarint ∧
  ∀ (g : Int) (s : State),
    (1 ≤ g ∧ g ≤ 64 → ∃ (n : Nat) (res : Word), 1 ≤ n ∧
      exec (.rdVarint g) s = .next ({ s with rdu := { s.rdu with
        rcur := s.rdu.rcur + n * (g.toNat + 1), rcnt := s.rdu.rcnt + n * g.toNat } }.responded 0 res) ∧
      (∀ j, j < n → s.rdu.memRead (s.rdu.rcur + j * (g.toNat + 1) + g.toNat) = decide (j + 1 < n)) ∧
      ∀ p, p < 64 → res.getLsbD p = (decide (p < n * g.toNat) &&
        s.rdu.memRead (s.rdu.rcur + p / g.toNat * (g.toNat + 1) + p % g.toNat))) ∧
    (g < 1 ∨ 64 < g → exec (.rdVarint g) s = .next (s.responded 2 0))

/-- 42 R143, whose bound the spec marks as derived: `RD_VARINT` always ends, and reads at most `max(1, ceil((8 * RLEN
- RCUR + 1) / (g + 1)))` groups. -/
def Obligations.VarintReadEndsWithTheBuffer : Prop :=
  ∀ (g : Int) (s : State), 1 ≤ g → g ≤ 64 →
    ∃ t n, exec (.rdVarint g) s = .next t ∧ t.rdu.rcur = s.rdu.rcur + n * (g.toNat + 1) ∧
      ((n : Int) ≤ max 1 ⌈((8 * s.rdu.rlen : ℚ) - s.rdu.rcur + 1) / (g.toNat + 1)⌉)

/-- 43 R151, R153: `RD_DEC` reads the sign bit, `a = BitsNeeded(M)` bits of the integral part and `b =
BitsNeeded(10^d)` bits of the scaled decimal part, and returns what `DecCombine` makes of them; `RCUR` grows by `1 + a
+ b`, `RCNT` by `a + b`. `M <= 0`, `d < 0` or `d > 18` is answered `InvalidRange` (4). -/
def Obligations.DecimalReadCombinesItsParts : Prop :=
  EncodedW 0x0B Instr.rdDec ∧
  ∀ (d : Int) (s : State),
    let a := bitsNeeded s.opd2.toInt
    let b := bitsNeeded (10 ^ d.toNat)
    (0 < s.opd2.toInt ∧ 0 ≤ d ∧ d ≤ 18 → ∃ ip sd : Nat,
      exec (.rdDec d) s = .next ({ s with rdu := { s.rdu with
        rcur := s.rdu.rcur + 1 + a + b, rcnt := s.rdu.rcnt + a + b } }.responded 0
          (decCombine (s.rdu.memRead s.rdu.rcur) ip sd d.toNat)) ∧
      (∀ i, ip.testBit i = (decide (i < a) && s.rdu.memRead (s.rdu.rcur + 1 + i))) ∧
      ∀ i, sd.testBit i = (decide (i < b) && s.rdu.memRead (s.rdu.rcur + 1 + a + i))) ∧
    (s.opd2.toInt ≤ 0 ∨ d < 0 ∨ 18 < d → exec (.rdDec d) s = .next (s.responded 4 0))

/-- 00_scope R13, as the model computes it (log 7): `f64(x)` is the pattern nearest `x`, ties to even; and `fromint`,
`fmul`, `fdiv`, `fadd` are the exact operations rounded so. Said for the values the decimal commands meet: not
negative and below `2^1023`. -/
def Obligations.BinaryOperationsRoundToNearestEven : Prop :=
  (∀ num den : Nat, 0 < den → num < den * 2 ^ 1023 → IsNearestEven ((num : ℚ) / den) (f64 num den)) ∧
  (∀ n : Nat, n < 2 ^ 1023 → IsNearestEven n (fromint n)) ∧
  ∀ p q : Word, F64Finite p → F64Finite q → p.getLsbD 63 = false → q.getLsbD 63 = false →
    (f64Real p * f64Real q < 2 ^ 1023 → IsNearestEven (f64Real p * f64Real q) (fmul p q)) ∧
    (f64Real q ≠ 0 → f64Real p / f64Real q < 2 ^ 1023 → IsNearestEven (f64Real p / f64Real q) (fdiv p q)) ∧
    (f64Real p + f64Real q < 2 ^ 1023 → IsNearestEven (f64Real p + f64Real q) (fadd p q))

/-- 43 R152, as the model computes it (log 7): `DecCombine` adds the rounded integral part and the rounded quotient,
and sets the sign: `10^d` is exact, each of the three operations rounds once, and the sum is finite and not negative.
-/
def Obligations.DecCombineFollowsItsFormula : Prop :=
  ∀ (sg : Bool) (ip sd d : Nat), ip < 2 ^ 63 → sd < 2 ^ 60 → d ≤ 18 →
    ∃ t1 u v t2 t3 : Word,
      IsNearestEven ip t1 ∧ IsNearestEven sd u ∧ F64Finite v ∧ v.getLsbD 63 = false ∧ f64Real v = 10 ^ d ∧
      IsNearestEven (f64Real u / f64Real v) t2 ∧ IsNearestEven (f64Real t1 + f64Real t2) t3 ∧
      ∀ i, i < 64 → (decCombine sg ip sd d).getLsbD i = if i = 63 then sg else t3.getLsbD i

/-- 47 R201, as the model computes it (log 7): `DecSplit` of a finite pattern. The sign bit is `x < 0` (0 for negative
zero), the integral part the floor of `|x|`, the scaled decimal part the rounding, under `ROUND_TIES`, of one rounded
product of the exact fraction and `10^d`. -/
def Obligations.DecSplitFollowsItsFormula : Prop :=
  ∀ (ties : Config.RoundTies) (p : Word) (d : Nat), F64Finite p → d ≤ 18 →
    let x := f64Real p
    let parts := decSplit ties p d
    (parts.sg = true ↔ x < 0) ∧ (parts.ip : Int) = ⌊|x|⌋ ∧
    ∃ pr : Word, IsNearestEven ((|x| - ⌊|x|⌋) * 10 ^ d) pr ∧ IsRounded ties (f64Real pr) parts.sd

/-- 47 R202 (b), which the spec marks as derived: the scaled decimal part is at most `10^d`, and `10^d` fits its
field. -/
def Obligations.ScaledDecimalPartFitsItsField : Prop :=
  ∀ (ties : Config.RoundTies) (p : Word) (d : Nat), F64Finite p → d ≤ 18 →
    (decSplit ties p d).sd ≤ 10 ^ d ∧ 10 ^ d < 2 ^ bitsNeeded (10 ^ d)

/-! ### Writer -/

/-- 44 R160, R161, 20_memory R58: `WR_BIT` and `WR_BOOL` put `OPD[0]` on the wire; only `WR_BOOL` counts it; `RES` is
0. After finalization the answer is `Finalized` (5). That a next state comes is said of every writer, what stands on
the wire of a writer that meets its invariant. -/
def Obligations.BitWritesAppendOneBit : Prop :=
  EncodedN 0x40 .wrBit ∧ EncodedN 0x41 .wrBool ∧
  ∀ form ∈ [(Instr.wrBit, 0), (Instr.wrBool, 1)], ∀ s : State,
    (s.wru.wfin = false → ∃ u : Wru,
      exec form.1 s = .next ({ s with wru := u }.responded 0 0) ∧
      u.wcur = s.wru.wcur + 1 ∧ u.wcnt = s.wru.wcnt + form.2 ∧
      (WruInv s.wru → AppendsBits 1 (fun _ => s.opd.getLsbD 0) s.wru u)) ∧
    (s.wru.wfin = true → exec form.1 s = .next (s.responded 5 0))

/-- 44 R162 to R167: the four unsigned fixed-width writes put bits 0 to `w - 1` of `OPD` on the wire, least
significant first, and drop the others; `WCUR` and `WCNT` grow by `w`. After finalization the answer is `Finalized`
(5), before it, with `w` out of range, `InvalidFieldWidth` (1). -/
def Obligations.FixedWidthWritesAppendTheField : Prop :=
  ∀ form ∈ [((0x42 : CommandWord), Instr.wrByte, 8), (0x43, Instr.wrShort, 16), (0x44, Instr.wrInt, 32),
      (0x45, Instr.wrLong, 64)],
    EncodedW form.1 form.2.1 ∧
    ∀ (w : Int) (s : State),
      (s.wru.wfin = false ∧ 1 ≤ w ∧ w ≤ (form.2.2 : Nat) → ∃ u : Wru,
        exec (form.2.1 w) s = .next ({ s with wru := u }.responded 0 0) ∧
        u.wcur = s.wru.wcur + w.toNat ∧ u.wcnt = s.wru.wcnt + w.toNat ∧
        (WruInv s.wru → AppendsBits w.toNat (fun i => s.opd.getLsbD i) s.wru u)) ∧
      (s.wru.wfin = false ∧ (w < 1 ∨ (form.2.2 : Nat) < w) → exec (form.2.1 w) s = .next (s.responded 1 0)) ∧
      (s.wru.wfin = true → exec (form.2.1 w) s = .next (s.responded 5 0))

/-- 44 R168: `WR_PINT`, with the order of its errors: `Finalized` (5), the width (1), a negative value (3). -/
def Obligations.PositiveOnlyWriteRefusesNegativeValues : Prop :=
  EncodedW 0x46 Instr.wrPint ∧
  ∀ (w : Int) (s : State),
    (s.wru.wfin = false ∧ 1 ≤ w ∧ w ≤ 31 ∧ s.opd.getLsbD 31 = false → ∃ u : Wru,
      exec (.wrPint w) s = .next ({ s with wru := u }.responded 0 0) ∧
      u.wcur = s.wru.wcur + w.toNat ∧ u.wcnt = s.wru.wcnt + w.toNat ∧
      (WruInv s.wru → AppendsBits w.toNat (fun i => s.opd.getLsbD i) s.wru u)) ∧
    (s.wru.wfin = false ∧ 1 ≤ w ∧ w ≤ 31 ∧ s.opd.getLsbD 31 = true →
      exec (.wrPint w) s = .next (s.responded 3 0)) ∧
    (s.wru.wfin = false ∧ (w < 1 ∨ 31 < w) → exec (.wrPint w) s = .next (s.responded 1 0)) ∧
    (s.wru.wfin = true → exec (.wrPint w) s = .next (s.responded 5 0))

/-- 44 R169: `WR_SINT` puts bits 0 to `w - 1` of the pattern on the wire, then bit 31 when `s = 1`; `WCUR` grows by `w
+ s`, `WCNT` by `w`. -/
def Obligations.SignedWriteAppendsTheSignBitLast : Prop :=
  EncodedWS 0x47 Instr.wrSint ∧
  ∀ (w : Int) (signed : Bool) (s : State),
    (s.wru.wfin = false ∧ 1 ≤ w ∧ w ≤ 32 → ∃ u : Wru,
      exec (.wrSint w signed) s = .next ({ s with wru := u }.responded 0 0) ∧
      u.wcur = s.wru.wcur + w.toNat + signed.toNat ∧ u.wcnt = s.wru.wcnt + w.toNat ∧
      (WruInv s.wru → AppendsBits (w.toNat + signed.toNat)
        (fun i => if i < w.toNat then s.opd.getLsbD i else s.opd.getLsbD 31) s.wru u)) ∧
    (s.wru.wfin = false ∧ (w < 1 ∨ 32 < w) → exec (.wrSint w signed) s = .next (s.responded 1 0)) ∧
    (s.wru.wfin = true → exec (.wrSint w signed) s = .next (s.responded 5 0))

/-- 44 R170: `WR_STAT` returns `WCUR`, `WCNT`, `WLEN` (modulo `2^64`: log 4) or `WFIN`, before and after finalization;
another number is illegal; nothing but the response is written. -/
def Obligations.WriterStatusReads : Prop :=
  EncodedW 0x4D Instr.wrStat ∧
  ∀ s : State,
    exec (.wrStat 0) s = .next (s.responded 0 (BitVec.ofNat 64 s.wru.wcur)) ∧
    exec (.wrStat 1) s = .next (s.responded 0 (BitVec.ofNat 64 s.wru.wcnt)) ∧
    exec (.wrStat 2) s = .next (s.responded 0 (BitVec.ofNat 64 s.wru.wlen)) ∧
    exec (.wrStat 3) s = .next (s.responded 0 (if s.wru.wfin then 1 else 0)) ∧
    ∀ n : Int, n < 0 ∨ 3 < n → exec (.wrStat n) s = .next (s.responded 6 0)

/-- 45 R180, R181: the float writes put the sign (with `s = 1`), then the low `e` bits of the exponent field, then the
low `m` bits of the mantissa field of the pattern in `OPD` on the wire. -/
def Obligations.FloatWritesAppendSignExponentMantissa : Prop :=
  ∀ form ∈ [((0x48 : CommandWord), Instr.wrFloat, 8, 23, 31), (0x49, Instr.wrDouble, 11, 52, 63)],
    EncodedF form.1 form.2.1 ∧
    ∀ (e m : Int) (signed : Bool) (s : State),
      let eMax : Nat := form.2.2.1
      let mMax : Nat := form.2.2.2.1
      let top : Nat := form.2.2.2.2
      (s.wru.wfin = false ∧ 1 ≤ e ∧ e ≤ eMax ∧ 1 ≤ m ∧ m ≤ mMax → ∃ u : Wru,
        exec (form.2.1 e m signed) s = .next ({ s with wru := u }.responded 0 0) ∧
        u.wcur = s.wru.wcur + signed.toNat + e.toNat + m.toNat ∧ u.wcnt = s.wru.wcnt + e.toNat + m.toNat ∧
        (WruInv s.wru → AppendsBits (signed.toNat + e.toNat + m.toNat)
          (fun i =>
            if i < signed.toNat then s.opd.getLsbD top
            else if i < signed.toNat + e.toNat then s.opd.getLsbD (mMax + (i - signed.toNat))
            else s.opd.getLsbD (i - signed.toNat - e.toNat)) s.wru u)) ∧
      (s.wru.wfin = false ∧ (e < 1 ∨ eMax < e ∨ m < 1 ∨ mMax < m) →
        exec (form.2.1 e m signed) s = .next (s.responded 1 0)) ∧
      (s.wru.wfin = true → exec (form.2.1 e m signed) s = .next (s.responded 5 0))

/-- 46 R190, R192, R194: `WR_VARINT` of `V` puts `n >= 1` groups of `g` bits on the wire, each followed by a
continuation bit, which is 1 while bits of `V` above the group are left and 0 after the last group; `WCUR` grows by `n
* (g + 1)`, `WCNT` by `n * g`. -/
def Obligations.VarintWriteAppendsGroupsAndFlags : Prop :=
  EncodedW 0x4A Instr.wrVarint ∧
  ∀ (g : Int) (s : State),
    let V := s.opd.toNat
    (s.wru.wfin = false ∧ 1 ≤ g ∧ g ≤ 64 → ∃ (n : Nat) (u : Wru),
      1 ≤ n ∧ (∀ j, j < n → (V / 2 ^ ((j + 1) * g.toNat) ≠ 0 ↔ j + 1 < n)) ∧
      exec (.wrVarint g) s = .next ({ s with wru := u }.responded 0 0) ∧
      u.wcur = s.wru.wcur + n * (g.toNat + 1) ∧ u.wcnt = s.wru.wcnt + n * g.toNat ∧
      (WruInv s.wru → AppendsBits (n * (g.toNat + 1))
        (fun i =>
          if i % (g.toNat + 1) < g.toNat then V.testBit (i / (g.toNat + 1) * g.toNat + i % (g.toNat + 1))
          else decide (i / (g.toNat + 1) + 1 < n)) s.wru u)) ∧
    (s.wru.wfin = false ∧ (g < 1 ∨ 64 < g) → exec (.wrVarint g) s = .next (s.responded 2 0)) ∧
    (s.wru.wfin = true → exec (.wrVarint g) s = .next (s.responded 5 0))

/-- The number of groups in closed form, which 46 R191 marks as derived from R190: `WR_VARINT` writes `max(1, ceil(L /
g))` groups, `L` the bit length of `V`, and at most `ceil(64 / g)`, which every `V` with bit 63 set needs. -/
def Obligations.VarintWriteGroupCount : Prop :=
  ∀ (g : Int) (s : State), 1 ≤ g → g ≤ 64 → s.wru.wfin = false →
    ∃ (n : Nat) (u : Wru),
      exec (.wrVarint g) s = .next ({ s with wru := u }.responded 0 0) ∧
      u.wcur = s.wru.wcur + n * (g.toNat + 1) ∧
      n = max 1 ((s.opd.toNat.size + g.toNat - 1) / g.toNat) ∧
      n ≤ (64 + g.toNat - 1) / g.toNat ∧
      (s.opd.getLsbD 63 = true → n = (64 + g.toNat - 1) / g.toNat)

/-- 47 R200, R203: `WR_DEC` puts the sign bit, the low `a` bits of the integral part and the low `b` bits of the
scaled decimal part on the wire, with the parts `DecSplit` gives a finite operand. For an infinity or a NaN the sign
bit is 1 for negative infinity only, and of the `a + b` field bits nothing is said, nor of the model's counter of free
values (log 6). `WCUR` grows by `1 + a + b`, `WCNT` by `a + b`. -/
def Obligations.DecimalWriteAppendsItsParts : Prop :=
  EncodedW 0x4B Instr.wrDec ∧
  ∀ (d : Int) (s : State),
    let a := bitsNeeded s.opd2.toInt
    let b := bitsNeeded (10 ^ d.toNat)
    (s.wru.wfin = false ∧ 0 < s.opd2.toInt ∧ 0 ≤ d ∧ d ≤ 18 → ∃ (parts : DecimalParts) (u : Wru) (k : Nat),
      exec (.wrDec d) s = .next ({ s with wru := u, freeCount := k }.responded 0 0) ∧
      u.wcur = s.wru.wcur + 1 + a + b ∧ u.wcnt = s.wru.wcnt + a + b ∧
      (WruInv s.wru → AppendsBits (1 + a + b)
        (fun i =>
          if i = 0 then parts.sg else if i < 1 + a then parts.ip.testBit (i - 1)
          else parts.sd.testBit (i - 1 - a)) s.wru u) ∧
      (F64Finite s.opd → parts = decSplit s.roundTies s.opd d.toNat ∧ k = s.freeCount) ∧
      (¬F64Finite s.opd → (parts.sg = true ↔ s.opd = 0xFFF0000000000000))) ∧
    (s.wru.wfin = false ∧ (s.opd2.toInt ≤ 0 ∨ d < 0 ∨ 18 < d) → exec (.wrDec d) s = .next (s.responded 4 0)) ∧
    (s.wru.wfin = true → exec (.wrDec d) s = .next (s.responded 5 0))

/-- 48 R210, R211, R212: the first `WR_PACK` appends the partial byte, if there is one, clears `WACC` and sets `WFIN`,
so that `WLEN = ceil(WCUR / 8)`, every bit written stands in `WMEM` and the bits of the last byte above them are 0; a
later one changes nothing. `RES` is `WLEN` after it (modulo `2^64`: the model's choice, log 4); `WCUR` and `WCNT` do
not change. -/
def Obligations.PackFlushesOnceAndFinalizes : Prop :=
  EncodedN 0x4C .wrPack ∧
  ∀ s : State,
    (s.wru.wfin = false → ∃ m : Memory, ∃ n : Nat,
      exec .wrPack s = .next ({ s with wru := ⟨s.wru.wcur, s.wru.wcnt, n, m,
        if s.wru.wcur % 8 = 0 then s.wru.wacc else 0, true⟩ }.responded 0 (BitVec.ofNat 64 n)) ∧
      n = s.wru.wlen + (if s.wru.wcur % 8 = 0 then 0 else 1) ∧
      (s.wru.wcur % 8 = 0 → m = s.wru.wmem) ∧
      (s.wru.wcur % 8 ≠ 0 → s.wru.wmem.wf = true →
        ∀ a, m.readByte a = if a = s.wru.wlen then s.wru.wacc else s.wru.wmem.readByte a) ∧
      (WruInv s.wru →
        n = (s.wru.wcur + 7) / 8 ∧
        (∀ p, p < s.wru.wcur → (m.readByte (p / 8)).getLsbD (p % 8) = s.wru.wireBit p) ∧
        ∀ p, s.wru.wcur ≤ p → p < 8 * n → (m.readByte (p / 8)).getLsbD (p % 8) = false)) ∧
    (s.wru.wfin = true → exec .wrPack s = .next (s.responded 0 (BitVec.ofNat 64 s.wru.wlen)))

/-! ### The bit-twiddling leaf -/

/-- 49 R220 to R224 and R232: `TW_GETBITn` returns bit `pos` of `OPD[n-1:0]`; outside `0` to `n - 1` the answer is
`InvalidBitPosition` (7). Nothing but the response is written. -/
def Obligations.GetBitReturnsTheBit : Prop :=
  ∀ form ∈ [((0x80 : CommandWord), Instr.twGetbit8, 8), (0x81, Instr.twGetbit16, 16), (0x82, Instr.twGetbit32, 32),
      (0x83, Instr.twGetbit64, 64)],
    EncodedW form.1 form.2.1 ∧
    ∀ (pos : Int) (s : State),
      (0 ≤ pos ∧ pos ≤ (form.2.2 : Nat) - 1 →
        exec (form.2.1 pos) s = .next (s.responded 0 (if s.opd.getLsbD pos.toNat then 1 else 0))) ∧
      (pos < 0 ∨ (form.2.2 : Nat) - 1 < pos → exec (form.2.1 pos) s = .next (s.responded 7 0))

/-- 49 R225 to R229 and R232: `TW_SETBITn` returns `OPD[n-1:0]` with bit `pos` set to `flag` and every other bit
unchanged, zero-extended; outside `0` to `n - 1` the answer is `InvalidBitPosition` (7). -/
def Obligations.SetBitSetsOneBit : Prop :=
  ∀ form ∈ [((0x84 : CommandWord), Instr.twSetbit8, 8), (0x85, Instr.twSetbit16, 16), (0x86, Instr.twSetbit32, 32),
      (0x87, Instr.twSetbit64, 64)],
    EncodedWS form.1 form.2.1 ∧
    ∀ (pos : Int) (flag : Bool) (s : State),
      (0 ≤ pos ∧ pos ≤ (form.2.2 : Nat) - 1 → ∃ res : Word,
        exec (form.2.1 pos flag) s = .next (s.responded 0 res) ∧
        ∀ i, res.getLsbD i = if i = pos.toNat then flag else (decide (i < form.2.2) && s.opd.getLsbD i)) ∧
      (pos < 0 ∨ (form.2.2 : Nat) - 1 < pos → exec (form.2.1 pos flag) s = .next (s.responded 7 0))

/-- The laws of 49 R225, which the spec marks as derived: what is set is read back, another position is not touched,
and setting a bit to what it is changes nothing. -/
def Obligations.SetBitAndGetBitLaws : Prop :=
  ∀ (n : Nat) (v : BitVec n) (p q : Nat) (f : Bool), p < n → q < n →
    getBit (setBit v p f) p = f ∧ (q ≠ p → getBit (setBit v p f) q = getBit v q) ∧ setBit v p (getBit v p) = v

/-- 49 R230, R231: `TW_BITSNEEDED` returns the least `b >= 1` with `2^b >= r`, `r = sint_64(OPD)`, from 1 to 63. -/
def Obligations.BitsNeededReturnsTheLeastWidth : Prop :=
  EncodedN 0x88 .twBitsneeded ∧
  ∀ s : State, ∃ b : Nat,
    exec .twBitsneeded s = .next (s.responded 0 (BitVec.ofNat 64 b)) ∧ 1 ≤ b ∧ b ≤ 63 ∧
    s.opd.toInt ≤ 2 ^ b ∧ ∀ c : Nat, 1 ≤ c → s.opd.toInt ≤ 2 ^ c → b ≤ c

/-! ### Errors -/

/-- 60_exceptions R241 to R249: the status of every command is the first error that holds, in the order
`IllegalCommand`, `Finalized`, the argument-range error, `NegativeValue`; each error comes from the commands and
causes its rule lists and no others; without one the status is `OK`. -/
def Obligations.StatusIsTheFirstErrorInPriorityOrder : Prop :=
  ∀ (i : Instr) (s : State), ∃ t r, exec i s = .next t ∧ t.responses = r :: s.responses ∧
    r.st = statusOf i s.opd s.opd2 s.wru.wfin

/-- 60_exceptions R250: a command that ends with an error, a word that is no command included, leaves every element of
every unit as it was, with `RES = 0`; the status codes are 0 to 7 (R248). -/
def Obligations.ErrorsChangeNoUnit : Prop :=
  (∀ (i : Instr) (s : State), ∃ t st res, exec i s = .next t ∧
    t.responses = ⟨st, res⟩ :: s.responses ∧ st.toNat ≤ 7 ∧ (st ≠ 0 → res = 0 ∧ t = s.responded st 0)) ∧
  ∀ (s : State) (c : Command) (rest : List HostEvent), s.port = .command c :: rest →
    ∃ t st res, step s = .next t ∧
      t.responses = ⟨st, res⟩ :: s.responses ∧ st.toNat ≤ 7 ∧ (st ≠ 0 → res = 0 ∧ t = s.responded st 0)

/-! ### Invariants -/

/-- Every step keeps the block's invariant (10_state R32, R33; 60_exceptions R248): the buffers are canonical and lie
within their lengths, the counters do not exceed the cursors, `WLEN` and `WACC` are as `WCUR` and `WFIN` ask, and
every response given is legal. -/
def Obligations.EveryStepKeepsTheInvariant : Prop :=
  ∀ s t : State, Inv s → step s = .next t → Inv t

/-- The reset state meets the block's invariant. -/
def Obligations.ResetMeetsTheInvariant : Prop := Inv State.reset

/-- 10_state R32, which the spec marks as derived: no command makes `RCUR` or `RCNT` fall or changes `RMEM` or `RLEN`;
`RCNT <= RCUR` stays true; and `RCUR` goes on beyond `8 * RLEN` without bound: a read there advances it too. -/
def Obligations.ReaderInvariantsHold : Prop :=
  (∀ (i : Instr) (s t : State), exec i s = .next t →
    s.rdu.rcur ≤ t.rdu.rcur ∧ s.rdu.rcnt ≤ t.rdu.rcnt ∧ t.rdu.rmem = s.rdu.rmem ∧ t.rdu.rlen = s.rdu.rlen ∧
    (s.rdu.rcnt ≤ s.rdu.rcur → t.rdu.rcnt ≤ t.rdu.rcur)) ∧
  ∀ s : State, 8 * s.rdu.rlen ≤ s.rdu.rcur →
    exec .rdBit s = .next ({ s with rdu := { s.rdu with rcur := s.rdu.rcur + 1 } }.responded 0 0)

/-- 10_state R33, which the spec marks as derived: from a writer that meets its invariant, every command leaves one
that does; `WCUR` and `WCNT` do not fall; every bit written stays where it was written; `WMEM` only grows at its end,
the bytes in it unchanged; `WFIN` only goes from 0 to 1. -/
def Obligations.WriterInvariantsHold : Prop :=
  ∀ (i : Instr) (s t : State), WruInv s.wru → exec i s = .next t →
    WruInv t.wru ∧ s.wru.wcur ≤ t.wru.wcur ∧ s.wru.wcnt ≤ t.wru.wcnt ∧
    (∀ p, p < s.wru.wcur → t.wru.wireBit p = s.wru.wireBit p) ∧
    s.wru.wlen ≤ t.wru.wlen ∧ (∀ a, a < s.wru.wlen → t.wru.wmem.readByte a = s.wru.wmem.readByte a) ∧
    (s.wru.wfin = true → t.wru.wfin = true)

/-! ### Independence of the units -/

/-- 10_state R38: a command to one unit writes only that unit's state, TWU none, and the unit it leaves and its
response are the same in two states that agree on that unit, on the operands and on the model's parameter and counter
of free values. -/
def Obligations.CommandsReadAndWriteOneUnit : Prop :=
  ∀ (i : Instr) (s s' t t' : State), exec i s = .next t → exec i s' = .next t' →
    (unitOf i ≠ .rdu → t.rdu = s.rdu) ∧ (unitOf i ≠ .wru → t.wru = s.wru ∧ t.freeCount = s.freeCount) ∧
    (s.opd = s'.opd → s.opd2 = s'.opd2 → s.roundTies = s'.roundTies → s.freeCount = s'.freeCount →
      (unitOf i = .rdu → s.rdu = s'.rdu → t.rdu = t'.rdu ∧ t.responses.head? = t'.responses.head?) ∧
      (unitOf i = .wru → s.wru = s'.wru → t.wru = t'.wru ∧ t.responses.head? = t'.responses.head?) ∧
      (unitOf i = .twu → t.responses.head? = t'.responses.head?))

/-- 20_memory R65, which the spec marks as derived: commands to two different units commute: in either order the final
state of every unit and both responses are the same (the list of responses has them in the order of the commands). -/
def Obligations.CommandsToDifferentUnitsCommute : Prop :=
  ∀ (s : State) (c d : Command) (rest : List HostEvent) (i j : Instr),
    decode c.cw = .command i → decode d.cw = .command j → unitOf i ≠ unitOf j →
    ∃ r q t u,
      Host.Core.run Sys2Proof.core 2 { s with port := .command c :: .command d :: rest } = .next t ∧
      Host.Core.run Sys2Proof.core 2 { s with port := .command d :: .command c :: rest } = .next u ∧
      t.responses = q :: r :: s.responses ∧ u = { t with responses := r :: q :: s.responses }

/-- The consequence 20_memory R55 marks as derived: no command but `RD_STAT 2` tells a reader's buffer from the same
buffer followed by `k` bytes `0x00`: the response is the same, and so is the reader it leaves, but for `RLEN`. -/
def Obligations.TrailingZeroBytesAreInvisible : Prop :=
  ∀ (i : Instr) (s : State) (k : Nat), RduInv s.rdu → i ≠ .rdStat 2 →
    ∃ t, exec i s = .next t ∧
      exec i { s with rdu := { s.rdu with rlen := s.rdu.rlen + k } } =
        .next { t with rdu := { t.rdu with rlen := t.rdu.rlen + k } }

/-! ### Round trips -/

/-- 46 R193, which the spec marks as derived: a value written with `WR_VARINT g` is read back whole with `RD_VARINT g`
from the packed bytes, at any cursor where the reader stands at the writer's position: exactly the bits written are
read, and `RCNT` grows as `WCNT` did. -/
def Obligations.VarintRoundTrip : Prop :=
  ∀ (g : Int) (s : State) (cnt : Nat), 1 ≤ g → g ≤ 64 → WruInv s.wru → s.wru.wfin = false →
    ∃ t p r,
      exec (.wrVarint g) s = .next t ∧ exec .wrPack t = .next p ∧
      exec (.rdVarint g) { p with rdu :=
        { Rdu.resetWith p.wru.bytes with rcur := s.wru.wcur, rcnt := cnt } } = .next r ∧
      r.responses = ⟨0, s.opd⟩ :: p.responses ∧ r.rdu.rcur = t.wru.wcur ∧
      r.rdu.rcnt + s.wru.wcnt = cnt + t.wru.wcnt

/-- 45 R182, which the spec marks as derived: a pattern written with a float write and read back with its mirror comes
back with its sign (when sent), its low `e` exponent bits and its low `m` mantissa bits, all other bits 0; so it comes
back as it was exactly when its sign is 0 or sent, its exponent field is below `2^e` and its mantissa field below
`2^m`. -/
def Obligations.FloatRoundTrip : Prop :=
  ∀ form ∈ [(Instr.wrFloat, Instr.rdFloat, 8, 23, 31), (Instr.wrDouble, Instr.rdDouble, 11, 52, 63)],
    ∀ (e m : Int) (signed : Bool) (s : State),
      let eMax : Nat := form.2.2.1
      let mMax : Nat := form.2.2.2.1
      let top : Nat := form.2.2.2.2
      let P := s.opd.toNat % 2 ^ (top + 1)
      1 ≤ e → e ≤ eMax → 1 ≤ m → m ≤ mMax → WruInv s.wru → s.wru.wfin = false →
      ∃ t p r res,
        exec (form.1 e m signed) s = .next t ∧ exec .wrPack t = .next p ∧
        exec (form.2.1 e m signed) { p with rdu := { Rdu.resetWith p.wru.bytes with rcur := s.wru.wcur } } = .next r ∧
        r.responses = ⟨0, res⟩ :: p.responses ∧
        (∀ i, res.getLsbD i =
          ((decide (i < m.toNat) || decide (mMax ≤ i ∧ i < mMax + e.toNat) || (decide (i = top) && signed)) &&
            P.testBit i)) ∧
        (res.toNat = P ↔ ((P.testBit top = false ∨ signed = true) ∧
          P / 2 ^ mMax % 2 ^ eMax < 2 ^ e.toNat ∧ P % 2 ^ mMax < 2 ^ m.toNat))

/-- 44 R172, 45 R182, 46 R193, 47 R204, which the spec marks as derived: a writer runs from reset a list of writing
commands, each with arguments that are no error, and `WR_PACK`; a reader is reset with the bytes it leaves and runs
the mirror commands in the same order. Every command ends with `OK`, each result is what the mirror reads back of the
value written, and at the end of the run the reader's cursor and counter are the writer's (R172 says so after each
command; here they are compared at the end only). `ROUND_TIES` has its value in `State.reset`, `half_up` (log 5,
PRESUMED), and a decimal is combined as the model computes it (log 7, PRESUMED). -/
def Obligations.MirrorRunReadsBackWhatWasWritten : Prop :=
  ∀ cmds : List (Instr × Word × Word),
    (∀ c ∈ cmds, isWriting c.1 = true ∧ c.1.WellFormed = true ∧ statusOf c.1 c.2.1 c.2.2 false = 0) →
    ∃ s r : State,
      Host.Core.run Sys2Proof.core (cmds.length + 1)
        { State.reset with port := cmds.map (fun c => issue c.1 c.2.1 c.2.2) ++ [issue .wrPack 0 0] } = .next s ∧
      Host.Core.run Sys2Proof.core (cmds.length + 1)
        { State.reset with port := .resetRdu s.wru.bytes :: cmds.map (fun c => issue (mirror c.1) c.2.1 c.2.2) } =
          .next r ∧
      (∀ x ∈ s.responses, x.st = 0) ∧ r.rdu.rcur = s.wru.wcur ∧ r.rdu.rcnt = s.wru.wcnt ∧
      List.Forall₂ (fun c x => x.st = 0 ∧ ReadsBack .halfUp c.2.1 c.2.2 x.res c.1) cmds r.responses.reverse
end

