-- ==== Sys2Proof/Laws/Bits.lean ====
section
/-! SUPPORT. The functions of the bit-twiddling leaf, bit by bit (spec 49_twiddle R220, R225, R230). -/

namespace Sys2Proof.Machine

theorem getBit_eq_getLsbD {n : Nat} (v : BitVec n) {pos : Nat} (h : pos < n) : getBit v pos = v.getLsbD pos := by
  have hb : ∀ i, (v &&& (1#n <<< pos)).getLsbD i = (decide (i = pos) && v.getLsbD pos) := by
    intro i
    by_cases hi : i = pos
    · subst hi; simp [h]
    · have : ¬(i - pos = 0 ∧ pos ≤ i) := by omega
      by_cases hp : pos ≤ i
      · have : i - pos ≠ 0 := by omega
        simp [hi, BitVec.getLsbD_one, this]
      · simp [hi]; intros; omega
  unfold getBit
  cases hv : v.getLsbD pos
  · have : v &&& (1#n <<< pos) = 0#n := BitVec.eq_of_getLsbD_eq fun i hi => by simp [hb, hv]
    simp [this]
  · simp only [bne_iff_ne, ne_eq]
    intro h0
    have := hb pos
    simp [h0, hv] at this

theorem getLsbD_one_shiftLeft {n : Nat} (pos i : Nat) (h : i < n) :
    (1#n <<< pos).getLsbD i = decide (i = pos) := by
  by_cases hi : i = pos
  · subst hi; simp [h]
  · by_cases hp : pos ≤ i
    · have : i - pos ≠ 0 := by omega
      simp [hi, BitVec.getLsbD_one, this]
    · simp [hi]; omega

theorem getLsbD_setBit {n : Nat} (v : BitVec n) (pos : Nat) (flag : Bool) (i : Nat) (h : i < n) :
    (setBit v pos flag).getLsbD i = if i = pos then flag else v.getLsbD i := by
  unfold setBit
  cases flag
  · rw [if_neg (by simp), BitVec.getLsbD_and, BitVec.getLsbD_not, getLsbD_one_shiftLeft pos i h]
    by_cases hi : i = pos <;> simp [h, hi]
  · rw [if_pos rfl, BitVec.getLsbD_or, getLsbD_one_shiftLeft pos i h]
    by_cases hi : i = pos <;> simp [hi]

/-- What `bitsNeeded` gives: at least 1, enough for `r`, and one less is not enough unless it is 1. -/
theorem bitsNeeded_spec (r : Int) :
    1 ≤ bitsNeeded r ∧ r ≤ 2 ^ bitsNeeded r ∧ (bitsNeeded r ≠ 1 → 2 ^ (bitsNeeded r - 1) < r) := by
  unfold bitsNeeded
  split
  · refine ⟨le_refl _, by simpa, fun h => absurd rfl h⟩
  · obtain ⟨k, rfl⟩ : ∃ k : Nat, r = k + 1 := ⟨r.toNat - 1, by omega⟩
    have hk : k ≠ 0 := by omega
    have e : ((k : Int) + 1).toNat - 1 = k := by omega
    rw [e]
    have h1 : k < 2 ^ (k.log2 + 1) := Nat.lt_log2_self
    have h2 : 2 ^ k.log2 ≤ k := Nat.log2_self_le hk
    refine ⟨by omega, by exact_mod_cast h1, fun _ => ?_⟩
    rw [Nat.add_sub_cancel]
    have : ((2 ^ k.log2 : Nat) : Int) ≤ k := by exact_mod_cast h2
    push_cast at this
    omega

end Sys2Proof.Machine
end

