-- ==== Sys2Proof/Laws/State.lean ====
section
/-! SUPPORT. What each update of the state leaves in each field: one lemma a field, true by `rfl`. -/

namespace Sys2Proof.Machine

/-! ### Rdu.advance, Rdu.count -/

@[simp] theorem Rdu.advance_rcur (u : Rdu) (n : Nat) : (u.advance n).rcur = u.rcur + n := rfl
@[simp] theorem Rdu.advance_rcnt (u : Rdu) (n : Nat) : (u.advance n).rcnt = u.rcnt := rfl
@[simp] theorem Rdu.advance_rlen (u : Rdu) (n : Nat) : (u.advance n).rlen = u.rlen := rfl
@[simp] theorem Rdu.advance_rmem (u : Rdu) (n : Nat) : (u.advance n).rmem = u.rmem := rfl
@[simp] theorem Rdu.count_rcur (u : Rdu) (n : Nat) : (u.count n).rcur = u.rcur := rfl
@[simp] theorem Rdu.count_rcnt (u : Rdu) (n : Nat) : (u.count n).rcnt = u.rcnt + n := rfl
@[simp] theorem Rdu.count_rlen (u : Rdu) (n : Nat) : (u.count n).rlen = u.rlen := rfl
@[simp] theorem Rdu.count_rmem (u : Rdu) (n : Nat) : (u.count n).rmem = u.rmem := rfl

/-! ### Rdu.resetWith -/

@[simp] theorem Rdu.resetWith_rcur (bs : List Byte) : (Rdu.resetWith bs).rcur = 0 := rfl
@[simp] theorem Rdu.resetWith_rcnt (bs : List Byte) : (Rdu.resetWith bs).rcnt = 0 := rfl
@[simp] theorem Rdu.resetWith_rlen (bs : List Byte) : (Rdu.resetWith bs).rlen = bs.length := rfl
@[simp] theorem Rdu.resetWith_rmem (bs : List Byte) : (Rdu.resetWith bs).rmem = Memory.ofBytes 0 bs := rfl

/-! ### Wru.count, Wru.appendByte -/

@[simp] theorem Wru.count_wcur (u : Wru) (n : Nat) : (u.count n).wcur = u.wcur := rfl
@[simp] theorem Wru.count_wcnt (u : Wru) (n : Nat) : (u.count n).wcnt = u.wcnt + n := rfl
@[simp] theorem Wru.count_wlen (u : Wru) (n : Nat) : (u.count n).wlen = u.wlen := rfl
@[simp] theorem Wru.count_wmem (u : Wru) (n : Nat) : (u.count n).wmem = u.wmem := rfl
@[simp] theorem Wru.count_wacc (u : Wru) (n : Nat) : (u.count n).wacc = u.wacc := rfl
@[simp] theorem Wru.count_wfin (u : Wru) (n : Nat) : (u.count n).wfin = u.wfin := rfl
@[simp] theorem Wru.appendByte_wcur (u : Wru) (b : Byte) : (u.appendByte b).wcur = u.wcur := rfl
@[simp] theorem Wru.appendByte_wcnt (u : Wru) (b : Byte) : (u.appendByte b).wcnt = u.wcnt := rfl
@[simp] theorem Wru.appendByte_wlen (u : Wru) (b : Byte) : (u.appendByte b).wlen = u.wlen + 1 := rfl
@[simp] theorem Wru.appendByte_wmem (u : Wru) (b : Byte) :
    (u.appendByte b).wmem = u.wmem.writeByte u.wlen b := rfl
@[simp] theorem Wru.appendByte_wacc (u : Wru) (b : Byte) : (u.appendByte b).wacc = u.wacc := rfl
@[simp] theorem Wru.appendByte_wfin (u : Wru) (b : Byte) : (u.appendByte b).wfin = u.wfin := rfl

/-! ### State.answer, State.withFetchWord -/

@[simp] theorem State.answer_rdu (s : State) (st : BitVec 4) (r : Word) : (s.answer st r).rdu = s.rdu := rfl
@[simp] theorem State.answer_wru (s : State) (st : BitVec 4) (r : Word) : (s.answer st r).wru = s.wru := rfl
@[simp] theorem State.answer_port (s : State) (st : BitVec 4) (r : Word) :
    (s.answer st r).port = s.port.tail := rfl
@[simp] theorem State.answer_responses (s : State) (st : BitVec 4) (r : Word) :
    (s.answer st r).responses = ⟨st, r⟩ :: s.responses := rfl
@[simp] theorem State.answer_roundTies (s : State) (st : BitVec 4) (r : Word) :
    (s.answer st r).roundTies = s.roundTies := rfl
@[simp] theorem State.answer_freeCount (s : State) (st : BitVec 4) (r : Word) :
    (s.answer st r).freeCount = s.freeCount := rfl

@[simp] theorem State.withFetchWord_rdu (s : State) (n w : Nat) : (s.withFetchWord n w).rdu = s.rdu := rfl
@[simp] theorem State.withFetchWord_wru (s : State) (n w : Nat) : (s.withFetchWord n w).wru = s.wru := rfl
@[simp] theorem State.withFetchWord_port (s : State) (n w : Nat) :
    (s.withFetchWord n w).port = .command ⟨BitVec.ofNat 32 (w % 2 ^ n), 0, 0⟩ :: s.port := rfl
@[simp] theorem State.withFetchWord_responses (s : State) (n w : Nat) :
    (s.withFetchWord n w).responses = s.responses := rfl
@[simp] theorem State.withFetchWord_roundTies (s : State) (n w : Nat) :
    (s.withFetchWord n w).roundTies = s.roundTies := rfl
@[simp] theorem State.withFetchWord_freeCount (s : State) (n w : Nat) :
    (s.withFetchWord n w).freeCount = s.freeCount := rfl

/-! ### State.drawFree -/

@[simp] theorem State.drawFree_rdu (s : State) : s.drawFree.rdu = s.rdu := by
  unfold State.drawFree; split <;> rfl
@[simp] theorem State.drawFree_wru (s : State) : s.drawFree.wru = s.wru := by
  unfold State.drawFree; split <;> rfl
@[simp] theorem State.drawFree_port (s : State) : s.drawFree.port = s.port := by
  unfold State.drawFree; split <;> rfl
@[simp] theorem State.drawFree_responses (s : State) : s.drawFree.responses = s.responses := by
  unfold State.drawFree; split <;> rfl
@[simp] theorem State.drawFree_roundTies (s : State) : s.drawFree.roundTies = s.roundTies := by
  unfold State.drawFree; split <;> rfl

end Sys2Proof.Machine
end

