-- ==== Sys2Proof/Laws/Reader.lean ====
section
/-! SUPPORT. What the reader's operations can do, each said once: the field read is the bits of the wire from the
cursor on and moves the cursor past them (spec 00_scope R10); the loop of `RD_VARINT` (42 R141). -/

namespace Sys2Proof.Machine

@[simp] theorem Rdu.advance_memRead (u : Rdu) (n p : Nat) : (u.advance n).memRead p = u.memRead p := rfl
@[simp] theorem Rdu.count_memRead (u : Rdu) (n p : Nat) : (u.count n).memRead p = u.memRead p := rfl

theorem Rdu.advance_advance (u : Rdu) (m n : Nat) : (u.advance m).advance n = u.advance (m + n) := by
  simp [Rdu.advance, Nat.add_assoc]

theorem Rdu.advance_zero (u : Rdu) : u.advance 0 = u := rfl

/-- Beyond the end of the buffer every bit is 0 (20_memory R55). -/
theorem Rdu.memRead_beyond (u : Rdu) {p : Nat} (h : 8 * u.rlen ≤ p) : u.memRead p = false := by
  unfold Rdu.memRead; rw [if_neg (by omega)]

/-- `RdField(n)` moves the cursor by `n` and changes nothing else. -/
theorem rdField_rdu (n : Nat) (u : Rdu) : (rdField n u).2 = u.advance n := by
  induction n generalizing u with
  | zero => rfl
  | succ n ih => simp only [rdField, rdBit, ih, Rdu.advance_advance, Nat.add_comm 1 n]

/-- Bit `i` of what `RdField(n)` reads is the bit of the wire at `RCUR + i`, and 0 from bit `n` on. -/
theorem testBit_rdField (n : Nat) (u : Rdu) (i : Nat) :
    (rdField n u).1.testBit i = (decide (i < n) && u.memRead (u.rcur + i)) := by
  induction n generalizing u i with
  | zero => simp [rdField]
  | succ n ih =>
    simp only [rdField, rdBit]
    cases i with
    | zero => cases h : u.memRead u.rcur <;> simp [Nat.testBit_zero]
    | succ i =>
      have : (Bool.toNat (u.memRead u.rcur) + 2 * (rdField n (u.advance 1)).1) / 2 = (rdField n (u.advance 1)).1 := by
        cases u.memRead u.rcur
        · simp
        · simp; omega
      rw [Nat.testBit_succ, this, ih]
      simp [show u.rcur + 1 + i = u.rcur + (i + 1) by omega]

/-- `RdField(n)` reads a natural number below `2^n` (00_scope R10). -/
theorem rdField_lt (n : Nat) (u : Rdu) : (rdField n u).1 < 2 ^ n := by
  apply Nat.lt_pow_two_of_testBit
  intro i hi
  rw [testBit_rdField]; simp; omega

/-- The optional sign bit: the bit at the cursor, or 0 and no move. -/
theorem rdSign_eq (s : Bool) (u : Rdu) : rdSign s u = (s && u.memRead u.rcur, u.advance s.toNat) := by
  cases s <;> rfl

/-- One turn of the loop of `RD_VARINT`, on the wire. -/
theorem rdGroup_eq (g k : Nat) (r : VarintRead) :
    rdGroup g k r = (r.rdu.memRead (r.rdu.rcur + g),
      ⟨r.acc ||| BitVec.ofNat 64 (rdField g r.rdu).1 <<< k, r.groups + 1, r.rdu.advance (g + 1)⟩) := by
  simp only [rdGroup, rdBit, rdField_rdu, Rdu.advance_advance, Rdu.advance_memRead, Rdu.advance_rcur]

/-- The accumulator after one turn: bits `k` to `k + g - 1` gain the group. -/
theorem getLsbD_rdGroup_acc (g k : Nat) (r : VarintRead) {p : Nat} (hp : p < 64) :
    (rdGroup g k r).2.acc.getLsbD p =
      (r.acc.getLsbD p || (decide (k ≤ p ∧ p - k < g) && r.rdu.memRead (r.rdu.rcur + (p - k)))) := by
  rw [rdGroup_eq]
  simp only [BitVec.getLsbD_or, BitVec.getLsbD_shiftLeft, BitVec.getLsbD_ofNat, testBit_rdField, hp]
  by_cases hk : k ≤ p
  · have h1 : p - k < 64 := by omega
    simp [hk, h1, Nat.not_lt.2 hk]
  · simp [hk]

/-- What the loop of `RD_VARINT` does, given fuel for the rest of the buffer: it reads `n` groups, at least one; each of
their continuation bits is 1 but the last, which is 0; bit `p` of the accumulator gains bit `p - k` of the payload
(42 R141, R142). -/
theorem rdGroups_spec (g : Nat) (hg : 0 < g) :
    ∀ (fuel k : Nat) (r : VarintRead), 8 * r.rdu.rlen - r.rdu.rcur ≤ fuel →
      ∃ n, 1 ≤ n ∧
        (rdGroups g fuel k r).groups = r.groups + n ∧
        (rdGroups g fuel k r).rdu = r.rdu.advance (n * (g + 1)) ∧
        (∀ j, j + 1 < n → r.rdu.memRead (r.rdu.rcur + j * (g + 1) + g) = true) ∧
        r.rdu.memRead (r.rdu.rcur + (n - 1) * (g + 1) + g) = false ∧
        ∀ p, p < 64 → (rdGroups g fuel k r).acc.getLsbD p =
          (r.acc.getLsbD p || (decide (k ≤ p ∧ p - k < n * g) &&
            r.rdu.memRead (r.rdu.rcur + (p - k) / g * (g + 1) + (p - k) % g))) := by
  have one : ∀ (k : Nat) (r : VarintRead), r.rdu.memRead (r.rdu.rcur + g) = false →
      (rdGroup g k r).2.groups = r.groups + 1 ∧ (rdGroup g k r).2.rdu = r.rdu.advance (1 * (g + 1)) ∧
      (∀ j, j + 1 < 1 → r.rdu.memRead (r.rdu.rcur + j * (g + 1) + g) = true) ∧
      r.rdu.memRead (r.rdu.rcur + (1 - 1) * (g + 1) + g) = false ∧
      ∀ p, p < 64 → (rdGroup g k r).2.acc.getLsbD p =
        (r.acc.getLsbD p || (decide (k ≤ p ∧ p - k < 1 * g) &&
          r.rdu.memRead (r.rdu.rcur + (p - k) / g * (g + 1) + (p - k) % g))) := by
    intro k r hm
    refine ⟨by rw [rdGroup_eq], by rw [rdGroup_eq, Nat.one_mul], by omega, by simpa using hm, ?_⟩
    intro p hp
    rw [getLsbD_rdGroup_acc g k r hp, Nat.one_mul]
    by_cases hg' : p - k < g
    · simp [Nat.div_eq_of_lt hg', Nat.mod_eq_of_lt hg']
    · simp [hg']
  intro fuel
  induction fuel with
  | zero => exact fun k r hf => ⟨1, le_refl _, one k r (r.rdu.memRead_beyond (by omega))⟩
  | succ fuel ih =>
    intro k r hf
    cases hm : r.rdu.memRead (r.rdu.rcur + g) with
    | false =>
      have hstop : rdGroups g (fuel + 1) k r = (rdGroup g k r).2 := by
        rw [rdGroups]; simp [rdGroup_eq, hm]
      rw [hstop]
      exact ⟨1, le_refl _, one k r hm⟩
    | true =>
      have hin : r.rdu.rcur + g < 8 * r.rdu.rlen := by
        by_contra hc
        rw [r.rdu.memRead_beyond (by omega)] at hm; cases hm
      have hgo : rdGroups g (fuel + 1) k r = rdGroups g fuel (k + g) (rdGroup g k r).2 := by
        rw [rdGroups]; simp [rdGroup_eq, hm]
      have hrdu : (rdGroup g k r).2.rdu = r.rdu.advance (g + 1) := by rw [rdGroup_eq]
      obtain ⟨n, hn, h1, h2, h3, h4, h5⟩ := ih (k + g) (rdGroup g k r).2
        (by rw [hrdu]; simp only [Rdu.advance_rlen, Rdu.advance_rcur]; omega)
      simp only [hrdu, Rdu.advance_memRead, Rdu.advance_rcur] at h2 h3 h4 h5
      rw [hgo]
      have hgr : (rdGroup g k r).2.groups = r.groups + 1 := by rw [rdGroup_eq]
      refine ⟨n + 1, by omega, by rw [h1, hgr]; omega, ?_, ?_, ?_, ?_⟩
      · rw [h2, Rdu.advance_advance]; congr 1; ring
      · intro j hj
        cases j with
        | zero => simpa using hm
        | succ j => rw [← h3 j (by omega)]; congr 1; ring
      · rw [← h4]
        obtain ⟨m, rfl⟩ : ∃ m, n = m + 1 := ⟨n - 1, by omega⟩
        congr 1; simp only [Nat.add_sub_cancel]; ring
      · intro p hp
        rw [h5 p hp, getLsbD_rdGroup_acc g k r hp]
        by_cases hk : k ≤ p
        · obtain ⟨q, rfl⟩ : ∃ q, p = k + q := ⟨p - k, by omega⟩
          simp only [Nat.add_sub_cancel_left]
          by_cases hg' : q < g
          · have e1 : ¬(k + g ≤ k + q) := by omega
            have e2 : q < (n + 1) * g := lt_of_lt_of_le hg' (Nat.le_mul_of_pos_left _ (by omega))
            simp [hg', e1, e2, Nat.div_eq_of_lt hg', Nat.mod_eq_of_lt hg']
          · obtain ⟨q', rfl⟩ : ∃ q', q = g + q' := ⟨q - g, by omega⟩
            have e1 : (g + q') / g = q' / g + 1 := by rw [Nat.add_div_left _ hg]
            have e2 : (g + q') % g = q' % g := by rw [Nat.add_mod_left]
            have e3 : (g + q' < (n + 1) * g) ↔ q' < n * g := by
              rw [Nat.add_mul]; omega
            have e4 : k + (g + q') - (k + g) = q' := by omega
            rw [e1, e2, e4, show r.rdu.rcur + (g + 1) + q' / g * (g + 1) + q' % g =
              r.rdu.rcur + (q' / g + 1) * (g + 1) + q' % g by ring]
            simp [e3, show k + g ≤ k + (g + q') by omega]
        · have e1 : ¬(k + g ≤ p) := by omega
          simp [hk, e1]

end Sys2Proof.Machine
end

