-- ==== Sys2Proof/Laws/Memory.lean ====
section
/-! SUPPORT. The byte buffers: reading after writing, and the canonical form that every operation keeps. -/

namespace Sys2Proof.Machine

theorem Memory.wfFrom_cons {lo a : Nat} {b : Byte} {rest : Memory} :
    Memory.wfFrom lo ((a, b) :: rest) = true ↔
      lo ≤ a ∧ b ≠ Memory.unlisted ∧ Memory.wfFrom (a + 1) rest = true := by
  simp [Memory.wfFrom, and_assoc]

theorem Memory.wfFrom_mono {lo hi : Nat} {m : Memory} (h : lo ≤ hi) (hw : Memory.wfFrom hi m = true) :
    Memory.wfFrom lo m = true := by
  cases m with
  | nil => rfl
  | cons c rest =>
    obtain ⟨a, b⟩ := c
    rw [Memory.wfFrom_cons] at hw ⊢
    exact ⟨by omega, hw.2⟩

/-- An address below every entry reads as an unlisted one. -/
theorem Memory.readByte_below {lo addr : Nat} {m : Memory} (hw : Memory.wfFrom lo m = true) (h : addr < lo) :
    m.readByte addr = Memory.unlisted := by
  induction m generalizing lo with
  | nil => rfl
  | cons c rest ih =>
    obtain ⟨a, b⟩ := c
    rw [Memory.wfFrom_cons] at hw
    rw [Memory.readByte, if_neg (by omega)]
    exact ih hw.2.2 (by omega)

/-- An address at or above the bound of the buffer reads as an unlisted one. -/
theorem Memory.readByte_above {m : Memory} {n addr : Nat} (hb : m.Below n) (h : n ≤ addr) :
    m.readByte addr = Memory.unlisted := by
  induction m with
  | nil => rfl
  | cons c rest ih =>
    obtain ⟨a, b⟩ := c
    have ha : a < n := hb (a, b) (by simp)
    rw [Memory.readByte, if_neg (by omega)]
    exact ih fun c hc => hb c (by simp [hc])

theorem Memory.readByte_cell_append (addr a : Nat) (v : Byte) (m : Memory) (lo : Nat)
    (hw : Memory.wfFrom lo m = true) (h : addr < lo) :
    (Memory.cell addr v ++ m).readByte a = if a = addr then v else m.readByte a := by
  unfold Memory.cell
  split
  · rename_i hv
    split
    · subst_vars; simpa using Memory.readByte_below hw h
    · rfl
  · simp only [List.cons_append, List.nil_append, Memory.readByte]
    by_cases h' : addr = a
    · simp [h']
    · simp [h', Ne.symm h']

/-- What a write leaves at every address: the byte written there, and everywhere else what was there. -/
theorem Memory.readByte_writeByte {m : Memory} {lo : Nat} (hw : Memory.wfFrom lo m = true) (addr : Nat) (v : Byte)
    (a : Nat) : (m.writeByte addr v).readByte a = if a = addr then v else m.readByte a := by
  induction m generalizing lo with
  | nil => simpa [Memory.writeByte] using Memory.readByte_cell_append addr a v [] (addr + 1) rfl (by omega)
  | cons c rest ih =>
    obtain ⟨a', b⟩ := c
    rw [Memory.wfFrom_cons] at hw
    unfold Memory.writeByte
    split
    · refine Memory.readByte_cell_append addr a v _ (addr + 1) ?_ (by omega)
      exact Memory.wfFrom_cons.2 ⟨by omega, hw.2⟩
    · split
      · rename_i h
        subst h
        rw [Memory.readByte_cell_append addr a v _ (addr + 1) hw.2.2 (by omega), Memory.readByte]
        by_cases h : a = addr
        · rw [if_pos h, if_pos h]
        · rw [if_neg h, if_neg h, if_neg (Ne.symm h)]
      · rw [Memory.readByte, ih hw.2.2, Memory.readByte]
        by_cases h : a' = a
        · rw [if_pos h, if_neg (by omega), if_pos h]
        · simp [h]

theorem Memory.wfFrom_cell_append {lo addr : Nat} {v : Byte} {m : Memory} (h : lo ≤ addr)
    (hw : Memory.wfFrom (addr + 1) m = true) : Memory.wfFrom lo (Memory.cell addr v ++ m) = true := by
  unfold Memory.cell
  split
  · exact Memory.wfFrom_mono (by omega) hw
  · rename_i hv; exact Memory.wfFrom_cons.2 ⟨h, hv, hw⟩

theorem Memory.wfFrom_writeByte {m : Memory} {lo addr : Nat} (hw : Memory.wfFrom lo m = true) (h : lo ≤ addr)
    (v : Byte) : Memory.wfFrom lo (m.writeByte addr v) = true := by
  induction m generalizing lo with
  | nil => simpa [Memory.writeByte] using Memory.wfFrom_cell_append (v := v) (m := []) h rfl
  | cons c rest ih =>
    obtain ⟨a, b⟩ := c
    rw [Memory.wfFrom_cons] at hw
    unfold Memory.writeByte
    split
    · refine Memory.wfFrom_cell_append h ?_
      exact Memory.wfFrom_cons.2 ⟨by omega, hw.2⟩
    · split
      · rename_i h'; subst h'; exact Memory.wfFrom_cell_append h hw.2.2
      · exact Memory.wfFrom_cons.2 ⟨hw.1, hw.2.1, ih hw.2.2 (by omega)⟩

/-- A write keeps the canonical form. -/
theorem Memory.wf_writeByte {m : Memory} (hw : m.wf = true) (addr : Nat) (v : Byte) :
    (m.writeByte addr v).wf = true := Memory.wfFrom_writeByte hw (Nat.zero_le _) v

/-- A write adds no address but its own. -/
theorem Memory.mem_writeByte {m : Memory} {addr : Nat} {v : Byte} {c : Host.Cell}
    (h : c ∈ m.writeByte addr v) : c ∈ m ∨ c.1 = addr := by
  induction m with
  | nil => unfold Memory.writeByte Memory.cell at h; split at h <;> simp_all
  | cons d rest ih =>
    obtain ⟨a, b⟩ := d
    unfold Memory.writeByte Memory.cell at h
    split at h
    · split at h <;> simp at h <;> rcases h with h | h <;> simp_all
    · split at h
      · split at h <;> simp at h
        · exact .inl (by simp [h])
        · rcases h with h | h <;> simp_all
      · simp at h
        rcases h with h | h
        · simp_all
        · rcases ih h with h | h <;> simp_all

theorem Memory.Below_writeByte {m : Memory} {n : Nat} (h : m.Below n) (v : Byte) :
    (m.writeByte n v).Below (n + 1) := fun c hc => by
  rcases Memory.mem_writeByte hc with hc | hc
  · have := h c hc; omega
  · omega

theorem Memory.wfFrom_ofBytes (base : Nat) (bs : List Byte) :
    Memory.wfFrom base (Memory.ofBytes base bs) = true := by
  induction bs generalizing base with
  | nil => rfl
  | cons b rest ih => exact Memory.wfFrom_cell_append (Nat.le_refl _) (ih (base + 1))

/-- A buffer given as bytes is canonical. -/
theorem Memory.wf_ofBytes (bs : List Byte) : (Memory.ofBytes 0 bs).wf = true := Memory.wfFrom_ofBytes 0 bs

theorem Memory.Below_ofBytes (base : Nat) (bs : List Byte) :
    (Memory.ofBytes base bs).Below (base + bs.length) := by
  induction bs generalizing base with
  | nil => simp [Memory.ofBytes]
  | cons b rest ih =>
    intro c hc
    rw [Memory.ofBytes, List.mem_append] at hc
    rcases hc with hc | hc
    · unfold Memory.cell at hc
      split at hc <;> simp_all
    · have := ih (base + 1) c hc
      simp only [List.length_cons]; omega

/-- What a buffer given as bytes holds at each address. -/
theorem Memory.readByte_ofBytes (base : Nat) (bs : List Byte) (i : Nat) :
    (Memory.ofBytes base bs).readByte (base + i) = bs.getD i Memory.unlisted := by
  induction bs generalizing base i with
  | nil => simp [Memory.ofBytes, Memory.readByte]
  | cons b rest ih =>
    rw [Memory.ofBytes,
      Memory.readByte_cell_append base (base + i) b _ (base + 1) (Memory.wfFrom_ofBytes _ _) (by omega)]
    cases i with
    | zero => simp
    | succ i => rw [if_neg (by omega), show base + (i + 1) = base + 1 + i by omega, ih]; simp

end Sys2Proof.Machine
end

