-- ==== Sys2Proof/Laws/Writer.lean ====
section
/-! SUPPORT. What the writer's operations can do, each said once: a bit or a field written goes to the wire from the
cursor on, what was there before stays, and the writer's invariant is kept (spec 20_memory R58, 10_state R33); the
loop of `WR_VARINT` (46 R190); finalization (48 R210). -/

namespace Sys2Proof.Machine

theorem ushiftRight_eq_zero_iff (v : Byte) (k : Nat) :
    v >>> k = 0 ↔ ∀ i, k ≤ i → v.getLsbD i = false := by
  constructor
  · intro h i hi
    have := congrArg (fun w : Byte => w.getLsbD (i - k)) h
    simpa [BitVec.getLsbD_ushiftRight, show k + (i - k) = i by omega] using this
  · intro h
    apply BitVec.eq_of_getLsbD_eq
    intro i _
    simp only [BitVec.getLsbD_ushiftRight, h (k + i) (by omega), BitVec.ofNat_eq_ofNat, BitVec.getLsbD_zero]

/-- A writer that is not finalized and meets its invariant: what every writing command finds. -/
abbrev WruGood (u : Wru) : Prop := u.wmem.wf = true ∧ u.wmem.Below u.wlen ∧ WruOpen u

theorem WruInv.good {u : Wru} (h : WruInv u) (hf : u.wfin = false) : WruGood u := ⟨h.1, h.2.1, h.2.2.2.1 hf⟩

/-- What a write of some bits leaves: `n` bits, of the values `bit`, on the wire after those already there. -/
structure Wrote (n : Nat) (bit : Nat → Bool) (u u' : Wru) : Prop where
  good : WruGood u'
  wcur : u'.wcur = u.wcur + n
  wcnt : u'.wcnt = u.wcnt
  wfin : u'.wfin = u.wfin
  /-- what was on the wire stays -/
  old : ∀ p, p < u.wcur → u'.wireBit p = u.wireBit p
  /-- the new bits follow -/
  new : ∀ i, i < n → u'.wireBit (u.wcur + i) = bit i
  /-- the bytes already in `WMEM` stay -/
  bytes : ∀ a, a < u.wlen → u'.wmem.readByte a = u.wmem.readByte a

theorem Wrote.zero {u : Wru} (h : WruGood u) (bit : Nat → Bool) : Wrote 0 bit u u :=
  ⟨h, rfl, rfl, rfl, fun _ _ => rfl, fun _ hi => absurd hi (by omega), fun _ _ => rfl⟩

/-- The length of `WMEM` does not fall. -/
theorem Wrote.wlen_le {n : Nat} {bit : Nat → Bool} {u u' : Wru} (hg : WruGood u) (h : Wrote n bit u u') :
    u.wlen ≤ u'.wlen := by
  rw [hg.2.2.1, h.good.2.2.1, h.wcur]; omega

theorem Wrote.congr {n : Nat} {bit bit' : Nat → Bool} {u u' : Wru} (h : Wrote n bit u u')
    (hb : ∀ i, i < n → bit i = bit' i) : Wrote n bit' u u' :=
  { h with new := fun i hi => by rw [h.new i hi, hb i hi] }

/-- Two writes in a row. -/
theorem Wrote.trans {m n : Nat} {f g : Nat → Bool} {u v w : Wru} (hu : WruGood u) (h : Wrote m f u v)
    (k : Wrote n g v w) : Wrote (m + n) (fun i => if i < m then f i else g (i - m)) u w where
  good := k.good
  wcur := by rw [k.wcur, h.wcur, Nat.add_assoc]
  wcnt := by rw [k.wcnt, h.wcnt]
  wfin := by rw [k.wfin, h.wfin]
  old p hp := by rw [k.old p (by rw [h.wcur]; omega), h.old p hp]
  new i hi := by
    by_cases hm : i < m
    · rw [k.old _ (by rw [h.wcur]; omega), h.new i hm, if_pos hm]
    · rw [if_neg hm, ← k.new (i - m) (by omega), h.wcur]
      congr 1; omega
  bytes a ha := by rw [k.bytes a (lt_of_lt_of_le ha (h.wlen_le hu)), h.bytes a ha]

/-- A write in the terms of the claims; `WCNT` is not spoken of there. -/
theorem Wrote.appends {n : Nat} {bit : Nat → Bool} {u u' : Wru} (hu : WruGood u) (h : Wrote n bit u u') (c : Nat) :
    AppendsBits n bit u (u'.count c) where
  cursor := h.wcur
  unfinalized := h.wfin
  length := h.good.2.2.1
  accClear := h.good.2.2.2
  newBits := h.new
  oldBits := h.old
  otherBytes a ha := by
    by_cases hlt : a < u.wlen
    · exact h.bytes a hlt
    · have hge : u'.wlen ≤ a := ha.resolve_left hlt
      rw [Wru.count_wmem, Memory.readByte_above h.good.2.1 hge, Memory.readByte_above hu.2.1 (by omega)]

/-- The cursor and the length after a write, with no premise on the writer. -/
theorem wrBit_cursor (b : Bool) (u : Wru) :
    (wrBit b u).wcur = u.wcur + 1 ∧ (wrBit b u).wcnt = u.wcnt ∧ (wrBit b u).wfin = u.wfin := by
  unfold wrBit
  simp only []
  split <;> exact ⟨rfl, rfl, rfl⟩

theorem wrField_cursor (n v : Nat) (u : Wru) :
    (wrField n v u).wcur = u.wcur + n ∧ (wrField n v u).wcnt = u.wcnt ∧ (wrField n v u).wfin = u.wfin := by
  induction n generalizing v u with
  | zero => exact ⟨rfl, rfl, rfl⟩
  | succ n ih =>
    obtain ⟨h1, h2, h3⟩ := ih (v / 2) (wrBit (v.testBit 0) u)
    obtain ⟨k1, k2, k3⟩ := wrBit_cursor (v.testBit 0) u
    exact ⟨by rw [wrField, h1, k1]; omega, by rw [wrField, h2, k2], by rw [wrField, h3, k3]⟩

theorem wrSign_cursor (s b : Bool) (u : Wru) :
    (wrSign s b u).wcur = u.wcur + s.toNat ∧ (wrSign s b u).wcnt = u.wcnt ∧ (wrSign s b u).wfin = u.wfin := by
  cases s
  · exact ⟨rfl, rfl, rfl⟩
  · exact wrBit_cursor b u

theorem wrGroup_cursor (g rem : Nat) (r : VarintWrite) :
    (wrGroup g rem r).wru.wcur = r.wru.wcur + (g + 1) ∧ (wrGroup g rem r).wru.wcnt = r.wru.wcnt ∧
      (wrGroup g rem r).wru.wfin = r.wru.wfin := by
  obtain ⟨h1, h2, h3⟩ := wrField_cursor g rem r.wru
  obtain ⟨k1, k2, k3⟩ := wrBit_cursor (rem / 2 ^ g != 0) (wrField g rem r.wru)
  exact ⟨by simp only [wrGroup]; omega, by simp only [wrGroup]; rw [k2, h2], by simp only [wrGroup]; rw [k3, h3]⟩

/-- The loop of `WR_VARINT` on any writer: the cursor moves by `g + 1` for each group. -/
theorem wrGroups_cursor (g : Nat) : ∀ (fuel rem : Nat) (r : VarintWrite),
    (wrGroups g fuel rem r).wru.wcur + r.groups * (g + 1) =
        r.wru.wcur + (wrGroups g fuel rem r).groups * (g + 1) ∧
      r.groups ≤ (wrGroups g fuel rem r).groups ∧
      (wrGroups g fuel rem r).wru.wcnt = r.wru.wcnt ∧ (wrGroups g fuel rem r).wru.wfin = r.wru.wfin := by
  have one : ∀ (rem : Nat) (r : VarintWrite), (wrGroup g rem r).wru.wcur + r.groups * (g + 1) =
      r.wru.wcur + (wrGroup g rem r).groups * (g + 1) := by
    intro rem r
    rw [(wrGroup_cursor g rem r).1, show (wrGroup g rem r).groups = r.groups + 1 from rfl]; ring
  intro fuel
  induction fuel with
  | zero =>
    exact fun rem r => ⟨one rem r, Nat.le_succ _, (wrGroup_cursor g rem r).2.1, (wrGroup_cursor g rem r).2.2⟩
  | succ fuel ih =>
    intro rem r
    rw [wrGroups]
    split
    · obtain ⟨h1, h2, h3, h4⟩ := ih (rem / 2 ^ g) (wrGroup g rem r)
      have e : (wrGroup g rem r).groups = r.groups + 1 := rfl
      refine ⟨?_, by omega, by rw [h3, (wrGroup_cursor g rem r).2.1], by rw [h4, (wrGroup_cursor g rem r).2.2]⟩
      have := one rem r
      omega
    · exact ⟨one rem r, Nat.le_succ _, (wrGroup_cursor g rem r).2.1, (wrGroup_cursor g rem r).2.2⟩

/-- `WrBit(b)` writes one bit (20_memory R58). -/
theorem wrBit_wrote {u : Wru} (h : WruGood u) (b : Bool) : Wrote 1 (fun _ => b) u (wrBit b u) := by
  obtain ⟨hwf, hb, hl, ha⟩ := h
  rw [ushiftRight_eq_zero_iff] at ha
  have hset : ∀ i, i < 8 → (setBit u.wacc (u.wcur % 8) b).getLsbD i =
      if i = u.wcur % 8 then b else u.wacc.getLsbD i := fun i hi => getLsbD_setBit _ _ _ i hi
  unfold wrBit
  simp only []
  split
  · rename_i hk
    have hread : ∀ a, (u.wmem.writeByte u.wlen (setBit u.wacc (u.wcur % 8) b)).readByte a =
        if a = u.wlen then setBit u.wacc (u.wcur % 8) b else u.wmem.readByte a :=
      fun a => Memory.readByte_writeByte hwf _ _ a
    refine ⟨⟨?_, ?_, ?_, ?_⟩, rfl, rfl, rfl, ?_, ?_, ?_⟩
    · exact Memory.wf_writeByte hwf _ _
    · exact Memory.Below_writeByte hb _
    · simp only [Wru.appendByte_wlen, Wru.appendByte_wcur]; omega
    · simp
    · intro p hp
      simp only [Wru.wireBit, Wru.appendByte_wlen, Wru.appendByte_wmem, Wru.appendByte_wacc, hread]
      by_cases hp' : p / 8 < u.wlen
      · rw [if_pos (by omega), if_neg (by omega), if_pos hp']
      · rw [if_pos (by omega), if_pos (by omega), if_neg hp', hset _ (by omega), if_neg (by omega)]
    · intro i hi
      simp only [Wru.wireBit, Wru.appendByte_wlen, Wru.appendByte_wmem, Wru.appendByte_wacc, hread]
      rw [if_pos (by omega), if_pos (by omega), hset _ (by omega), if_pos (by omega)]
    · intro a ha'
      rw [Wru.appendByte_wmem, hread, if_neg (by omega)]
  · rename_i hk
    refine ⟨⟨hwf, hb, ?_, ?_⟩, rfl, rfl, rfl, ?_, ?_, fun _ _ => rfl⟩
    · simp only []; omega
    · rw [ushiftRight_eq_zero_iff]
      intro i hi
      simp only [] at hi ⊢
      by_cases h8 : i < 8
      · rw [hset i h8, if_neg (by omega)]; exact ha i (by omega)
      · exact BitVec.getLsbD_of_ge _ _ (by omega)
    · intro p hp
      simp only [Wru.wireBit]
      by_cases hp' : p / 8 < u.wlen
      · rw [if_pos hp', if_pos hp']
      · rw [if_neg hp', if_neg hp', hset _ (by omega), if_neg (by omega)]
    · intro i hi
      simp only [Wru.wireBit]
      rw [if_neg (by omega), hset _ (by omega), if_pos (by omega)]

/-- `WrField(n, v)` writes bits 0 to `n - 1` of `v` (00_scope R10). -/
theorem wrField_wrote (n v : Nat) {u : Wru} (h : WruGood u) : Wrote n v.testBit u (wrField n v u) := by
  induction n generalizing v u with
  | zero => exact Wrote.zero h _
  | succ n ih =>
    have h1 := wrBit_wrote h (v.testBit 0)
    have h2 := h1.trans h (ih (v / 2) h1.good)
    rw [Nat.add_comm 1 n] at h2
    refine h2.congr fun i hi => ?_
    cases i with
    | zero => rfl
    | succ i => simp [Nat.testBit_succ]

/-- The optional sign bit. -/
theorem wrSign_wrote (s b : Bool) {u : Wru} (h : WruGood u) : Wrote s.toNat (fun _ => b) u (wrSign s b u) := by
  cases s
  · exact Wrote.zero h _
  · exact wrBit_wrote h b

/-- One turn of the loop of `WR_VARINT`: a group and its continuation bit. -/
theorem wrGroup_wrote (g rem : Nat) {r : VarintWrite} (h : WruGood r.wru) :
    Wrote (g + 1) (fun i => if i < g then rem.testBit i else rem / 2 ^ g != 0) r.wru (wrGroup g rem r).wru := by
  have h1 := wrField_wrote g rem h
  exact (h1.trans h (wrBit_wrote h1.good (rem / 2 ^ g != 0))).congr fun i hi => rfl

/-- What the loop of `WR_VARINT` does, given fuel for every bit of `rem`: it writes `n` groups, at least one and no more
than the bits of `rem` ask for; each continuation bit is 1 but the last (46 R190, R191, R192). -/
theorem wrGroups_spec (g : Nat) (hg : 0 < g) :
    ∀ (fuel rem : Nat) (r : VarintWrite), WruGood r.wru → rem < 2 ^ (fuel + 1) →
      ∃ n, 1 ≤ n ∧ (wrGroups g fuel rem r).groups = r.groups + n ∧
        rem < 2 ^ (n * g) ∧ (n = 1 ∨ 2 ^ ((n - 1) * g) ≤ rem) ∧
        Wrote (n * (g + 1)) (fun i =>
            if i % (g + 1) < g then rem.testBit (i / (g + 1) * g + i % (g + 1)) else decide (i / (g + 1) + 1 < n))
          r.wru (wrGroups g fuel rem r).wru := by
  have one : ∀ (rem : Nat) (r : VarintWrite), WruGood r.wru → rem / 2 ^ g = 0 →
      (wrGroup g rem r).groups = r.groups + 1 ∧ rem < 2 ^ (1 * g) ∧ ((1 : Nat) = 1 ∨ 2 ^ ((1 - 1) * g) ≤ rem) ∧
      Wrote (1 * (g + 1)) (fun i =>
          if i % (g + 1) < g then rem.testBit (i / (g + 1) * g + i % (g + 1)) else decide (i / (g + 1) + 1 < 1))
        r.wru (wrGroup g rem r).wru := by
    intro rem r h h0
    have hlt : rem < 2 ^ g := (Nat.div_eq_zero_iff_lt (Nat.two_pow_pos g)).1 h0
    refine ⟨rfl, by rwa [Nat.one_mul], .inl rfl, ?_⟩
    rw [Nat.one_mul]
    refine (wrGroup_wrote g rem h).congr fun i hi => ?_
    rw [Nat.mod_eq_of_lt hi, Nat.div_eq_of_lt hi]
    simp [h0]
  intro fuel
  induction fuel with
  | zero =>
    intro rem r h hf
    refine ⟨1, le_refl _, one rem r h ?_⟩
    refine Nat.div_eq_of_lt (lt_of_lt_of_le hf ?_)
    exact Nat.pow_le_pow_right (by omega) (by omega)
  | succ fuel ih =>
    intro rem r h hf
    by_cases h0 : rem / 2 ^ g = 0
    · have hstop : wrGroups g (fuel + 1) rem r = wrGroup g rem r := by rw [wrGroups]; simp [h0]
      rw [hstop]
      exact ⟨1, le_refl _, one rem r h h0⟩
    · have hgo : wrGroups g (fuel + 1) rem r = wrGroups g fuel (rem / 2 ^ g) (wrGroup g rem r) := by
        rw [wrGroups]; simp [h0]
      have hw := wrGroup_wrote g rem h
      have hdiv : rem / 2 ^ g < 2 ^ (fuel + 1) := by
        rw [Nat.div_lt_iff_lt_mul (Nat.two_pow_pos g), ← Nat.pow_add]
        exact lt_of_lt_of_le hf (Nat.pow_le_pow_right (by omega) (by omega))
      obtain ⟨n, hn, h1, h2, h3, h4⟩ := ih (rem / 2 ^ g) (wrGroup g rem r) hw.good hdiv
      rw [hgo]
      refine ⟨n + 1, by omega, by rw [h1]; simp [wrGroup]; omega, ?_, .inr ?_, ?_⟩
      · rw [Nat.div_lt_iff_lt_mul (Nat.two_pow_pos g), ← Nat.pow_add] at h2
        rwa [Nat.add_mul, Nat.one_mul]
      · rw [Nat.add_sub_cancel]
        rcases h3 with rfl | h3
        · rw [Nat.one_mul]
          by_contra hc
          exact h0 (Nat.div_eq_of_lt (by omega))
        · rw [Nat.le_div_iff_mul_le (Nat.two_pow_pos g), ← Nat.pow_add] at h3
          rwa [show (n - 1) * g + g = n * g by
            obtain ⟨m, rfl⟩ : ∃ m, n = m + 1 := ⟨n - 1, by omega⟩
            simp [Nat.add_mul]] at h3
      · have h5 := hw.trans h h4
        rw [show g + 1 + n * (g + 1) = (n + 1) * (g + 1) by ring] at h5
        refine h5.congr fun i hi => ?_
        by_cases hlt : i < g + 1
        · rw [if_pos hlt, Nat.mod_eq_of_lt hlt, Nat.div_eq_of_lt hlt]
          simp only [Nat.zero_mul, Nat.zero_add]
          by_cases hig : i < g
          · rw [if_pos hig, if_pos hig]
          · rw [if_neg hig, if_neg hig]
            have : (rem / 2 ^ g != 0) = true := by simp [h0]
            rw [this]; symm; simp; omega
        · obtain ⟨q, rfl⟩ : ∃ q, i = (g + 1) + q := ⟨i - (g + 1), by omega⟩
          rw [if_neg hlt, Nat.add_sub_cancel_left, Nat.add_mod_left, Nat.add_div_left _ (by omega : 0 < g + 1)]
          by_cases hig : q % (g + 1) < g
          · rw [if_pos hig, if_pos hig, Nat.testBit_div_two_pow]
            congr 1; ring
          · rw [if_neg hig, if_neg hig]
            congr 1; simp

/-- The first `WR_PACK` gives a finalized writer that meets its invariant, with every bit written still on the wire
(48 R210, R212, 10_state R33). -/
theorem pack_spec {u : Wru} (h : WruGood u) (hf : u.wfin = false) :
    u.pack.wmem.wf = true ∧ u.pack.wmem.Below u.pack.wlen ∧ WruFinal u.pack ∧ u.pack.wfin = true ∧
      u.pack.wcur = u.wcur ∧ u.pack.wcnt = u.wcnt ∧
      ∀ p, p < u.wcur → u.pack.wireBit p = u.wireBit p := by
  obtain ⟨hwf, hb, hl, ha⟩ := h
  unfold Wru.pack Wru.flush
  rw [hf, if_neg (by simp)]
  split
  · rename_i hk
    have hread : ∀ a, (u.wmem.writeByte u.wlen u.wacc).readByte a =
        if a = u.wlen then u.wacc else u.wmem.readByte a := fun a => Memory.readByte_writeByte hwf _ _ a
    refine ⟨Memory.wf_writeByte hwf _ _, Memory.Below_writeByte hb _, ⟨?_, rfl⟩, rfl, rfl, rfl, ?_⟩
    · simp only [Wru.appendByte_wlen, Wru.appendByte_wcur]; omega
    · intro p hp
      simp only [Wru.wireBit, Wru.appendByte_wlen, Wru.appendByte_wmem, Wru.appendByte_wacc, hread]
      rw [if_pos (by omega)]
      by_cases hp' : p / 8 < u.wlen
      · rw [if_neg (by omega), if_pos hp']
      · rw [if_pos (by omega), if_neg hp']
  · rename_i hk
    refine ⟨hwf, hb, ⟨?_, ?_⟩, rfl, rfl, rfl, fun p hp => rfl⟩
    · simp only []; omega
    · simp only []
      rw [ushiftRight_eq_zero_iff] at ha
      apply BitVec.eq_of_getLsbD_eq
      intro i _
      rw [ha i (by omega)]; simp

end Sys2Proof.Machine
end

