-- ==== Sys2Proof/Laws/Commands.lean ====
section
/-! SUPPORT. What the shared bodies of the commands answer, each said once: the one error a body can raise and when, and
the next state otherwise. -/

namespace Sys2Proof.Machine

theorem raise_eq (e : Error) (s : State) : raise e s = .next (s.responded e.code 0) := rfl

theorem finish_eq (res : Word) (s : State) : finish res s = .next (s.responded 0 res) := rfl

theorem finishRdu_eq (u : Rdu) (res : Word) (s : State) :
    finishRdu u res s = .next ({ s with rdu := u }.responded 0 res) := rfl

theorem finishWru_eq (u : Wru) (s : State) : finishWru u s = .next ({ s with wru := u }.responded 0 0) := rfl

/-- `unlessFinalized` raises `Finalized` when `WFIN = 1` and is its body otherwise. -/
theorem unlessFinalized_eq (s : State) (body : Result) :
    unlessFinalized s body = if s.wru.wfin then .next (s.responded 5 0) else body := rfl

/-- `RdFixed(w, T)` (40 R113). -/
theorem rdFixed_eq (w : Int) (T : Nat) (s : State) :
    rdFixed w T s = .next (if 1 ≤ w ∧ w ≤ T then
        { s with rdu := (s.rdu.advance w.toNat).count w.toNat }.responded 0
          (BitVec.ofNat 64 (rdField w.toNat s.rdu).1)
      else s.responded 1 0) := by
  unfold rdFixed
  simp only [InRange, Nat.cast_one]
  split
  · rw [finishRdu_eq, rdField_rdu]
  · rfl

/-- `RD_SINT` (40 R119). -/
theorem execRdSint_eq (w : Int) (signed : Bool) (s : State) :
    execRdSint w signed s = .next (if 1 ≤ w ∧ w ≤ 32 then
        { s with rdu := (s.rdu.advance (w.toNat + signed.toNat)).count w.toNat }.responded 0
          ((if signed then setBit (BitVec.ofNat 32 (rdField w.toNat s.rdu).1) 31 (s.rdu.memRead (s.rdu.rcur + w.toNat))
            else BitVec.ofNat 32 (rdField w.toNat s.rdu).1).setWidth 64)
      else s.responded 1 0) := by
  unfold execRdSint
  simp only [InRange, Nat.cast_one, Config.maxWidthInt, Nat.cast_ofNat]
  split
  · rw [finishRdu_eq]
    simp only [rdField_rdu, rdSign_eq, Rdu.advance_advance, Rdu.advance_memRead, Rdu.advance_rcur]
    cases signed <;> simp
  · rfl

/-- The float reads (41 R131, R132). -/
theorem rdFloating_eq (eMax mMax place top : Nat) (e m : Int) (signed : Bool) (s : State) :
    rdFloating eMax mMax place top e m signed s =
      .next (if (1 ≤ e ∧ e ≤ eMax) ∧ 1 ≤ m ∧ m ≤ mMax then
        { s with rdu := (s.rdu.advance (signed.toNat + e.toNat + m.toNat)).count (e.toNat + m.toNat) }.responded 0
          (BitVec.ofNat 64 (rdField m.toNat (s.rdu.advance (signed.toNat + e.toNat))).1 |||
            BitVec.ofNat 64 (rdField e.toNat (s.rdu.advance signed.toNat)).1 <<< place |||
            (BitVec.ofBool (signed && s.rdu.memRead s.rdu.rcur)).setWidth 64 <<< top)
      else s.responded 1 0) := by
  unfold rdFloating
  simp only [InRange, Nat.cast_one]
  split
  · simp only [finishRdu_eq, rdField_rdu, rdSign_eq, Rdu.advance_advance]
  · rfl

/-- `RD_DEC` (43 R151). -/
theorem execRdDec_eq (d : Int) (s : State) :
    execRdDec d s = .next (if 0 < s.maxAbs ∧ 0 ≤ d ∧ d ≤ 18 then
        State.responded { s with
          rdu := (s.rdu.advance (1 + integralWidth s.maxAbs + scaledWidth d.toNat)).count
                  (integralWidth s.maxAbs + scaledWidth d.toNat) } 0
          (decCombine (s.rdu.memRead s.rdu.rcur) (rdField (integralWidth s.maxAbs) (s.rdu.advance 1)).1
            (rdField (scaledWidth d.toNat) (s.rdu.advance (1 + integralWidth s.maxAbs))).1 d.toNat)
      else s.responded 4 0) := by
  unfold execRdDec
  simp only [DecimalRange, InRange, Config.maxDecimalPlaces, Nat.cast_zero, Nat.cast_ofNat]
  split
  · simp only [finishRdu_eq, rdBit, rdField_rdu, Rdu.advance_advance]
  · rfl

/-- `WrFixed(v, w, T)` (44 R163). -/
theorem wrFixed_eq (w : Int) (T : Nat) (s : State) :
    wrFixed w T s = .next (if s.wru.wfin then s.responded 5 0 else if 1 ≤ w ∧ w ≤ T then
        { s with wru := (wrField w.toNat (s.opdLow T).toNat s.wru).count w.toNat }.responded 0 0
      else s.responded 1 0) := by
  unfold wrFixed
  simp only [unlessFinalized_eq, InRange, Nat.cast_one]
  split
  · rfl
  · split <;> rfl

/-- The float writes (45 R180, R181). -/
theorem wrFloating_eq (eMax mMax place top : Nat) (e m : Int) (signed : Bool) (s : State) :
    wrFloating eMax mMax place top e m signed s =
      .next (if s.wru.wfin then s.responded 5 0 else if (1 ≤ e ∧ e ≤ eMax) ∧ 1 ≤ m ∧ m ≤ mMax then
        { s with wru := (wrField m.toNat ((s.opdLow (top + 1)).extractLsb' 0 place).toNat
          (wrField e.toNat ((s.opdLow (top + 1)).extractLsb' place (top - place)).toNat
            (wrSign signed (getBit (s.opdLow (top + 1)) top) s.wru))).count (e.toNat + m.toNat) }.responded 0 0
      else s.responded 1 0) := by
  unfold wrFloating
  simp only [unlessFinalized_eq, InRange, Nat.cast_one]
  split
  · rfl
  · split <;> rfl

/-- The wire of a decimal (47 R200). -/
theorem wrDecimal_wrote (a b : Nat) (parts : DecimalParts) {u : Wru} (h : WruGood u) :
    Wrote (1 + a + b)
      (fun i => if i = 0 then parts.sg else if i < 1 + a then parts.ip.testBit (i - 1)
        else parts.sd.testBit (i - 1 - a))
      u (wrField b parts.sd (wrField a parts.ip (wrBit parts.sg u))) := by
  have h1 := wrBit_wrote h parts.sg
  have h2 := h1.trans h (wrField_wrote a parts.ip h1.good)
  have h3 := h2.trans h (wrField_wrote b parts.sd h2.good)
  refine h3.congr fun i hi => ?_
  by_cases h0 : i = 0
  · subst h0; simp
  · by_cases ha : i < 1 + a
    · simp [h0, ha, show ¬i < 1 by omega]
    · simp [h0, ha, show i - (1 + a) = i - 1 - a by omega]

/-- The bit reads of `TW_GETBITn` (49 R221 to R224). -/
theorem twGetBit_eq (n : Nat) (pos : Int) (s : State) :
    twGetBit n pos s = .next (if 0 ≤ pos ∧ pos < n then
        s.responded 0 (if (s.opdLow n).getLsbD pos.toNat then 1 else 0)
      else s.responded 7 0) := by
  unfold twGetBit
  split
  · rename_i h
    rw [finish_eq, getBit_eq_getLsbD _ (by omega)]
    cases (s.opdLow n).getLsbD pos.toNat <;> rfl
  · rfl

/-- The bit writes of `TW_SETBITn` (49 R226 to R229). -/
theorem twSetBit_eq (n : Nat) (pos : Int) (flag : Bool) (s : State) :
    twSetBit n pos flag s = .next (if 0 ≤ pos ∧ pos < n then
        s.responded 0 ((setBit (s.opdLow n) pos.toNat flag).setWidth 64)
      else s.responded 7 0) := by
  unfold twSetBit
  split <;> rfl

/-- A step with a command presented is that command. -/
theorem step_command {s : State} {c : Command} {rest : List HostEvent} (h : s.port = .command c :: rest) :
    step s = runCommand c s := by
  unfold step; rw [h]

end Sys2Proof.Machine
end

