-- ==== Sys2Proof/Laws/Decode.lean ====
section
/-! SUPPORT. The fields of an assembled word (spec 30_encoding R81, R91) and its masked bits (R82). -/

namespace Sys2Proof

/-- Bit `i` of an assembled word: the fields side by side, and nothing above bit 24. -/
theorem getLsbD_commandWord (opc : BitVec 8) (a b : Int) (s : Bool) (i : Nat) (hi : i < 32) :
    (commandWord opc a b s).getLsbD i =
      if i < 8 then opc.getLsbD i
      else if i < 16 then (BitVec.ofInt 8 a).getLsbD (i - 8)
      else if i < 24 then (BitVec.ofInt 8 b).getLsbD (i - 16)
      else decide (i = 24) && s := by
  have hs : ∀ k, ((BitVec.ofBool s).setWidth 32).getLsbD k = (decide (k = 0) && s) := by
    intro k; cases s <;> simp [BitVec.getLsbD_one]
  unfold commandWord
  simp only [BitVec.getLsbD_or, BitVec.getLsbD_shiftLeft, hs]
  simp only [BitVec.getLsbD_setWidth]
  by_cases h8 : i < 8
  · have : i < 16 := by omega
    have : i < 24 := by omega
    simp [*]
  · by_cases h16 : i < 16
    · have : i < 24 := by omega
      have : i - 8 < 32 := by omega
      simp [*, BitVec.getLsbD_of_ge opc i (by omega)]
    · by_cases h24 : i < 24
      · have : i - 8 < 32 := by omega
        have : i - 16 < 32 := by omega
        simp [*, BitVec.getLsbD_of_ge opc i (by omega), BitVec.getLsbD_of_ge (BitVec.ofInt 8 a) (i - 8) (by omega)]
      · have : i - 8 < 32 := by omega
        have : i - 16 < 32 := by omega
        simp [*, BitVec.getLsbD_of_ge opc i (by omega), BitVec.getLsbD_of_ge (BitVec.ofInt 8 a) (i - 8) (by omega),
          BitVec.getLsbD_of_ge (BitVec.ofInt 8 b) (i - 16) (by omega)]
        by_cases h : i = 24
        · subst h; simp
        · have : i - 24 ≠ 0 := by omega
          simp [h, this]

theorem opcField_commandWord (opc : BitVec 8) (a b : Int) (s : Bool) : opcField (commandWord opc a b s) = opc := by
  apply BitVec.eq_of_getLsbD_eq
  intro i hi
  rw [opcField, BitVec.getLsbD_extractLsb', Nat.zero_add, getLsbD_commandWord _ _ _ _ _ (by omega), if_pos hi]
  simp [hi]

theorem aField_commandWord (opc : BitVec 8) (a b : Int) (s : Bool) :
    aField (commandWord opc a b s) = BitVec.ofInt 8 a := by
  apply BitVec.eq_of_getLsbD_eq
  intro i hi
  rw [aField, BitVec.getLsbD_extractLsb', getLsbD_commandWord _ _ _ _ _ (by omega), if_neg (by omega),
    if_pos (by omega), Nat.add_sub_cancel_left]
  simp [hi]

theorem bField_commandWord (opc : BitVec 8) (a b : Int) (s : Bool) :
    bField (commandWord opc a b s) = BitVec.ofInt 8 b := by
  apply BitVec.eq_of_getLsbD_eq
  intro i hi
  rw [bField, BitVec.getLsbD_extractLsb', getLsbD_commandWord _ _ _ _ _ (by omega), if_neg (by omega),
    if_neg (by omega), if_pos (by omega), Nat.add_sub_cancel_left]
  simp [hi]

theorem sField_commandWord (opc : BitVec 8) (a b : Int) (s : Bool) : sField (commandWord opc a b s) = s := by
  rw [sField, getLsbD_commandWord _ _ _ _ _ (by omega)]; simp

theorem zField_commandWord (opc : BitVec 8) (a b : Int) (s : Bool) : zField (commandWord opc a b s) = 0 := by
  apply BitVec.eq_of_getLsbD_eq
  intro i hi
  rw [zField, BitVec.getLsbD_extractLsb', getLsbD_commandWord _ _ _ _ _ (by omega), if_neg (by omega),
    if_neg (by omega), if_neg (by omega)]
  have : 25 + i ≠ 24 := by omega
  simp [this]

/-- A width-like operand that fits its field is read back from it (R83). -/
theorem toInt_ofInt_of_fits {v : Int} (h : FitsField v) : (BitVec.ofInt 8 v).toInt = v := by
  rw [BitVec.toInt_ofInt]
  obtain ⟨h1, h2⟩ := h
  rw [Int.bmod_def]
  norm_num
  omega

/-- A word of format F keeps its opcode under that format's mask (R82). -/
theorem commandWord_maskF (opc : BitVec 8) (a b : Int) (s : Bool) :
    commandWord opc a b s &&& maskF = opc.setWidth 32 := by
  apply BitVec.eq_of_getLsbD_eq
  intro i hi
  rw [BitVec.getLsbD_and, getLsbD_commandWord _ _ _ _ _ hi, BitVec.getLsbD_setWidth]
  interval_cases i <;> simp

/-- A word of format WS keeps its opcode under that format's mask (R82). -/
theorem commandWord_maskWS (opc : BitVec 8) (a : Int) (s : Bool) :
    commandWord opc a 0 s &&& maskWS = opc.setWidth 32 := by
  apply BitVec.eq_of_getLsbD_eq
  intro i hi
  rw [BitVec.getLsbD_and, getLsbD_commandWord _ _ _ _ _ hi, BitVec.getLsbD_setWidth]
  interval_cases i <;> simp

/-- A word of format W keeps its opcode under that format's mask (R82). -/
theorem commandWord_maskW (opc : BitVec 8) (a : Int) :
    commandWord opc a 0 false &&& maskW = opc.setWidth 32 := by
  apply BitVec.eq_of_getLsbD_eq
  intro i hi
  rw [BitVec.getLsbD_and, getLsbD_commandWord _ _ _ _ _ hi, BitVec.getLsbD_setWidth]
  interval_cases i <;> simp

/-- A word of format N is its opcode (R82). -/
theorem commandWord_maskN (opc : BitVec 8) : commandWord opc 0 0 false &&& maskN = opc.setWidth 32 := by
  apply BitVec.eq_of_getLsbD_eq
  intro i hi
  rw [BitVec.getLsbD_and, getLsbD_commandWord _ _ _ _ _ hi, BitVec.getLsbD_setWidth]
  interval_cases i <;> simp

end Sys2Proof
end

