-- ==== Sys2Proof/Laws/PerInstr.lean ====
section
/-! SUPPORT. What holds of every command, one lemma per constructor of `Instr`. -/

namespace Sys2Proof.Laws.WordMatchesRow

/-- The word of the command is a word of a row of the opcode table (spec 30_encoding R82, R86). -/
def Statement (i : Instr) : Prop := ∃ row ∈ opcodeTable, encode i &&& row.mask = row.bits

theorem rdBit : Statement (Instr.rdBit) :=
  ⟨⟨maskN, 0x00⟩, by decide, commandWord_maskN _⟩

theorem rdBool : Statement (Instr.rdBool) :=
  ⟨⟨maskN, 0x01⟩, by decide, commandWord_maskN _⟩

theorem rdByte (w : Int) : Statement (Instr.rdByte w) :=
  ⟨⟨maskW, 0x02⟩, by decide, commandWord_maskW _ w⟩

theorem rdShort (w : Int) : Statement (Instr.rdShort w) :=
  ⟨⟨maskW, 0x03⟩, by decide, commandWord_maskW _ w⟩

theorem rdInt (w : Int) : Statement (Instr.rdInt w) :=
  ⟨⟨maskW, 0x04⟩, by decide, commandWord_maskW _ w⟩

theorem rdLong (w : Int) : Statement (Instr.rdLong w) :=
  ⟨⟨maskW, 0x05⟩, by decide, commandWord_maskW _ w⟩

theorem rdPint (w : Int) : Statement (Instr.rdPint w) :=
  ⟨⟨maskW, 0x06⟩, by decide, commandWord_maskW _ w⟩

theorem rdSint (w : Int) (flag : Bool) : Statement (Instr.rdSint w flag) :=
  ⟨⟨maskWS, 0x07⟩, by decide, commandWord_maskWS _ w flag⟩

theorem rdFloat (e m : Int) (flag : Bool) : Statement (Instr.rdFloat e m flag) :=
  ⟨⟨maskF, 0x08⟩, by decide, commandWord_maskF _ e m flag⟩

theorem rdDouble (e m : Int) (flag : Bool) : Statement (Instr.rdDouble e m flag) :=
  ⟨⟨maskF, 0x09⟩, by decide, commandWord_maskF _ e m flag⟩

theorem rdVarint (g : Int) : Statement (Instr.rdVarint g) :=
  ⟨⟨maskW, 0x0A⟩, by decide, commandWord_maskW _ g⟩

theorem rdDec (d : Int) : Statement (Instr.rdDec d) :=
  ⟨⟨maskW, 0x0B⟩, by decide, commandWord_maskW _ d⟩

theorem rdStat (n : Int) : Statement (Instr.rdStat n) :=
  ⟨⟨maskW, 0x0C⟩, by decide, commandWord_maskW _ n⟩

theorem wrBit : Statement (Instr.wrBit) :=
  ⟨⟨maskN, 0x40⟩, by decide, commandWord_maskN _⟩

theorem wrBool : Statement (Instr.wrBool) :=
  ⟨⟨maskN, 0x41⟩, by decide, commandWord_maskN _⟩

theorem wrByte (w : Int) : Statement (Instr.wrByte w) :=
  ⟨⟨maskW, 0x42⟩, by decide, commandWord_maskW _ w⟩

theorem wrShort (w : Int) : Statement (Instr.wrShort w) :=
  ⟨⟨maskW, 0x43⟩, by decide, commandWord_maskW _ w⟩

theorem wrInt (w : Int) : Statement (Instr.wrInt w) :=
  ⟨⟨maskW, 0x44⟩, by decide, commandWord_maskW _ w⟩

theorem wrLong (w : Int) : Statement (Instr.wrLong w) :=
  ⟨⟨maskW, 0x45⟩, by decide, commandWord_maskW _ w⟩

theorem wrPint (w : Int) : Statement (Instr.wrPint w) :=
  ⟨⟨maskW, 0x46⟩, by decide, commandWord_maskW _ w⟩

theorem wrSint (w : Int) (flag : Bool) : Statement (Instr.wrSint w flag) :=
  ⟨⟨maskWS, 0x47⟩, by decide, commandWord_maskWS _ w flag⟩

theorem wrFloat (e m : Int) (flag : Bool) : Statement (Instr.wrFloat e m flag) :=
  ⟨⟨maskF, 0x48⟩, by decide, commandWord_maskF _ e m flag⟩

theorem wrDouble (e m : Int) (flag : Bool) : Statement (Instr.wrDouble e m flag) :=
  ⟨⟨maskF, 0x49⟩, by decide, commandWord_maskF _ e m flag⟩

theorem wrVarint (g : Int) : Statement (Instr.wrVarint g) :=
  ⟨⟨maskW, 0x4A⟩, by decide, commandWord_maskW _ g⟩

theorem wrDec (d : Int) : Statement (Instr.wrDec d) :=
  ⟨⟨maskW, 0x4B⟩, by decide, commandWord_maskW _ d⟩

theorem wrPack : Statement (Instr.wrPack) :=
  ⟨⟨maskN, 0x4C⟩, by decide, commandWord_maskN _⟩

theorem wrStat (n : Int) : Statement (Instr.wrStat n) :=
  ⟨⟨maskW, 0x4D⟩, by decide, commandWord_maskW _ n⟩

theorem twGetbit8 (pos : Int) : Statement (Instr.twGetbit8 pos) :=
  ⟨⟨maskW, 0x80⟩, by decide, commandWord_maskW _ pos⟩

theorem twGetbit16 (pos : Int) : Statement (Instr.twGetbit16 pos) :=
  ⟨⟨maskW, 0x81⟩, by decide, commandWord_maskW _ pos⟩

theorem twGetbit32 (pos : Int) : Statement (Instr.twGetbit32 pos) :=
  ⟨⟨maskW, 0x82⟩, by decide, commandWord_maskW _ pos⟩

theorem twGetbit64 (pos : Int) : Statement (Instr.twGetbit64 pos) :=
  ⟨⟨maskW, 0x83⟩, by decide, commandWord_maskW _ pos⟩

theorem twSetbit8 (pos : Int) (flag : Bool) : Statement (Instr.twSetbit8 pos flag) :=
  ⟨⟨maskWS, 0x84⟩, by decide, commandWord_maskWS _ pos flag⟩

theorem twSetbit16 (pos : Int) (flag : Bool) : Statement (Instr.twSetbit16 pos flag) :=
  ⟨⟨maskWS, 0x85⟩, by decide, commandWord_maskWS _ pos flag⟩

theorem twSetbit32 (pos : Int) (flag : Bool) : Statement (Instr.twSetbit32 pos flag) :=
  ⟨⟨maskWS, 0x86⟩, by decide, commandWord_maskWS _ pos flag⟩

theorem twSetbit64 (pos : Int) (flag : Bool) : Statement (Instr.twSetbit64 pos flag) :=
  ⟨⟨maskWS, 0x87⟩, by decide, commandWord_maskWS _ pos flag⟩

theorem twBitsneeded : Statement (Instr.twBitsneeded) :=
  ⟨⟨maskN, 0x88⟩, by decide, commandWord_maskN _⟩

end Sys2Proof.Laws.WordMatchesRow
end

