-- ==== Sys2Proof/Tests/Slice0.lean ====
section
/-! SUPPORT. Own tests: ill-formed commands are refused, every command's word decodes, one step of every command, and
for every statement with hypotheses a state and operands that meet them. Expected values are those of spec
95_test_vectors (V…, P…, S… name its rows) or are worked out by hand from the rule named. -/

namespace Sys2Proof.Tests

open Sys2Proof Sys2Proof.Machine

/-! ### Well-formedness: an operand that does not fit its field (30_encoding R83) -/

theorem test_illFormed_rdFixed :
    (Instr.rdByte 128).WellFormed = false ∧ (Instr.rdShort (-129)).WellFormed = false ∧
    (Instr.rdInt 128).WellFormed = false ∧ (Instr.rdLong 256).WellFormed = false ∧
    (Instr.rdPint 128).WellFormed = false ∧ (Instr.rdSint 128 true).WellFormed = false := by decide

theorem test_illFormed_wrFixed :
    (Instr.wrByte 128).WellFormed = false ∧ (Instr.wrShort (-129)).WellFormed = false ∧
    (Instr.wrInt 128).WellFormed = false ∧ (Instr.wrLong 256).WellFormed = false ∧
    (Instr.wrPint 128).WellFormed = false ∧ (Instr.wrSint (-129) false).WellFormed = false := by decide

theorem test_illFormed_floats :
    (Instr.rdFloat 128 1 true).WellFormed = false ∧ (Instr.rdFloat 1 128 true).WellFormed = false ∧
    (Instr.rdDouble (-129) 1 true).WellFormed = false ∧ (Instr.rdDouble 1 (-129) true).WellFormed = false ∧
    (Instr.wrFloat 128 1 true).WellFormed = false ∧ (Instr.wrFloat 1 128 true).WellFormed = false ∧
    (Instr.wrDouble (-129) 1 true).WellFormed = false ∧ (Instr.wrDouble 1 (-129) true).WellFormed = false := by decide

theorem test_illFormed_varint_decimal_status :
    (Instr.rdVarint 128).WellFormed = false ∧ (Instr.wrVarint (-129)).WellFormed = false ∧
    (Instr.rdDec 128).WellFormed = false ∧ (Instr.wrDec (-129)).WellFormed = false ∧
    (Instr.rdStat 128).WellFormed = false ∧ (Instr.wrStat (-129)).WellFormed = false := by decide

theorem test_illFormed_twiddle :
    (Instr.twGetbit8 128).WellFormed = false ∧ (Instr.twGetbit16 (-129)).WellFormed = false ∧
    (Instr.twGetbit32 128).WellFormed = false ∧ (Instr.twGetbit64 (-129)).WellFormed = false ∧
    (Instr.twSetbit8 128 true).WellFormed = false ∧ (Instr.twSetbit16 (-129) true).WellFormed = false ∧
    (Instr.twSetbit32 128 false).WellFormed = false ∧ (Instr.twSetbit64 (-129) false).WellFormed = false := by decide

/-! ### Decoding: the words of 95_test_vectors, fields `Z S | B | A | OPC` of 30_encoding R81 -/

theorem test_decode_reader_integers :
    decode 0x00000000 = .command .rdBit ∧ decode 0x00000001 = .command .rdBool ∧
    decode 0x0000FF02 = .command (.rdByte (-1)) ∧ decode 0x00000903 = .command (.rdShort 9) ∧
    decode 0x00002004 = .command (.rdInt 32) ∧ decode 0x00004005 = .command (.rdLong 64) ∧
    decode 0x00001F06 = .command (.rdPint 31) ∧ decode 0x01000407 = .command (.rdSint 4 true) ∧
    decode 0x0000020C = .command (.rdStat 2) := by decide

theorem test_decode_reader_others :
    decode 0x010A0508 = .command (.rdFloat 5 10 true) ∧ decode 0x00340C09 = .command (.rdDouble 12 52 false) ∧
    decode 0x0000070A = .command (.rdVarint 7) ∧ decode 0x0000130B = .command (.rdDec 19) := by decide

theorem test_decode_writer_integers :
    decode 0x00000040 = .command .wrBit ∧ decode 0x00000041 = .command .wrBool ∧
    decode 0x00000342 = .command (.wrByte 3) ∧ decode 0x00001043 = .command (.wrShort 16) ∧
    decode 0x00000444 = .command (.wrInt 4) ∧ decode 0x00004045 = .command (.wrLong 64) ∧
    decode 0x00002846 = .command (.wrPint 40) ∧ decode 0x01001F47 = .command (.wrSint 31 true) ∧
    decode 0x0000034D = .command (.wrStat 3) := by decide

theorem test_decode_writer_others :
    decode 0x01170848 = .command (.wrFloat 8 23 true) ∧ decode 0x01340B49 = .command (.wrDouble 11 52 true) ∧
    decode 0x0000404A = .command (.wrVarint 64) ∧ decode 0x0000FF4B = .command (.wrDec (-1)) ∧
    decode 0x0000004C = .command .wrPack := by decide

theorem test_decode_twiddle :
    decode 0x0000FF80 = .command (.twGetbit8 (-1)) ∧ decode 0x00000F81 = .command (.twGetbit16 15) ∧
    decode 0x00001F82 = .command (.twGetbit32 31) ∧ decode 0x00003F83 = .command (.twGetbit64 63) ∧
    decode 0x01000784 = .command (.twSetbit8 7 true) ∧ decode 0x00000885 = .command (.twSetbit16 8 false) ∧
    decode 0x0100FF86 = .command (.twSetbit32 (-1) true) ∧ decode 0x01003F87 = .command (.twSetbit64 63 true) ∧
    decode 0x00000088 = .command .twBitsneeded := by decide

/-- P3, steps 10 to 13 and 15, and the first word above the opcodes of TWU. -/
theorem test_decode_illegal :
    decode 0x0000000D = .illegal .unassignedOpcode ∧ decode 0x000000C0 = .illegal .unassignedOpcode ∧
    decode 0x00000089 = .illegal .unassignedOpcode ∧ decode 0x02000802 = .illegal .reservedBitsSet ∧
    decode 0x00010802 = .illegal .unusedFieldSet ∧ decode 0x00000100 = .illegal .unusedFieldSet := by decide

/-- The host's reading of a table row: the low `nbits` bits alone. -/
theorem test_decodeTableWord : decodeTableWord 32 0x1000000447 = some (.wrSint 4 false) := by decide

/-! ### One step -/

/-- The state with one command presented. -/
def presented (s : State) (cw : CommandWord) (opd opd2 : Word) : State := { s with port := [.command ⟨cw, opd, opd2⟩] }

/-- What one step leaves. -/
def stepped (s : State) : State :=
  match step s with
  | .next t => t
  | _ => s

/-- `ST` and `RES` of the latest response. -/
def reply (s : State) : Nat × Nat :=
  match s.responses with
  | r :: _ => (r.st.toNat, r.res.toNat)
  | [] => (15, 0)

/-- A reader just reset on the given bytes and moved to `cur`. -/
def readerOn (bytes : List Byte) (cur : Nat) : State :=
  { State.reset with rdu := { Rdu.resetWith bytes with rcur := cur } }

/-- `ST`, `RES`, `RCUR`, `RCNT` after one reader command. -/
def read (bytes : List Byte) (cur : Nat) (cw : CommandWord) (opd2 : Word := 0) : (Nat × Nat) × Nat × Nat :=
  let t := stepped (presented (readerOn bytes cur) cw 0 opd2)
  (reply t, t.rdu.rcur, t.rdu.rcnt)

/-- Status, `WCUR`, `WCNT`, the bytes of `WMEM` and `WACC` after one writer command. -/
def written (s : State) (cw : CommandWord) (opd : Word) (opd2 : Word := 0) : Nat × Nat × Nat × List Byte × Byte :=
  let t := stepped (presented s cw opd opd2)
  ((reply t).1, t.wru.wcur, t.wru.wcnt, t.wru.bytes, t.wru.wacc)

/-- `ST` and `RES` of one command without effect. -/
def answered (cw : CommandWord) (opd : Word) : Nat × Nat := reply (stepped (presented State.reset cw opd 0))

/-- V10, where `WCUR` is 11: a whole byte and three bits in the accumulator. -/
def midStream : State := { State.reset with wru := ⟨11, 11, 1, [(0, 0xA5)], 0x03, false⟩ }

/-- The same stream, finalized. -/
def packedStream : State := { State.reset with wru := ⟨11, 11, 2, [(0, 0xA5), (1, 0x03)], 0x00, true⟩ }

theorem test_rdBit_beyondTheEnd : read [] 0 0x00000000 = ((0, 0), 1, 0) := by decide                       -- V5
theorem test_rdBit_lastBit : read [0x80] 7 0x00000000 = ((0, 1), 8, 0) := by decide                        -- V7, R110
theorem test_rdBool_lastBit : read [0x80] 7 0x00000001 = ((0, 1), 8, 1) := by decide                       -- V7
theorem test_rdBool_beyondTheEnd : read [0x80] 8 0x00000001 = ((0, 0), 9, 1) := by decide                  -- V8
theorem test_rdByte_acrossBytes : read [0xFF, 0x01] 1 0x00000802 = ((0, 0xFF), 9, 8) := by decide          -- V9
theorem test_rdByte_width9 : read [0xFF, 0xFF] 0 0x00000902 = ((1, 0), 0, 0) := by decide                  -- P3 step 2
theorem test_rdShort : read [0x34, 0x12] 0 0x00001003 = ((0, 0x1234), 16, 16) := by decide                 -- V15
theorem test_rdInt : read [0xFB, 0xFF, 0xFF, 0xFF] 0 0x00002004 = ((0, 0xFFFFFFFB), 32, 32) := by decide   -- V17
theorem test_rdLong :
    read [0xEF, 0xCD, 0xAB, 0x89, 0x67, 0x45, 0x23, 0x01] 0 0x00004005 = ((0, 0x0123456789ABCDEF), 64, 64) := by
  decide +kernel                                                                                                   -- V19
theorem test_rdPint : read [0xFF, 0xFF, 0xFF, 0x7F] 0 0x00001F06 = ((0, 0x7FFFFFFF), 31, 31) := by decide  -- V27
theorem test_rdPint_width32 : read [] 0 0x00002006 = ((1, 0), 0, 0) := by decide                           -- V29a
theorem test_rdSint_signLast : read [0x1B] 0 0x01000407 = ((0, 0x8000000B), 5, 4) := by decide             -- V20
theorem test_rdSint_signOverwrites : read [0xFB, 0xFF, 0xFF, 0xFF] 0 0x01002007 = ((0, 0x7FFFFFFB), 33, 32) := by
  decide                                                                             -- R119: the 33rd bit is beyond
theorem test_rdStat_length : read [0x04] 22 0x0000020C = ((0, 1), 22, 0) := by decide                      -- P4
theorem test_rdStat_3 : read [0xFF, 0xFF] 0 0x0000030C = ((6, 0), 0, 0) := by decide                       -- P3 step 14
theorem test_rdFloat : read [0x5F, 0x55] 0 0x010A0508 = ((0, 0x87800155), 16, 15) := by decide             -- V30
theorem test_rdDouble : read [0xFF, 0x0F] 0 0x00010B09 = ((0, 0x7FF0000000000001), 12, 12) := by decide    -- V9d
theorem test_rdDouble_e12 : read [0xFF, 0xFF] 0 0x00340C09 = ((1, 0), 0, 0) := by decide                   -- P3 step 8
theorem test_rdVarint : read [0xAC, 0x02] 0 0x0000070A = ((0, 0x12C), 16, 14) := by decide                 -- V51
theorem test_rdVarint_dropped :
    read [0xFF, 0xFF, 0xFF, 0xFF, 0xFF, 0xFF, 0xFF, 0xFF, 0xFF, 0x7F] 0 0x0000070A =
      ((0, 0xFFFFFFFFFFFFFFFF), 80, 70) := by decide                                                       -- V76
theorem test_rdDec : read [0x97, 0x01] 0 0x0000020B 7 = ((0, 0xC00A000000000000), 11, 10) := by decide     -- V40
theorem test_rdDec_allOnes : read [0xFF, 0xFF] 0 0x0000020B 7 = ((0, 0xC0208A3D70A3D70A), 11, 10) := by decide -- V9i

theorem test_wrBit : written State.reset 0x00000040 0xFFFFFFFFFFFFFFFE = (0, 1, 0, [], 0x00) := by decide   -- V4
theorem test_wrBool : written midStream 0x00000041 1 = (0, 12, 12, [0xA5], 0x0B) := by decide              -- R58, R161
theorem test_wrBool_finalized : written packedStream 0x00000041 1 = (5, 11, 11, [0xA5, 0x03], 0x00) := by
  decide                                                                                                   -- P1 step 6
theorem test_wrByte : written State.reset 0x00000342 0xFF = (0, 3, 3, [], 0x07) := by decide               -- V12
theorem test_wrByte_completes : written State.reset 0x00000842 0xA5 = (0, 8, 8, [0xA5], 0x00) := by decide -- V11
theorem test_wrShort : written midStream 0x00001043 0x1234 = (0, 27, 27, [0xA5, 0xA3, 0x91], 0x00) := by
  decide                                                                                                   -- V10
theorem test_wrInt : written State.reset 0x00000444 0xFFFFFFFFFFFFFFFB = (0, 4, 4, [], 0x0B) := by decide  -- V18
theorem test_wrLong :
    written State.reset 0x00004045 0x0123456789ABCDEF =
      (0, 64, 64, [0xEF, 0xCD, 0xAB, 0x89, 0x67, 0x45, 0x23, 0x01], 0x00) := by decide +kernel                     -- V19
theorem test_wrPint : written State.reset 0x00000446 0x17 = (0, 4, 4, [], 0x07) := by decide               -- P3 step 18
theorem test_wrPint_negative : written State.reset 0x00000546 0x80000000 = (3, 0, 0, [], 0x00) := by decide -- V28
theorem test_wrSint : written State.reset 0x01000447 0xFFFFFFFFFFFFFFFB = (0, 5, 4, [], 0x1B) := by decide -- V20
theorem test_wrStat_length : reply (stepped (presented packedStream 0x0000024D 0 0)) = (0, 2) := by decide -- R170
theorem test_wrStat_final : reply (stepped (presented packedStream 0x0000034D 0 0)) = (0, 1) := by decide  -- R170
theorem test_wrFloat : written State.reset 0x010A0548 0x87800155 = (0, 16, 15, [0x5F, 0x55], 0x00) := by decide -- V30
theorem test_wrDouble : written State.reset 0x00010A49 0xBFF8000000000000 = (0, 11, 11, [0xFF], 0x03) := by
  decide                                                                                                   -- V33
theorem test_wrVarint : written State.reset 0x0000044A 0x10 = (0, 10, 8, [0x30], 0x00) := by decide        -- V55
theorem test_wrVarint_64 : written State.reset 0x0000404A 0 =
    (0, 65, 64, [0x00, 0x00, 0x00, 0x00, 0x00, 0x00, 0x00, 0x00], 0x00) := by decide +kernel                       -- V64
theorem test_wrDec : written State.reset 0x0000024B 0xC00A000000000000 7 = (0, 11, 10, [0x97], 0x01) := by
  decide                                                                                                   -- V40
/-- R203: of negative infinity the sign bit and the widths are fixed. -/
theorem test_wrDec_infinity :
    (stepped (presented State.reset 0x0000004B 0xFFF0000000000000 1)).wru.wcur = 3 ∧
    nonFiniteSign 0xFFF0000000000000 = true ∧ nonFiniteSign 0xFFF8000000000000 = false := by decide
theorem test_wrPack : written midStream 0x0000004C 0 = (0, 11, 11, [0xA5, 0x03], 0x00) := by decide        -- R210
theorem test_wrPack_again : reply (stepped (presented packedStream 0x0000004C 0 0)) = (0, 2) := by decide  -- R211

theorem test_twGetbit8 : answered 0x00000780 0xFFFFFFFFFFFFFF80 = (0, 1) := by decide                      -- V82
theorem test_twGetbit8_minus1 : answered 0x0000FF80 0xFF = (7, 0) := by decide                             -- V84
theorem test_twGetbit16 : answered 0x00000F81 0x8000 = (0, 1) := by decide                                 -- V85
theorem test_twGetbit16_16 : answered 0x00001081 0x18000 = (7, 0) := by decide                             -- V86
theorem test_twGetbit32 : answered 0x00001F82 0x8000000B = (0, 1) := by decide                             -- V87
theorem test_twGetbit64 : answered 0x00003F83 0x8000000000000000 = (0, 1) := by decide                     -- V89
theorem test_twSetbit8 : answered 0x01000784 0x01 = (0, 0x81) := by decide                                 -- V92
theorem test_twSetbit8_clear : answered 0x00000084 0xFF = (0, 0xFE) := by decide                           -- V93
theorem test_twSetbit16 : answered 0x00000885 0xFFFFFFFF = (0, 0xFEFF) := by decide                        -- V98
theorem test_twSetbit32 : answered 0x00001F86 0xFFFFFFFFFFFFFFFF = (0, 0x7FFFFFFF) := by decide            -- V100
theorem test_twSetbit64 : answered 0x01003F87 0 = (0, 0x8000000000000000) := by decide                     -- V102
theorem test_twBitsneeded_8 : answered 0x00000088 8 = (0, 3) := by decide                                  -- V118
theorem test_twBitsneeded_negative : answered 0x00000088 0xFFFFFFFFFFFFFFF9 = (0, 1) := by decide          -- V128

theorem test_illegalWord : answered 0x000000C0 0 = (6, 0) := by decide                                     -- P3 step 15

/-- The word the host places is the one the next step runs: `TW_BITSNEEDED` of 0 (V110). -/
theorem test_withFetchWord : reply (stepped (State.reset.withFetchWord 32 0x00000088)) = (0, 1) := by decide

/-! ### States and operands that meet the hypotheses of the statements -/

/-- The bytes of a buffer whose bit 15 is beyond a reader that stands at bit 11. -/
def reader : State := readerOn [0xA5, 0xA3] 11

/-- A command word decodes, and its operand stands at an end of its field. -/
theorem witness_EncodedW : (0x0000FF02 : CommandWord) &&& 0xFFFF00FF#32 = 0x02 ∧
    (0x0000804D : CommandWord) &&& 0xFFFF00FF#32 = 0x4D ∧ (0x00007F80 : CommandWord) &&& 0xFFFF00FF#32 = 0x80 := by
  decide
theorem witness_EncodedWS : (0x0100FF07 : CommandWord) &&& 0xFEFF00FF#32 = 0x07 ∧
    (0x00008087 : CommandWord) &&& 0xFEFF00FF#32 = 0x87 := by decide
theorem witness_EncodedF : (0x01800008 : CommandWord) &&& 0xFE0000FF#32 = 0x08 ∧
    (0x007FFF49 : CommandWord) &&& 0xFE0000FF#32 = 0x49 := by decide
theorem witness_EncodedN : (0x4C : CommandWord) &&& 0xFFFFFFFF#32 = 0x4C := by decide

theorem witness_DecodeOfEncodeIsTheCommand :
    (Instr.rdByte (-128)).WellFormed = true ∧ (Instr.wrDouble 127 (-128) true).WellFormed = true ∧
    (Instr.twSetbit64 127 false).WellFormed = true ∧ Instr.wrPack.WellFormed = true := by decide

theorem witness_DecodeIsTheOpcodeTable : decode 0x0000FF02 = .command (.rdByte (-1)) := by decide

/-- One word for each line of 30_encoding R88, the opcodes at both ends of their ranges. -/
theorem witness_IllegalCommandWord :
    IllegalCommandWord 0x02000802 ∧ IllegalCommandWord 0x80000000 ∧ IllegalCommandWord 0x0D ∧
    IllegalCommandWord 0x3F ∧ IllegalCommandWord 0x4E ∧ IllegalCommandWord 0x7F ∧ IllegalCommandWord 0x89 ∧
    IllegalCommandWord 0xBF ∧ IllegalCommandWord 0xC0 ∧ IllegalCommandWord 0xFF ∧
    IllegalCommandWord 0x00000100 ∧ IllegalCommandWord 0x00010041 ∧ IllegalCommandWord 0x01000088 ∧
    IllegalCommandWord 0x00010802 ∧ IllegalCommandWord 0x01000802 ∧ IllegalCommandWord 0x00010407 ∧
    IllegalCommandWord 0x0000030C ∧ IllegalCommandWord 0x0000FF0C ∧ IllegalCommandWord 0x0000044D ∧
    IllegalCommandWord 0x0000FF4D := by
  simp +decide [IllegalCommandWord]

/-- Words of commands, the operands at the ends of what is no illegal word. -/
theorem witness_LegalCommandWord :
    ¬IllegalCommandWord 0x00 ∧ ¬IllegalCommandWord 0x0C ∧ ¬IllegalCommandWord 0x40 ∧ ¬IllegalCommandWord 0x4D ∧
    ¬IllegalCommandWord 0x80 ∧ ¬IllegalCommandWord 0x88 ∧ ¬IllegalCommandWord 0x0000FF02 ∧
    ¬IllegalCommandWord 0x0000020C ∧ ¬IllegalCommandWord 0x0000034D ∧ ¬IllegalCommandWord 0x01FFFF09 := by
  simp +decide [IllegalCommandWord]

/-- A state with a command presented, for the statements on a step that runs one or answers an illegal word. -/
theorem witness_commandPresented :
    (presented reader 0x00000802 0 0).port = .command ⟨0x00000802, 0, 0⟩ :: [] ∧
    decode 0x00000802 = .command (.rdByte 8) ∧ (presented reader 0xC0 0 0).port = .command ⟨0xC0, 0, 0⟩ :: [] := by
  decide

theorem witness_RduResetTakesTheHostsBuffer :
    (State.mk reader.rdu midStream.wru [.resetRdu [0x01, 0x00]] [] .halfUp 0).port = .resetRdu [0x01, 0x00] :: [] := rfl

/-- A step without a reset of RDU, whose buffer it keeps. -/
theorem witness_stepWithoutRduReset :
    step (State.mk reader.rdu midStream.wru [.resetWru] [] .halfUp 0) =
      .next (State.mk reader.rdu Wru.reset [] [] .halfUp 0) ∧
    ∀ bs more, (State.mk reader.rdu midStream.wru [.resetWru] [] .halfUp 0).port ≠ .resetRdu bs :: more :=
  ⟨rfl, by simp⟩

theorem witness_WruResetClearsTheStream :
    (State.mk reader.rdu midStream.wru [.resetWru] [] .halfUp 0).port = .resetWru :: [] := rfl

/-- The width ranges of the reads and writes, at both ends and just outside. -/
theorem witness_widths : ∀ T ∈ [8, 16, 32, 64, 31], ((1 : Int) ≤ 1 ∧ (1 : Int) ≤ (T : Nat)) ∧
    ((1 : Int) ≤ (T : Nat) ∧ ((T : Nat) : Int) ≤ (T : Nat)) ∧ ((0 : Int) < 1 ∨ ((T : Nat) : Int) < 0) ∧
    (((T + 1 : Nat) : Int) < 1 ∨ ((T : Nat) : Int) < (T + 1 : Nat)) := by decide

/-- The status registers that do not exist, next to those that do. -/
theorem witness_statusRegisters : ((-1 : Int) < 0 ∨ (2 : Int) < -1) ∧ ((3 : Int) < 0 ∨ (2 : Int) < 3) ∧
    ((-1 : Int) < 0 ∨ (3 : Int) < -1) ∧ ((4 : Int) < 0 ∨ (3 : Int) < 4) := by decide

/-- Two fields that join, at the least and at the greatest total. -/
theorem witness_ReadsOfAdjacentFieldsJoin : ∀ T ∈ [8, 16, 32, 64, 31],
    ((1 : Int) ≤ 1 ∧ (1 : Int) ≤ 1 ∧ (1 : Int) + 1 ≤ (T : Nat)) ∧
    ((1 : Int) ≤ 1 ∧ (1 : Int) ≤ ((T - 1 : Nat) : Int) ∧ 1 + ((T - 1 : Nat) : Int) ≤ (T : Nat)) := by decide

/-- The float fields at both ends of their ranges, and each way to leave them. -/
theorem witness_floatFields : ∀ f ∈ [(8, 23), (11, 52)],
    ((1 : Int) ≤ 1 ∧ (1 : Int) ≤ (f.1 : Nat) ∧ (1 : Int) ≤ 1 ∧ (1 : Int) ≤ (f.2 : Nat)) ∧
    ((1 : Int) ≤ (f.1 : Nat) ∧ ((f.1 : Nat) : Int) ≤ (f.1 : Nat) ∧ (1 : Int) ≤ (f.2 : Nat) ∧
      ((f.2 : Nat) : Int) ≤ (f.2 : Nat)) ∧
    (0 : Int) < 1 ∧ ((f.1 : Nat) : Int) < (f.1 + 1 : Nat) ∧ ((f.2 : Nat) : Int) < (f.2 + 1 : Nat) := by decide

/-- The group sizes at both ends and just outside; a value with bit 63 set. -/
theorem witness_VarintWriteGroupCount : (1 : Int) ≤ 64 ∧ (64 : Int) ≤ 64 ∧
    (presented midStream 0x4A 0x8000000000000000 0).wru.wfin = false ∧
    (presented midStream 0x4A 0x8000000000000000 0).opd.getLsbD 63 = true := by decide

theorem witness_groupSizes : ((1 : Int) ≤ 1 ∧ (1 : Int) ≤ 64) ∧ ((1 : Int) ≤ 64 ∧ (64 : Int) ≤ 64) ∧
    ((0 : Int) < 1 ∨ (64 : Int) < 0) ∧ ((65 : Int) < 1 ∨ (64 : Int) < 65) := by decide

/-- `OPD2` and `d` of the decimal commands at both ends, and each way to leave the range (43 R153). -/
theorem witness_decimalRange :
    0 < (presented reader 0x0B 0 1).opd2.toInt ∧ 0 < (presented reader 0x0B 0 0x7FFFFFFFFFFFFFFF).opd2.toInt ∧
    ((0 : Int) ≤ 0 ∧ (0 : Int) ≤ 18) ∧ ((0 : Int) ≤ 18 ∧ (18 : Int) ≤ 18) ∧
    (presented reader 0x0B 0 0).opd2.toInt ≤ 0 ∧ (presented reader 0x0B 0 0x8000000000000000).opd2.toInt ≤ 0 ∧
    (-1 : Int) < 0 ∧ (18 : Int) < 19 := by decide

theorem one_lt_three_mul_two_pow (k : Nat) : 1 < 3 * 2 ^ k := by
  have := Nat.one_le_two_pow (n := k); omega

theorem two_lt_two_pow (k : Nat) (h : 1 < k) : (2 : ℚ) < 2 ^ k := lt_self_pow₀ one_lt_two h

/-- The value of the pattern of 1.0 (00_scope R8, R13). -/
theorem f64Real_one : f64Real 0x3FF0000000000000 = 1 := by
  have e : ((0x3FF0000000000000 : Word).extractLsb' 52 11).toNat = 1023 := by decide
  have m : ((0x3FF0000000000000 : Word).extractLsb' 0 52).toNat = 0 := by decide
  have s : (0x3FF0000000000000 : Word).getLsbD 63 = false := by decide
  simp only [f64Real, e, m, s]; norm_num

theorem witness_BinaryOperations_operands :
    (0 < 3 ∧ 1 < 3 * 2 ^ 1023) ∧ F64Finite 0x3FF0000000000000 ∧ F64Finite 0x0000000000000000 ∧
    (0x3FF0000000000000 : Word).getLsbD 63 = false ∧ (0x0000000000000000 : Word).getLsbD 63 = false :=
  ⟨⟨by decide, one_lt_three_mul_two_pow 1023⟩, by decide, by decide, by decide, by decide⟩

/-- The arithmetic hypotheses, with 1 for both operands. -/
theorem witness_BinaryOperations_values :
    f64Real 0x3FF0000000000000 * f64Real 0x3FF0000000000000 < 2 ^ 1023 ∧ f64Real 0x3FF0000000000000 ≠ 0 ∧
    f64Real 0x3FF0000000000000 / f64Real 0x3FF0000000000000 < 2 ^ 1023 ∧
    f64Real 0x3FF0000000000000 + f64Real 0x3FF0000000000000 < 2 ^ 1023 := by
  have two := two_lt_two_pow 1023 (by decide)
  have one := lt_trans one_lt_two two
  rw [f64Real_one, one_mul, div_one, one_add_one_eq_two]
  exact ⟨one, one_ne_zero, one, two⟩

theorem witness_DecCombineFollowsItsFormula : 2 ^ 63 - 1 < 2 ^ 63 ∧ 2 ^ 60 - 1 < 2 ^ 60 ∧ 0 ≤ 18 ∧ 18 ≤ 18 := by
  decide

/-- The greatest finite pattern, the least negative one and zero. -/
theorem witness_F64Finite : F64Finite 0x7FEFFFFFFFFFFFFF ∧ F64Finite 0x8000000000000001 ∧ F64Finite 0 := by decide

/-- An infinity and a NaN. -/
theorem witness_notF64Finite : ¬F64Finite 0xFFF0000000000000 ∧ ¬F64Finite 0x7FF8000000000000 := by decide

/-- A writer in the middle of a byte and one just reset: both meet the invariant and are not finalized. -/
theorem witness_WruInv_open : WruInv midStream.wru ∧ midStream.wru.wfin = false ∧
    WruInv State.reset.wru ∧ State.reset.wru.wfin = false := by decide

/-- A finalized writer that meets the invariant. -/
theorem witness_WruInv_final : WruInv packedStream.wru ∧ packedStream.wru.wfin = true := by decide

/-- `WR_PACK` with a partial byte and without. -/
theorem witness_PackFlushesOnceAndFinalizes : midStream.wru.wcur % 8 ≠ 0 ∧ midStream.wru.wmem.wf = true ∧
    State.reset.wru.wcur % 8 = 0 := by decide

/-- A negative operand of `WR_PINT` and one that is not: bit 31 alone decides. -/
theorem witness_PositiveOnlyWrite : (presented midStream 0x446 0x80000000 0).opd.getLsbD 31 = true ∧
    (presented midStream 0x446 0xFFFFFFFF00000001 0).opd.getLsbD 31 = false := by decide

/-- Bit positions at both ends of each operand, and just outside. -/
theorem witness_bitPositions : ∀ n ∈ [8, 16, 32, 64], ((0 : Int) ≤ 0 ∧ (0 : Int) ≤ (n : Nat) - 1) ∧
    ((0 : Int) ≤ ((n - 1 : Nat) : Int) ∧ ((n - 1 : Nat) : Int) ≤ (n : Nat) - 1) ∧
    ((-1 : Int) < 0 ∨ ((n : Nat) : Int) - 1 < -1) ∧ (((n : Nat) : Int) < 0 ∨ ((n : Nat) : Int) - 1 < (n : Nat)) := by
  decide

theorem witness_SetBitAndGetBitLaws : 0 < 8 ∧ 7 < 8 ∧ 7 ≠ 0 := by decide

/-- A command that ends with an error and one that does not, as the exec clause and the step clause meet them. -/
theorem witness_ErrorsChangeNoUnit :
    exec (.rdByte 9) reader = .next (stepped (presented reader 0x902 0 0)) ∧
    exec (.rdByte 8) reader = .next (stepped (presented reader 0x802 0 0)) := ⟨rfl, rfl⟩

/-- A state that meets the block's invariant, with work done in both units, and a step from it. -/
theorem witness_EveryStepKeepsTheInvariant :
    Inv (State.mk reader.rdu midStream.wru [.resetWru] [⟨0, 7⟩, ⟨6, 0⟩] .halfUp 0) ∧
    step (State.mk reader.rdu midStream.wru [.resetWru] [⟨0, 7⟩, ⟨6, 0⟩] .halfUp 0) =
      .next (State.mk reader.rdu Wru.reset [] [⟨0, 7⟩, ⟨6, 0⟩] .halfUp 0) := ⟨by decide, rfl⟩

/-- A reader whose counter does not exceed its cursor, and one at the end of its buffer. -/
theorem witness_ReaderInvariantsHold : reader.rdu.rcnt ≤ reader.rdu.rcur ∧
    8 * (readerOn [0xA5] 8).rdu.rlen ≤ (readerOn [0xA5] 8).rdu.rcur := by decide

theorem witness_WriterInvariantsHold :
    exec .wrPack midStream = .next (stepped (presented midStream 0x4C 0 0)) := rfl

/-- A command of each unit, and two states that agree on the reader, or on the writer, and differ elsewhere. -/
theorem witness_CommandsReadAndWriteOneUnit :
    unitOf .rdBit = .rdu ∧ unitOf .wrPack = .wru ∧ unitOf .twBitsneeded = .twu ∧
    reader.rdu = (State.mk reader.rdu midStream.wru [] [⟨0, 1⟩] .halfUp 0).rdu ∧
    midStream.wru = (State.mk reader.rdu midStream.wru [] [⟨0, 1⟩] .halfUp 0).wru ∧
    reader.opd = (State.mk reader.rdu midStream.wru [] [⟨0, 1⟩] .halfUp 0).opd ∧
    reader.opd2 = (State.mk reader.rdu midStream.wru [] [⟨0, 1⟩] .halfUp 0).opd2 := by decide

theorem witness_CommandsToDifferentUnitsCommute :
    decode 0x00000802 = .command (.rdByte 8) ∧ decode 0x0000004C = .command .wrPack ∧
    unitOf (.rdByte 8) ≠ unitOf .wrPack := by decide

theorem witness_TrailingZeroBytesAreInvisible :
    RduInv reader.rdu ∧ Instr.rdVarint 7 ≠ .rdStat 2 ∧ Instr.rdStat 3 ≠ .rdStat 2 := by decide

/-- A run of every kind of writing command, each with arguments that are no error. -/
theorem witness_MirrorRunReadsBackWhatWasWritten :
    ∀ c ∈ ([(.wrBit, 1, 0), (.wrBool, 0, 0), (.wrByte 3, 0xFF, 0), (.wrShort 16, 0x1234, 0), (.wrInt 32, 0xB, 0),
      (.wrLong 64, 0xB, 0), (.wrPint 31, 0x7FFFFFFF, 0), (.wrSint 4 true, 0xFFFFFFFB, 0),
      (.wrFloat 5 10 true, 0x87800155, 0), (.wrDouble 11 52 true, 0x7FF8000000000001, 0), (.wrVarint 7, 0x12C, 0),
      (.wrDec 2, 0xC00A000000000000, 7)] : List (Instr × Word × Word)),
      isWriting c.1 = true ∧ c.1.WellFormed = true ∧ statusOf c.1 c.2.1 c.2.2 false = 0 := by decide

end Sys2Proof.Tests
end

/-! Proofs of the statements about command words (spec 30_encoding R82, R86 to R88). -/

section

namespace Sys2Proof.Encoding

open Sys2Proof Sys2Proof.Machine

/-! ### The fields of a word -/

/-- The byte a signed field holds is in the range of the field (R83). -/
theorem fitsField_toInt (x : BitVec 8) : FitsField x.toInt := by
  have hlo := BitVec.le_toInt x
  have hhi := BitVec.toInt_lt (x := x)
  constructor <;> omega

/-- A word without reserved bits is the word assembled from its own fields (R81, R91). -/
theorem commandWord_fields {cw : CommandWord} (hz : zField cw = 0) :
    commandWord (opcField cw) (aField cw).toInt (bField cw).toInt (sField cw) = cw := by
  apply BitVec.eq_of_getLsbD_eq
  intro i hi
  rw [getLsbD_commandWord _ _ _ _ _ hi, BitVec.ofInt_toInt, BitVec.ofInt_toInt]
  simp only [opcField, aField, bField, sField, BitVec.getLsbD_extractLsb']
  split
  · next h8 => simp [h8]
  split
  · simp [show i - 8 < 8 by omega, show 8 + (i - 8) = i by omega]
  split
  · simp [show i - 16 < 8 by omega, show 16 + (i - 16) = i by omega]
  by_cases h24 : i = 24
  · simp [h24]
  · have hbit : (zField cw).getLsbD (i - 25) = false := by rw [hz]; exact BitVec.getLsbD_zero
    rw [zField, BitVec.getLsbD_extractLsb', show 25 + (i - 25) = i by omega] at hbit
    simpa [h24, show i - 25 < 7 by omega] using hbit.symm

/-- A mask with all bits of a field set keeps that field. -/
theorem extractLsb'_of_masked {cw mask bits : CommandWord} (h : cw &&& mask = bits) (start len : Nat)
    (hmask : mask.extractLsb' start len = BitVec.allOnes len) :
    cw.extractLsb' start len = bits.extractLsb' start len := by
  rw [← h, BitVec.extractLsb'_and, hmask, BitVec.and_allOnes]

/-! ### The rows of the opcode table -/

/-- Every mask of the table covers the opcode and the reserved bits, and no row sets a reserved bit. -/
theorem opcodeTable_masks : ∀ row ∈ opcodeTable,
    opcField row.mask = BitVec.allOnes 8 ∧ zField row.mask = BitVec.allOnes 7 ∧ zField row.bits = 0 := by
  decide

/-- The opcodes of the table are distinct (R82, R86). -/
theorem opcodeTable_opcodes_nodup : (opcodeTable.map fun row => opcField row.bits).Nodup := by decide

theorem opcField_of_matches {row : OpcodeRow} (hrow : row ∈ opcodeTable) {cw : CommandWord}
    (h : cw &&& row.mask = row.bits) : opcField cw = opcField row.bits := by
  obtain ⟨hopc, -, -⟩ := opcodeTable_masks row hrow
  exact extractLsb'_of_masked h 0 8 hopc

theorem zField_of_matches {row : OpcodeRow} (hrow : row ∈ opcodeTable) {cw : CommandWord}
    (h : cw &&& row.mask = row.bits) : zField cw = 0 := by
  obtain ⟨-, hz, hbits⟩ := opcodeTable_masks row hrow
  exact (extractLsb'_of_masked h 25 7 hz).trans hbits

/-- A row of the table is the row of its opcode. -/
theorem row_eq_of_opcField_eq {row row' : OpcodeRow} (hrow : row ∈ opcodeTable) (hrow' : row' ∈ opcodeTable)
    (h : opcField row.bits = opcField row'.bits) : row = row' :=
  List.inj_on_of_nodup_map opcodeTable_opcodes_nodup hrow hrow' h

/-- No word matches two rows (R82): it would have both opcodes. -/
theorem opcodeTable_pairwise_disjoint :
    opcodeTable.Pairwise fun r r' => ∀ cw : CommandWord, ¬(cw &&& r.mask = r.bits ∧ cw &&& r'.mask = r'.bits) := by
  refine (List.pairwise_map.1 opcodeTable_opcodes_nodup).imp_of_mem ?_
  intro r r' hr hr' hne cw ⟨h, h'⟩
  exact hne ((opcField_of_matches hr h).symm.trans (opcField_of_matches hr' h'))

/-! ### What an opcode means -/

/-- The opcodes of format F (R82, R86). -/
def opcodesF : List Nat := [0x08, 0x09, 0x48, 0x49]

/-- The ranges of opcodes that R88 lists as unassigned. -/
abbrev UnassignedOpcode (n : Nat) : Prop :=
  (0x0D ≤ n ∧ n ≤ 0x3F) ∨ (0x4E ≤ n ∧ n ≤ 0x7F) ∨ (0x89 ≤ n ∧ n ≤ 0xBF) ∨ (0xC0 ≤ n ∧ n ≤ 0xFF)

/-- The command is well formed and its word is the one assembled from these fields. -/
abbrev HasWord (i : Instr) (opc : BitVec 8) (a b : Int) (s : Bool) : Prop :=
  i.WellFormed = true ∧ encode i = commandWord opc a b s

/-- What steps (2) and (3) of R87 can give for a word and an opcode: the opcode is unassigned, or it has a row in the
table, and the decoder takes the format of that row with the command of that opcode. -/
inductive DecodesAs (cw : CommandWord) (opc : BitVec 8) : Decoded → Prop
  | formatN (i : Instr) (hopc : opc.toNat ∈ opcodesN) (hrow : ⟨maskN, opc.setWidth 32⟩ ∈ opcodeTable)
      (hword : HasWord i opc 0 0 false) : DecodesAs cw opc (formatN cw i)
  | formatW (c : Int → Instr) (hopc : opc.toNat ∈ opcodesW) (hrow : ⟨maskW, opc.setWidth 32⟩ ∈ opcodeTable)
      (hword : ∀ a, FitsField a → HasWord (c a) opc a 0 false) : DecodesAs cw opc (formatW cw c)
  | formatWS (c : Int → Bool → Instr) (hopc : opc.toNat ∈ opcodesWS) (hrow : ⟨maskWS, opc.setWidth 32⟩ ∈ opcodeTable)
      (hword : ∀ a s, FitsField a → HasWord (c a s) opc a 0 s) : DecodesAs cw opc (formatWS cw c)
  | formatF (c : Int → Int → Bool → Instr) (hopc : opc.toNat ∈ opcodesF)
      (hrow : ⟨maskF, opc.setWidth 32⟩ ∈ opcodeTable)
      (hword : ∀ a b s, FitsField a → FitsField b → HasWord (c a b s) opc a b s) : DecodesAs cw opc (formatF cw c)
  | unassigned (hopc : UnassignedOpcode opc.toNat) : DecodesAs cw opc (.illegal .unassignedOpcode)

theorem decodeRdu_decodesAs (cw : CommandWord) (opc : BitVec 8) (hunit : opc.extractLsb' 6 2 = 0) :
    DecodesAs cw opc (decodeRdu cw opc) := by
  unfold decodeRdu
  split
  · exact .formatN _ (by decide) (by decide) ⟨rfl, rfl⟩
  · exact .formatN _ (by decide) (by decide) ⟨rfl, rfl⟩
  iterate 5 exact .formatW _ (by decide) (by decide) fun a ha => ⟨decide_eq_true ha, rfl⟩
  · exact .formatWS _ (by decide) (by decide) fun a s ha => ⟨decide_eq_true ha, rfl⟩
  · exact .formatF _ (by decide) (by decide) fun a b s ha hb => ⟨by simp [Instr.WellFormed, ha, hb], rfl⟩
  · exact .formatF _ (by decide) (by decide) fun a b s ha hb => ⟨by simp [Instr.WellFormed, ha, hb], rfl⟩
  iterate 3 exact .formatW _ (by decide) (by decide) fun a ha => ⟨decide_eq_true ha, rfl⟩
  · exact .unassigned (by clear cw; revert opc; decide)

theorem decodeWru_decodesAs (cw : CommandWord) (opc : BitVec 8) (hunit : opc.extractLsb' 6 2 = 1) :
    DecodesAs cw opc (decodeWru cw opc) := by
  unfold decodeWru
  split
  iterate 2 exact .formatN _ (by decide) (by decide) ⟨rfl, rfl⟩
  iterate 5 exact .formatW _ (by decide) (by decide) fun a ha => ⟨decide_eq_true ha, rfl⟩
  · exact .formatWS _ (by decide) (by decide) fun a s ha => ⟨decide_eq_true ha, rfl⟩
  iterate 2 exact .formatF _ (by decide) (by decide) fun a b s ha hb => ⟨by simp [Instr.WellFormed, ha, hb], rfl⟩
  iterate 2 exact .formatW _ (by decide) (by decide) fun a ha => ⟨decide_eq_true ha, rfl⟩
  · exact .formatN _ (by decide) (by decide) ⟨rfl, rfl⟩
  · exact .formatW _ (by decide) (by decide) fun a ha => ⟨decide_eq_true ha, rfl⟩
  · exact .unassigned (by clear cw; revert opc; decide)

theorem decodeTwu_decodesAs (cw : CommandWord) (opc : BitVec 8) (hunit : opc.extractLsb' 6 2 = 2) :
    DecodesAs cw opc (decodeTwu cw opc) := by
  unfold decodeTwu
  split
  iterate 4 exact .formatW _ (by decide) (by decide) fun a ha => ⟨decide_eq_true ha, rfl⟩
  iterate 4 exact .formatWS _ (by decide) (by decide) fun a s ha => ⟨decide_eq_true ha, rfl⟩
  · exact .formatN _ (by decide) (by decide) ⟨rfl, rfl⟩
  · exact .unassigned (by clear cw; revert opc; decide)

theorem decodeOpcode_decodesAs (cw : CommandWord) (opc : BitVec 8) : DecodesAs cw opc (decodeOpcode cw opc) := by
  unfold decodeOpcode
  split
  next hunit => exact decodeRdu_decodesAs cw opc hunit
  next hunit => exact decodeWru_decodesAs cw opc hunit
  next hunit => exact decodeTwu_decodesAs cw opc hunit
  next => exact .unassigned (by clear cw; revert opc; decide)

/-! ### What a word means -/

theorem decode_decodesAs {cw : CommandWord} (hz : zField cw = 0) : DecodesAs cw (opcField cw) (decode cw) := by
  simpa [decode, hz] using decodeOpcode_decodesAs cw (opcField cw)

/-- Step (1) of R87: a command has no reserved bit set. -/
theorem zField_of_decode {cw : CommandWord} {i : Instr} (h : decode cw = .command i) : zField cw = 0 := by
  by_contra hz
  rw [decode, if_pos (bne_iff_ne.2 hz)] at h
  cases h

theorem unless_eq_command {unusedSet : Bool} {i j : Instr} :
    Decoded.unless unusedSet i = .command j ↔ unusedSet = false ∧ i = j := by
  cases unusedSet <;> simp [Decoded.unless]

theorem formatN_eq_command {cw : CommandWord} {i j : Instr} :
    formatN cw i = .command j ↔ (aField cw = 0 ∧ bField cw = 0 ∧ sField cw = false) ∧ i = j := by
  simp [formatN, unless_eq_command, and_assoc]

theorem formatW_eq_command {cw : CommandWord} {c : Int → Instr} {j : Instr} :
    formatW cw c = .command j ↔ (bField cw = 0 ∧ sField cw = false) ∧ c (aField cw).toInt = j := by
  simp [formatW, unless_eq_command]

theorem formatWS_eq_command {cw : CommandWord} {c : Int → Bool → Instr} {j : Instr} :
    formatWS cw c = .command j ↔ bField cw = 0 ∧ c (aField cw).toInt (sField cw) = j := by
  simp [formatWS, unless_eq_command]

theorem formatF_eq_command {cw : CommandWord} {c : Int → Int → Bool → Instr} {j : Instr} :
    formatF cw c = .command j ↔ c (aField cw).toInt (bField cw).toInt (sField cw) = j := by
  simp [formatF]

/-- A command is well formed and its word has the opcode and the operand fields of the word it was decoded from:
a field its format leaves unused was zero. -/
theorem DecodesAs.hasWord {cw : CommandWord} {opc : BitVec 8} {d : Decoded} {i : Instr} (hd : DecodesAs cw opc d)
    (h : d = .command i) : HasWord i opc (aField cw).toInt (bField cw).toInt (sField cw) := by
  have hfitA := fitsField_toInt (aField cw)
  have hfitB := fitsField_toInt (bField cw)
  cases hd with
  | formatN j _ _ hword =>
    obtain ⟨⟨ha, hb, hs⟩, rfl⟩ := formatN_eq_command.1 h
    rw [ha, hb, hs]
    exact hword
  | formatW c _ _ hword =>
    obtain ⟨⟨hb, hs⟩, rfl⟩ := formatW_eq_command.1 h
    rw [hb, hs]
    exact hword _ hfitA
  | formatWS c _ _ hword =>
    obtain ⟨hb, rfl⟩ := formatWS_eq_command.1 h
    rw [hb]
    exact hword _ _ hfitA
  | formatF c _ _ hword =>
    obtain rfl := formatF_eq_command.1 h
    exact hword _ _ _ hfitA hfitB
  | unassigned => exact absurd h (by simp)

/-- No bit of a command's word is dropped (R87): the command is well formed and its word is the one decoded. -/
theorem wellFormed_and_encode_of_decode {cw : CommandWord} {i : Instr} (h : decode cw = .command i) :
    i.WellFormed = true ∧ encode i = cw := by
  have hz := zField_of_decode h
  obtain ⟨hwf, henc⟩ := (decode_decodesAs hz).hasWord h
  exact ⟨hwf, henc.trans (commandWord_fields hz)⟩

/-- Every command's word matches a row of the table (R82, R86). -/
theorem encode_matches_row (i : Instr) : Laws.WordMatchesRow.Statement i :=
  match i with
  | .rdBit => Laws.WordMatchesRow.rdBit
  | .rdBool => Laws.WordMatchesRow.rdBool
  | .rdByte w => Laws.WordMatchesRow.rdByte w
  | .rdShort w => Laws.WordMatchesRow.rdShort w
  | .rdInt w => Laws.WordMatchesRow.rdInt w
  | .rdLong w => Laws.WordMatchesRow.rdLong w
  | .rdPint w => Laws.WordMatchesRow.rdPint w
  | .rdSint w s => Laws.WordMatchesRow.rdSint w s
  | .rdFloat e m s => Laws.WordMatchesRow.rdFloat e m s
  | .rdDouble e m s => Laws.WordMatchesRow.rdDouble e m s
  | .rdVarint g => Laws.WordMatchesRow.rdVarint g
  | .rdDec d => Laws.WordMatchesRow.rdDec d
  | .rdStat n => Laws.WordMatchesRow.rdStat n
  | .wrBit => Laws.WordMatchesRow.wrBit
  | .wrBool => Laws.WordMatchesRow.wrBool
  | .wrByte w => Laws.WordMatchesRow.wrByte w
  | .wrShort w => Laws.WordMatchesRow.wrShort w
  | .wrInt w => Laws.WordMatchesRow.wrInt w
  | .wrLong w => Laws.WordMatchesRow.wrLong w
  | .wrPint w => Laws.WordMatchesRow.wrPint w
  | .wrSint w s => Laws.WordMatchesRow.wrSint w s
  | .wrFloat e m s => Laws.WordMatchesRow.wrFloat e m s
  | .wrDouble e m s => Laws.WordMatchesRow.wrDouble e m s
  | .wrVarint g => Laws.WordMatchesRow.wrVarint g
  | .wrDec d => Laws.WordMatchesRow.wrDec d
  | .wrPack => Laws.WordMatchesRow.wrPack
  | .wrStat n => Laws.WordMatchesRow.wrStat n
  | .twGetbit8 p => Laws.WordMatchesRow.twGetbit8 p
  | .twGetbit16 p => Laws.WordMatchesRow.twGetbit16 p
  | .twGetbit32 p => Laws.WordMatchesRow.twGetbit32 p
  | .twGetbit64 p => Laws.WordMatchesRow.twGetbit64 p
  | .twSetbit8 p s => Laws.WordMatchesRow.twSetbit8 p s
  | .twSetbit16 p s => Laws.WordMatchesRow.twSetbit16 p s
  | .twSetbit32 p s => Laws.WordMatchesRow.twSetbit32 p s
  | .twSetbit64 p s => Laws.WordMatchesRow.twSetbit64 p s
  | .twBitsneeded => Laws.WordMatchesRow.twBitsneeded

/-- An opcode zero-extended to a word (R82) is the word with no operand field set. -/
theorem setWidth_eq_commandWord (opc : BitVec 8) : opc.setWidth 32 = commandWord opc 0 0 false := by
  rw [← commandWord_maskN]
  exact BitVec.and_allOnes

section MaskedFields

variable {cw mask : CommandWord} {opc : BitVec 8} (h : cw &&& mask = opc.setWidth 32)
include h

theorem aField_eq_zero_of_masked (hmask : aField mask = BitVec.allOnes 8) : aField cw = 0 := by
  refine (extractLsb'_of_masked h 8 8 hmask).trans ?_
  rw [setWidth_eq_commandWord]
  exact aField_commandWord opc 0 0 false

theorem bField_eq_zero_of_masked (hmask : bField mask = BitVec.allOnes 8) : bField cw = 0 := by
  refine (extractLsb'_of_masked h 16 8 hmask).trans ?_
  rw [setWidth_eq_commandWord]
  exact bField_commandWord opc 0 0 false

theorem sField_eq_false_of_masked (hmask : sField mask = true) : sField cw = false := by
  have hbit := congrArg sField h
  rw [setWidth_eq_commandWord, sField_commandWord, sField, BitVec.getLsbD_and,
    show mask.getLsbD 24 = true from hmask, Bool.and_true] at hbit
  exact hbit

end MaskedFields

/-- The row a word matches is the row of the word's opcode. -/
theorem row_eq_of_matches {row : OpcodeRow} (hrow : row ∈ opcodeTable) {cw : CommandWord}
    (hmatch : cw &&& row.mask = row.bits) {mask : CommandWord}
    (hmem : ⟨mask, (opcField cw).setWidth 32⟩ ∈ opcodeTable) : row = ⟨mask, (opcField cw).setWidth 32⟩ := by
  refine row_eq_of_opcField_eq hrow hmem ?_
  rw [← opcField_of_matches hrow hmatch, setWidth_eq_commandWord, opcField_commandWord]

/-- No row of the table has an unassigned opcode. -/
theorem opcodeTable_assigned : ∀ row ∈ opcodeTable, ¬UnassignedOpcode (opcField row.bits).toNat := by decide

/-- A word that matches the row of its opcode passes step (3) of R87. -/
theorem DecodesAs.command_of_matches {cw : CommandWord} {d : Decoded} (hd : DecodesAs cw (opcField cw) d)
    {row : OpcodeRow} (hrow : row ∈ opcodeTable) (hmatch : cw &&& row.mask = row.bits) : ∃ i, d = .command i := by
  cases hd with
  | formatN i _ hmem _ =>
    obtain rfl := row_eq_of_matches hrow hmatch hmem
    have ha := aField_eq_zero_of_masked (mask := maskN) hmatch (by decide)
    have hb := bField_eq_zero_of_masked (mask := maskN) hmatch (by decide)
    have hs := sField_eq_false_of_masked (mask := maskN) hmatch (by decide)
    exact ⟨i, formatN_eq_command.2 ⟨⟨ha, hb, hs⟩, rfl⟩⟩
  | formatW c _ hmem _ =>
    obtain rfl := row_eq_of_matches hrow hmatch hmem
    have hb := bField_eq_zero_of_masked (mask := maskW) hmatch (by decide)
    have hs := sField_eq_false_of_masked (mask := maskW) hmatch (by decide)
    exact ⟨_, formatW_eq_command.2 ⟨⟨hb, hs⟩, rfl⟩⟩
  | formatWS c _ hmem _ =>
    obtain rfl := row_eq_of_matches hrow hmatch hmem
    have hb := bField_eq_zero_of_masked (mask := maskWS) hmatch (by decide)
    exact ⟨_, formatWS_eq_command.2 ⟨hb, rfl⟩⟩
  | formatF c => exact ⟨_, formatF_eq_command.2 rfl⟩
  | unassigned hun =>
    rw [opcField_of_matches hrow hmatch] at hun
    exact absurd hun (opcodeTable_assigned row hrow)

/-- R87: steps (1) to (3) are the test of a row of the table. -/
theorem decode_isCommand_iff_matches (cw : CommandWord) :
    (∃ i, decode cw = .command i) ↔ ∃ row ∈ opcodeTable, cw &&& row.mask = row.bits := by
  constructor
  · rintro ⟨i, h⟩
    obtain ⟨-, rfl⟩ := wellFormed_and_encode_of_decode h
    exact encode_matches_row i
  · rintro ⟨row, hrow, hmatch⟩
    exact (decode_decodesAs (zField_of_matches hrow hmatch)).command_of_matches hrow hmatch

/-- Settles O3: the test of a row is the decoder's, the opcodes of the rows are distinct, and a command's word has
every field of the word it was decoded from. -/
theorem decodeIsTheOpcodeTable : Obligations.DecodeIsTheOpcodeTable :=
  ⟨decode_isCommand_iff_matches, opcodeTable_pairwise_disjoint, fun _ _ => wellFormed_and_encode_of_decode⟩

end Sys2Proof.Encoding
end

section
/-! The words that are answered `IllegalCommand` (spec 30_encoding R88): the list of the rule is what the decoder finds
illegal and the status reads of an unknown register, and no other command is answered with that code. -/

namespace Sys2Proof.Encoding

open Sys2Proof Sys2Proof.Machine

/-! ### The list of R88 -/

/-- A word with a defined opcode and a field set that its format leaves unused. -/
def UnusedFieldSet (cw : CommandWord) : Prop :=
  ((opcField cw).toNat ∈ opcodesN ∧ (aField cw ≠ 0 ∨ bField cw ≠ 0 ∨ sField cw = true)) ∨
  ((opcField cw).toNat ∈ opcodesW ∧ (bField cw ≠ 0 ∨ sField cw = true)) ∨
  ((opcField cw).toNat ∈ opcodesWS ∧ bField cw ≠ 0)

/-- A word with the opcode of a status read and no register's number. -/
def UnknownRegisterWord (cw : CommandWord) : Prop :=
  ((opcField cw).toNat = 0x0C ∧ ((aField cw).toInt < 0 ∨ 2 < (aField cw).toInt)) ∨
  ((opcField cw).toNat = 0x4D ∧ ((aField cw).toInt < 0 ∨ 3 < (aField cw).toInt))

/-- The four lines of the list. -/
theorem illegalCommandWord_iff (cw : CommandWord) : IllegalCommandWord cw ↔
    zField cw ≠ 0 ∨ UnassignedOpcode (opcField cw).toNat ∨ UnusedFieldSet cw ∨ UnknownRegisterWord cw := by
  simp only [UnassignedOpcode, UnusedFieldSet, UnknownRegisterWord, or_assoc]
  rfl

theorem opcodesN_disjoint : ∀ n ∈ opcodesN, ¬UnassignedOpcode n ∧ n ∉ opcodesW ∧ n ∉ opcodesWS := by decide

theorem opcodesW_disjoint : ∀ n ∈ opcodesW, ¬UnassignedOpcode n ∧ n ∉ opcodesN ∧ n ∉ opcodesWS := by decide

theorem opcodesWS_disjoint : ∀ n ∈ opcodesWS, ¬UnassignedOpcode n ∧ n ∉ opcodesN ∧ n ∉ opcodesW := by decide

theorem opcodesF_disjoint :
    ∀ n ∈ opcodesF, ¬UnassignedOpcode n ∧ n ∉ opcodesN ∧ n ∉ opcodesW ∧ n ∉ opcodesWS := by decide

/-- Steps (2) and (3) of R87 reject the words of the second and the third line, and no others. -/
theorem DecodesAs.isCommand_iff {cw : CommandWord} {d : Decoded} (hd : DecodesAs cw (opcField cw) d) :
    (∃ i, d = .command i) ↔ ¬UnassignedOpcode (opcField cw).toNat ∧ ¬UnusedFieldSet cw := by
  unfold UnusedFieldSet
  cases hd with
  | formatN i hopc =>
    obtain ⟨hassigned, hW, hWS⟩ := opcodesN_disjoint _ hopc
    simp [formatN_eq_command, hopc, hassigned, hW, hWS]
  | formatW c hopc =>
    obtain ⟨hassigned, hN, hWS⟩ := opcodesW_disjoint _ hopc
    simp [formatW_eq_command, hopc, hassigned, hN, hWS]
  | formatWS c hopc =>
    obtain ⟨hassigned, hN, hW⟩ := opcodesWS_disjoint _ hopc
    simp [formatWS_eq_command, hopc, hassigned, hN, hW]
  | formatF c hopc =>
    obtain ⟨hassigned, hN, hW, hWS⟩ := opcodesF_disjoint _ hopc
    simp [formatF_eq_command, hassigned, hN, hW, hWS]
  | unassigned hopc => simp [hopc]

theorem decode_isCommand_iff (cw : CommandWord) : (∃ i, decode cw = .command i) ↔
    zField cw = 0 ∧ ¬UnassignedOpcode (opcField cw).toNat ∧ ¬UnusedFieldSet cw := by
  constructor
  · rintro ⟨i, h⟩
    have hz := zField_of_decode h
    exact ⟨hz, (decode_decodesAs hz).isCommand_iff.1 ⟨i, h⟩⟩
  · rintro ⟨hz, hfields⟩
    exact (decode_decodesAs hz).isCommand_iff.2 hfields

/-- The commands of the fourth line, by their words: of the 36 opcodes only the two status reads are in it. -/
theorem unknownRegister_iff {i : Instr} (hwf : i.WellFormed = true) :
    unknownRegister i = true ↔ UnknownRegisterWord (encode i) := by
  cases i with
  | rdStat n =>
    have hn : FitsField n := of_decide_eq_true hwf
    simp [unknownRegister, UnknownRegisterWord, encode, opcField_commandWord, aField_commandWord,
      toInt_ofInt_of_fits hn]
  | wrStat n =>
    have hn : FitsField n := of_decide_eq_true hwf
    simp [unknownRegister, UnknownRegisterWord, encode, opcField_commandWord, aField_commandWord,
      toInt_ofInt_of_fits hn]
  | _ => simp [unknownRegister, UnknownRegisterWord, encode, opcField_commandWord]

/-- The list of R88 in terms of the decoder: the words that name no command but one with an unknown register. -/
theorem illegalCommandWord_iff_decode (cw : CommandWord) :
    IllegalCommandWord cw ↔ ∀ i, decode cw = .command i → unknownRegister i = true := by
  rw [illegalCommandWord_iff]
  have hcommand := decode_isCommand_iff cw
  constructor
  · intro hlist i h
    obtain ⟨hz, hassigned, hunused⟩ := hcommand.1 ⟨i, h⟩
    obtain ⟨hwf, rfl⟩ := wellFormed_and_encode_of_decode h
    rw [unknownRegister_iff hwf]
    simpa [hz, hassigned, hunused] using hlist
  · intro hunknown
    by_contra hlist
    rw [not_or, not_or, not_not] at hlist
    obtain ⟨hz, hassigned, hfields⟩ := hlist
    obtain ⟨hunused, hregister⟩ := not_or.1 hfields
    obtain ⟨i, h⟩ := hcommand.2 ⟨hz, hassigned, hunused⟩
    have hi := hunknown i h
    obtain ⟨hwf, rfl⟩ := wellFormed_and_encode_of_decode h
    exact hregister ((unknownRegister_iff hwf).1 hi)

/-! ### The answers of the commands -/

/-- The command is answered, and with another code than `IllegalCommand` (6). -/
def AnsweredLegal (s : State) (o : Result) : Prop := ∃ t r, o = .next t ∧ t.responses = r :: s.responses ∧ r.st ≠ 6

namespace AnsweredLegal

variable {s : State}

theorem raise {e : Error} (he : e.code ≠ 6) : AnsweredLegal s (raise e s) := ⟨_, _, raise_eq e s, rfl, he⟩

theorem finish (res : Word) {s' : State} (h : s'.responses = s.responses) : AnsweredLegal s (finish res s') :=
  ⟨_, ⟨0, res⟩, finish_eq res s', congrArg (_ :: ·) h, show (0 : BitVec 4) ≠ 6 by decide⟩

theorem finishRdu (u : Rdu) (res : Word) : AnsweredLegal s (finishRdu u res s) := finish res rfl

theorem finishWru (u : Wru) {s' : State} (h : s'.responses = s.responses) : AnsweredLegal s (finishWru u s') :=
  finish 0 h

theorem ite {p : Prop} [Decidable p] {o o' : Result} (h : AnsweredLegal s o) (h' : AnsweredLegal s o') :
    AnsweredLegal s (if p then o else o') := by
  split
  · exact h
  · exact h'

theorem unlessFinalized {body : Result} (h : AnsweredLegal s body) : AnsweredLegal s (unlessFinalized s body) :=
  ite (raise (by decide)) h

theorem rdFixed (w : Int) (T : Nat) : AnsweredLegal s (rdFixed w T s) := ite (finishRdu _ _) (raise (by decide))

theorem rdFloating (eMax mMax place top : Nat) (e m : Int) (signed : Bool) :
    AnsweredLegal s (rdFloating eMax mMax place top e m signed s) := ite (finishRdu _ _) (raise (by decide))

theorem wrFixed (w : Int) (T : Nat) : AnsweredLegal s (wrFixed w T s) :=
  unlessFinalized (ite (finishWru _ rfl) (raise (by decide)))

theorem wrFloating (eMax mMax place top : Nat) (e m : Int) (signed : Bool) :
    AnsweredLegal s (wrFloating eMax mMax place top e m signed s) :=
  unlessFinalized (ite (finishWru _ rfl) (raise (by decide)))

theorem execWrPint (w : Int) : AnsweredLegal s (execWrPint w s) :=
  unlessFinalized (ite (ite (raise (by decide)) (finishWru _ rfl)) (raise (by decide)))

theorem twGetBit (n : Nat) (pos : Int) : AnsweredLegal s (twGetBit n pos s) :=
  ite (finish _ rfl) (raise (by decide))

theorem twSetBit (n : Nat) (pos : Int) (flag : Bool) : AnsweredLegal s (twSetBit n pos flag s) :=
  ite (finish _ rfl) (raise (by decide))

theorem execRdStat {n : Int} (h : unknownRegister (.rdStat n) = false) : AnsweredLegal s (execRdStat n s) := by
  have hn : n = 0 ∨ n = 1 ∨ n = 2 := by
    have := of_decide_eq_false h
    omega
  rcases hn with rfl | rfl | rfl <;> exact finish _ rfl

theorem execWrStat {n : Int} (h : unknownRegister (.wrStat n) = false) : AnsweredLegal s (execWrStat n s) := by
  have hn : n = 0 ∨ n = 1 ∨ n = 2 ∨ n = 3 := by
    have := of_decide_eq_false h
    omega
  rcases hn with rfl | rfl | rfl | rfl <;> exact finish _ rfl

/-- R246: the only commands answered `IllegalCommand` are the status reads of an unknown register. -/
theorem exec {i : Instr} (h : unknownRegister i = false) : AnsweredLegal s (exec i s) :=
  match i, h with
  | .rdBit, _ => finishRdu _ _
  | .rdBool, _ => finishRdu _ _
  | .rdByte _, _ => rdFixed _ _
  | .rdShort _, _ => rdFixed _ _
  | .rdInt _, _ => rdFixed _ _
  | .rdLong _, _ => rdFixed _ _
  | .rdPint _, _ => rdFixed _ _
  | .rdSint _ _, _ => ite (finishRdu _ _) (raise (by decide))
  | .rdFloat _ _ _, _ => rdFloating _ _ _ _ _ _ _
  | .rdDouble _ _ _, _ => rdFloating _ _ _ _ _ _ _
  | .rdVarint _, _ => ite (finishRdu _ _) (raise (by decide))
  | .rdDec _, _ => ite (finishRdu _ _) (raise (by decide))
  | .rdStat _, h => execRdStat h
  | .wrBit, _ => unlessFinalized (finishWru _ rfl)
  | .wrBool, _ => unlessFinalized (finishWru _ rfl)
  | .wrByte _, _ => wrFixed _ _
  | .wrShort _, _ => wrFixed _ _
  | .wrInt _, _ => wrFixed _ _
  | .wrLong _, _ => wrFixed _ _
  | .wrPint _, _ => execWrPint _
  | .wrSint _ _, _ => unlessFinalized (ite (finishWru _ rfl) (raise (by decide)))
  | .wrFloat _ _ _, _ => wrFloating _ _ _ _ _ _ _
  | .wrDouble _ _ _, _ => wrFloating _ _ _ _ _ _ _
  | .wrVarint _, _ => unlessFinalized (ite (finishWru _ rfl) (raise (by decide)))
  | .wrDec _, _ => unlessFinalized (ite (finishWru _ s.drawFree_responses) (raise (by decide)))
  | .wrPack, _ => finish _ rfl
  | .wrStat _, h => execWrStat h
  | .twGetbit8 _, _ => twGetBit _ _
  | .twGetbit16 _, _ => twGetBit _ _
  | .twGetbit32 _, _ => twGetBit _ _
  | .twGetbit64 _, _ => twGetBit _ _
  | .twSetbit8 _ _, _ => twSetBit _ _ _
  | .twSetbit16 _ _, _ => twSetBit _ _ _
  | .twSetbit32 _ _, _ => twSetBit _ _ _
  | .twSetbit64 _ _, _ => twSetBit _ _ _
  | .twBitsneeded, _ => finish _ rfl

end AnsweredLegal

/-- A status read of an unknown register is answered `IllegalCommand` (R88, 10_state R35). -/
theorem exec_unknownRegister {i : Instr} (h : unknownRegister i = true) (s : State) :
    exec i s = .next (s.responded 6 0) := by
  cases i with
  | rdStat n =>
    have hn : n < 0 ∨ 2 < n := of_decide_eq_true h
    simp only [exec, execRdStat]
    rw [if_neg (by omega), if_neg (by omega), if_neg (by omega), raise_eq]
    rfl
  | wrStat n =>
    have hn : n < 0 ∨ 3 < n := of_decide_eq_true h
    simp only [exec, execWrStat]
    rw [if_neg (by omega), if_neg (by omega), if_neg (by omega), if_neg (by omega), raise_eq]
    rfl
  | _ => cases h

theorem runCommand_of_illegalCommandWord {c : Command} (h : IllegalCommandWord c.cw) (s : State) :
    runCommand c s = .next (s.responded 6 0) := by
  unfold runCommand
  split
  next i hi => exact exec_unknownRegister ((illegalCommandWord_iff_decode _).1 h i hi) s
  next => exact raise_eq .illegalCommand s

theorem runCommand_of_not_illegalCommandWord {c : Command} (h : ¬IllegalCommandWord c.cw) (s : State) :
    AnsweredLegal s (runCommand c s) := by
  rw [illegalCommandWord_iff_decode] at h
  push Not at h
  obtain ⟨i, hi, hknown⟩ := h
  rw [runCommand, hi]
  exact .exec (Bool.eq_false_of_not_eq_true hknown)

/-- Settles O4: the listed words are those that decode to no command but one with an unknown register, and these are
the ones answered 6. -/
theorem illegalWordsAreAnsweredAndChangeNothing : Obligations.IllegalWordsAreAnsweredAndChangeNothing := by
  intro s c rest hport
  rw [step_command hport]
  exact ⟨fun h => runCommand_of_illegalCommandWord h s, fun h => runCommand_of_not_illegalCommandWord h s⟩

end Sys2Proof.Encoding
end

section
/-! From a row's masked bits to the command (spec 30_encoding R82, R87): a word of a row has the row's opcode and zeros
in the fields its format leaves unused. -/

namespace Sys2Proof.Encoding

open Sys2Proof Sys2Proof.Machine

/-- The decoder takes a word whose mask covers opcode and reserved bits by the opcode of its row. -/
theorem decode_eq_decodeOpcode_of_masked {cw mask : CommandWord} {opc : BitVec 8}
    (h : cw &&& mask = opc.setWidth 32) (hopc : opcField mask = BitVec.allOnes 8)
    (hz : zField mask = BitVec.allOnes 7) : decode cw = decodeOpcode cw opc := by
  rw [setWidth_eq_commandWord] at h
  have hopcField : opcField cw = opc :=
    (extractLsb'_of_masked h 0 8 hopc).trans (opcField_commandWord opc 0 0 false)
  have hzField : zField cw = 0 := (extractLsb'_of_masked h 25 7 hz).trans (zField_commandWord opc 0 0 false)
  simp [decode, hopcField, hzField]

/-- The row of a format N opcode. -/
theorem encodedN_of_decodeOpcode {opc : BitVec 8} {i : Instr} (h : ∀ cw, decodeOpcode cw opc = formatN cw i) :
    EncodedN (opc.setWidth 32) i := by
  intro cw hcw
  rw [decode_eq_decodeOpcode_of_masked hcw (by decide) (by decide), h, formatN_eq_command]
  have ha := aField_eq_zero_of_masked hcw (by decide)
  have hb := bField_eq_zero_of_masked hcw (by decide)
  have hs := sField_eq_false_of_masked hcw (by decide)
  exact ⟨⟨ha, hb, hs⟩, rfl⟩

/-- The row of a format W opcode. -/
theorem encodedW_of_decodeOpcode {opc : BitVec 8} {c : Int → Instr} (h : ∀ cw, decodeOpcode cw opc = formatW cw c) :
    EncodedW (opc.setWidth 32) c := by
  intro cw hcw
  rw [decode_eq_decodeOpcode_of_masked hcw (by decide) (by decide), h, formatW_eq_command]
  have hb := bField_eq_zero_of_masked hcw (by decide)
  have hs := sField_eq_false_of_masked hcw (by decide)
  exact ⟨⟨hb, hs⟩, rfl⟩

/-- The row of a format WS opcode. -/
theorem encodedWS_of_decodeOpcode {opc : BitVec 8} {c : Int → Bool → Instr}
    (h : ∀ cw, decodeOpcode cw opc = formatWS cw c) : EncodedWS (opc.setWidth 32) c := by
  intro cw hcw
  rw [decode_eq_decodeOpcode_of_masked hcw (by decide) (by decide), h, formatWS_eq_command]
  exact ⟨bField_eq_zero_of_masked hcw (by decide), rfl⟩

end Sys2Proof.Encoding
end

section
/-! The reader's bits and integers (spec 40_reader_bits_and_integers R110 to R119). -/

namespace Sys2Proof.Reader

open Sys2Proof Sys2Proof.Machine Sys2Proof.Encoding

/-! ### Results, bit by bit -/

theorem bitResult_eq (b : Bool) : bitResult b = if b then 1 else 0 := by cases b <;> rfl

/-- A field that fits the `n` bits it is returned in: the wire's bits from the cursor on, and 0 above the field. -/
theorem getLsbD_ofNat_rdField {w n : Nat} (hw : w ≤ n) (u : Rdu) (i : Nat) :
    (BitVec.ofNat n (rdField w u).1).getLsbD i = (decide (i < w) && u.memRead (u.rcur + i)) := by
  rw [BitVec.getLsbD_ofNat, testBit_rdField]
  by_cases hi : i < w
  · simp [hi, hi.trans_le hw]
  · simp [hi]

/-- The sign bit of `RD_SINT` replaces bit 31 of the field, also where the field reaches it (40 R119). -/
theorem getLsbD_setBit_rdField {w : Nat} (hw : w ≤ 32) (b : Bool) (u : Rdu) (i : Nat) :
    (setBit (BitVec.ofNat 32 (rdField w u).1) 31 b).getLsbD i =
      if i = 31 then b else (decide (i < w) && u.memRead (u.rcur + i)) := by
  by_cases hi : i < 32
  · rw [getLsbD_setBit _ _ _ _ hi, getLsbD_ofNat_rdField hw]
  · rw [BitVec.getLsbD_of_ge _ _ (Nat.le_of_not_lt hi)]
    simp [show i ≠ 31 by omega, show ¬i < w by omega]

/-- A 32-bit pattern zero-extended to `RES` keeps every bit. -/
theorem getLsbD_setWidth_64 (v : BitVec 32) (i : Nat) : (v.setWidth 64).getLsbD i = v.getLsbD i := by
  rw [BitVec.getLsbD_setWidth]
  by_cases hi : i < 64
  · simp [hi]
  · rw [BitVec.getLsbD_of_ge v i (by omega), Bool.and_false]

/-! ### RD_BIT and RD_BOOL -/

/-- Settles O10: both commands are one call of the read primitive, and only `RD_BOOL` counts it. -/
theorem bitReadsReturnTheBitAtTheCursor : Obligations.BitReadsReturnTheBitAtTheCursor := by
  refine ⟨encodedN_of_decodeOpcode (opc := 0x00) fun _ => rfl,
    encodedN_of_decodeOpcode (opc := 0x01) fun _ => rfl, ?_⟩
  intro s bit res
  have hres : bitResult (s.rdu.memRead s.rdu.rcur) = res := bitResult_eq _
  rw [← hres]
  exact ⟨rfl, rfl⟩

/-! ### The unsigned fixed-width reads -/

/-- The five reads: the bits of the row, the command, the greatest width (40 R114 to R118). -/
abbrev fixedReads : List (CommandWord × (Int → Instr) × Nat) :=
  [(0x02, Instr.rdByte, 8), (0x03, Instr.rdShort, 16), (0x04, Instr.rdInt, 32), (0x05, Instr.rdLong, 64),
    (0x06, Instr.rdPint, 31)]

theorem fixedReads_encoded : ∀ form ∈ fixedReads, EncodedW form.1 form.2.1 := by
  simp only [List.forall_mem_cons]
  exact ⟨encodedW_of_decodeOpcode (opc := 0x02) fun _ => rfl, encodedW_of_decodeOpcode (opc := 0x03) fun _ => rfl,
    encodedW_of_decodeOpcode (opc := 0x04) fun _ => rfl, encodedW_of_decodeOpcode (opc := 0x05) fun _ => rfl,
    encodedW_of_decodeOpcode (opc := 0x06) fun _ => rfl, List.forall_mem_nil _⟩

/-- Each of the five is `RdFixed` with its greatest width (40 R113). -/
theorem fixedReads_exec : ∀ form ∈ fixedReads, ∀ w s, exec (form.2.1 w) s = rdFixed w form.2.2 s := by
  simp only [List.forall_mem_cons]
  exact ⟨fun _ _ => rfl, fun _ _ => rfl, fun _ _ => rfl, fun _ _ => rfl, fun _ _ => rfl, List.forall_mem_nil _⟩

/-- A field of any of the five fits `RES`. -/
theorem fixedReads_width : ∀ form ∈ fixedReads, form.2.2 ≤ 64 := by
  simp [fixedReads]

/-- Settles O11: the five are `RdFixed`, whose result is the field read in a word wide enough for it. -/
theorem fixedWidthReadsReturnTheField : Obligations.FixedWidthReadsReturnTheField := by
  refine fun form hform => ⟨fixedReads_encoded form hform, fun w s => ?_⟩
  rw [fixedReads_exec form hform, rdFixed_eq]
  have hT := fixedReads_width form hform
  constructor
  · intro hw
    rw [if_pos hw]
    exact ⟨_, rfl, getLsbD_ofNat_rdField (by omega) s.rdu⟩
  · intro hw
    rw [if_neg (by omega)]

/-! ### RD_SINT -/

/-- Settles O12: the field is read, then with `s = 1` the wire's next bit is put at bit 31 of the pattern. -/
theorem signedReadPlacesTheSignBitLast : Obligations.SignedReadPlacesTheSignBitLast := by
  refine ⟨encodedWS_of_decodeOpcode (opc := 0x07) fun _ => rfl, fun w signed s => ?_⟩
  rw [show exec (.rdSint w signed) s = execRdSint w signed s from rfl, execRdSint_eq]
  constructor
  · intro hw
    rw [if_pos hw]
    refine ⟨_, by rw [Nat.add_assoc]; rfl, fun i => ?_⟩
    have hw32 : w.toNat ≤ 32 := by omega
    rw [getLsbD_setWidth_64]
    cases signed with
    | false => simpa using getLsbD_ofNat_rdField hw32 s.rdu i
    | true => simpa using getLsbD_setBit_rdField hw32 _ s.rdu i
  · intro hw
    rw [if_neg (by omega)]

end Sys2Proof.Reader
end

section
/-! From a row's masked bits to the command, for format F (spec 30_encoding R82, R87). -/

namespace Sys2Proof.Encoding

open Sys2Proof Sys2Proof.Machine

/-- The row of a format F opcode. -/
theorem encodedF_of_decodeOpcode {opc : BitVec 8} {c : Int → Int → Bool → Instr}
    (h : ∀ cw, decodeOpcode cw opc = formatF cw c) : EncodedF (opc.setWidth 32) c := by
  intro cw hcw
  rw [decode_eq_decodeOpcode_of_masked hcw (by decide) (by decide), h, formatF_eq_command]
  rfl

end Sys2Proof.Encoding
end

section
/-! The reader's floats (spec 41_reader_float R130 to R132): the pattern is three fields on disjoint bits. -/

namespace Sys2Proof.Reader

open Sys2Proof Sys2Proof.Machine Sys2Proof.Encoding

/-! ### The pattern, bit by bit -/

/-- A field moved up to `place` in `RES`: the wire's bits from there on, and 0 below and above it. -/
theorem getLsbD_rdField_shiftLeft {n place : Nat} (hfits : place + n ≤ 64) (u : Rdu) (i : Nat) :
    (BitVec.ofNat 64 (rdField n u).1 <<< place).getLsbD i =
      (decide (place ≤ i ∧ i < place + n) && u.memRead (u.rcur + (i - place))) := by
  rw [BitVec.getLsbD_shiftLeft, getLsbD_ofNat_rdField (by omega)]
  by_cases hin : place ≤ i ∧ i < place + n
  · simp [hin, show i < 64 by omega, show ¬i < place by omega, show i - place < n by omega]
  · by_cases hlow : i < place
    · simp [hlow, show ¬place ≤ i by omega]
    · simp [hin, show ¬i - place < n by omega]

/-- A single bit moved up to `top` in `RES`. -/
theorem getLsbD_ofBool_shiftLeft {top : Nat} (htop : top < 64) (b : Bool) (i : Nat) :
    ((BitVec.ofBool b).setWidth 64 <<< top).getLsbD i = (decide (i = top) && b) := by
  rw [BitVec.getLsbD_shiftLeft, BitVec.getLsbD_setWidth, BitVec.getLsbD_ofBool]
  by_cases hi : i = top
  · simp [hi, htop]
  · by_cases hlow : i < top
    · simp [hi, hlow]
    · simp [hi, show ¬i - top = 0 by omega]

/-- Mantissa, exponent and sign stand on disjoint bits of the pattern (41 R130), so each of its bits is the bit of one
field, or 0 where no field reaches. -/
theorem getLsbD_floatPattern {m e place top : Nat} (hm : m ≤ place) (he : place + e ≤ top) (htop : top < 64)
    (um ue : Rdu) (sign : Bool) (i : Nat) :
    (BitVec.ofNat 64 (rdField m um).1 ||| BitVec.ofNat 64 (rdField e ue).1 <<< place |||
        (BitVec.ofBool sign).setWidth 64 <<< top).getLsbD i =
      if i < m then um.memRead (um.rcur + i)
      else if place ≤ i ∧ i < place + e then ue.memRead (ue.rcur + (i - place))
      else if i = top then sign
      else false := by
  rw [BitVec.getLsbD_or, BitVec.getLsbD_or, getLsbD_ofNat_rdField (by omega), getLsbD_rdField_shiftLeft (by omega),
    getLsbD_ofBool_shiftLeft htop]
  split
  next hman => simp [hman, show ¬(place ≤ i ∧ i < place + e) by omega, show i ≠ top by omega]
  next hman =>
    split
    next hexp => simp [hman, hexp, show i ≠ top by omega]
    next hexp => simp [hman, hexp]

/-! ### RD_FLOAT and RD_DOUBLE -/

/-- The two reads: the bits of the row, the command, the greatest exponent and mantissa widths, and the position of the
sign (41 R131, R132). -/
abbrev floatReads : List (CommandWord × (Int → Int → Bool → Instr) × Nat × Nat × Nat) :=
  [(0x08, Instr.rdFloat, 8, 23, 31), (0x09, Instr.rdDouble, 11, 52, 63)]

theorem floatReads_encoded : ∀ form ∈ floatReads, EncodedF form.1 form.2.1 := by
  simp only [List.forall_mem_cons]
  exact ⟨encodedF_of_decodeOpcode (opc := 0x08) fun _ => rfl, encodedF_of_decodeOpcode (opc := 0x09) fun _ => rfl,
    List.forall_mem_nil _⟩

/-- Both are the common body, with the exponent placed right above the widest mantissa. -/
theorem floatReads_exec : ∀ form ∈ floatReads, ∀ e m signed s,
    exec (form.2.1 e m signed) s =
      rdFloating form.2.2.1 form.2.2.2.1 form.2.2.2.1 form.2.2.2.2 e m signed s := by
  simp only [List.forall_mem_cons]
  exact ⟨fun _ _ _ _ => rfl, fun _ _ _ _ => rfl, List.forall_mem_nil _⟩

/-- The widest mantissa and the widest exponent lie below the sign, which is a bit of `RES`. -/
theorem floatReads_layout : ∀ form ∈ floatReads,
    form.2.2.2.1 + form.2.2.1 ≤ form.2.2.2.2 ∧ form.2.2.2.2 < 64 := by
  simp [floatReads]

/-- Settles O16: both are the common body, whose pattern has the three fields on disjoint bits. -/
theorem floatReadsPlaceSignExponentMantissa : Obligations.FloatReadsPlaceSignExponentMantissa := by
  refine fun form hform => ⟨floatReads_encoded form hform, fun e m signed s => ?_⟩
  intro eMax mMax top
  obtain ⟨hlayout, htop⟩ : mMax + eMax ≤ top ∧ top < 64 := floatReads_layout form hform
  have hexec : exec (form.2.1 e m signed) s = rdFloating eMax mMax mMax top e m signed s :=
    floatReads_exec form hform e m signed s
  rw [hexec, rdFloating_eq]
  constructor
  · rintro ⟨he1, heMax, hm1, hmMax⟩
    rw [if_pos ⟨⟨he1, heMax⟩, hm1, hmMax⟩]
    have hman : m.toNat ≤ mMax := by omega
    have hexp : mMax + e.toNat ≤ top := by omega
    refine ⟨_, by simp only [Nat.add_assoc]; rfl, fun i => ?_⟩
    rw [getLsbD_floatPattern hman hexp htop]
    simp only [Rdu.advance_memRead, Rdu.advance_rcur, Nat.add_assoc]
  · intro hout
    rw [if_neg (by omega)]

end Sys2Proof.Reader
end

section
/-! The reader's variable-length integer (spec 42_reader_varint R140 to R144): the command is the loop over groups,
started at accumulator position 0 with fuel for the rest of the buffer. -/

namespace Sys2Proof.Reader

open Sys2Proof Sys2Proof.Machine Sys2Proof.Encoding

/-- `RD_VARINT` (42 R141), with what its loop leaves. -/
theorem execRdVarint_eq (g : Int) (s : State) :
    execRdVarint g s = .next (if 1 ≤ g ∧ g ≤ 64 then
        let r := rdGroups g.toNat (rdVarintFuel s.rdu) 0 ⟨0, 0, s.rdu⟩
        { s with rdu := r.rdu.count (r.groups * g.toNat) }.responded 0 r.acc
      else s.responded 2 0) := by
  unfold execRdVarint
  simp only [InRange, Nat.cast_one, Config.maxGroup, Nat.cast_ofNat]
  split <;> rfl

/-- The loop as `RD_VARINT` runs it. Bit `p` of the result is bit `p mod g` of group `p div g`; every position is below
64, so what a group carries beyond is in no bit of it (42 R142). -/
theorem rdGroups_of_start {g : Nat} (hg : 0 < g) (u : Rdu) :
    ∃ n, 1 ≤ n ∧
      (rdGroups g (rdVarintFuel u) 0 ⟨0, 0, u⟩).groups = n ∧
      (rdGroups g (rdVarintFuel u) 0 ⟨0, 0, u⟩).rdu = u.advance (n * (g + 1)) ∧
      (∀ j, j < n → u.memRead (u.rcur + j * (g + 1) + g) = decide (j + 1 < n)) ∧
      ∀ p, p < 64 → (rdGroups g (rdVarintFuel u) 0 ⟨0, 0, u⟩).acc.getLsbD p =
        (decide (p < n * g) && u.memRead (u.rcur + p / g * (g + 1) + p % g)) := by
  obtain ⟨n, hn, hgroups, hrdu, hmore, hstop, hacc⟩ :=
    rdGroups_spec g hg (rdVarintFuel u) 0 ⟨0, 0, u⟩ (Nat.le_refl _)
  refine ⟨n, hn, by simpa using hgroups, hrdu, fun j hj => ?_, fun p hp => by simpa using hacc p hp⟩
  by_cases hlast : j + 1 < n
  · simpa [hlast] using hmore j hlast
  · obtain rfl : j = n - 1 := by omega
    simpa [hlast] using hstop

/-- Settles O17: the loop stops at the group whose continuation bit is 0, and the command counts the payload bits of
the groups it read. -/
theorem varintReadStopsAtTheFirstZeroFlag : Obligations.VarintReadStopsAtTheFirstZeroFlag := by
  refine ⟨encodedW_of_decodeOpcode (opc := 0x0A) fun _ => rfl, fun g s => ?_⟩
  rw [show exec (.rdVarint g) s = execRdVarint g s from rfl, execRdVarint_eq]
  constructor
  · intro hg
    obtain ⟨n, hn, hgroups, hrdu, hflags, hacc⟩ := rdGroups_of_start (g := g.toNat) (by omega) s.rdu
    rw [if_pos hg]
    refine ⟨n, _, hn, ?_, hflags, hacc⟩
    simp only [hgroups, hrdu]
    rfl
  · intro hg
    rw [if_neg (by omega)]

end Sys2Proof.Reader
end

section
/-! The reader's decimal (spec 43_reader_decimal R150 to R153): a sign bit and two fields that follow each other on the
wire. -/

namespace Sys2Proof.Reader

open Sys2Proof Sys2Proof.Machine Sys2Proof.Encoding

/-- The width of the scaled-decimal field (43 R150), over the power of ten taken in `Int`. -/
theorem scaledWidth_eq (d : Nat) : scaledWidth d = bitsNeeded (10 ^ d) := by
  rw [scaledWidth, Nat.cast_pow, Nat.cast_ofNat]

/-- A field read `k` bits past the cursor has the bits of the wire from there on. -/
theorem testBit_rdField_advance (n k : Nat) (u : Rdu) (i : Nat) :
    (rdField n (u.advance k)).1.testBit i = (decide (i < n) && u.memRead (u.rcur + k + i)) := by
  rw [testBit_rdField, Rdu.advance_memRead, Rdu.advance_rcur]

/-- Settles O19: the integral part is the field read past the sign bit, the scaled part the field read past both. -/
theorem decimalReadCombinesItsParts : Obligations.DecimalReadCombinesItsParts := by
  refine ⟨encodedW_of_decodeOpcode (opc := 0x0B) fun _ => rfl, fun d s => ?_⟩
  intro a b
  have ha : integralWidth s.opd2.toInt = a := rfl
  have hb : scaledWidth d.toNat = b := scaledWidth_eq d.toNat
  rw [show exec (.rdDec d) s = execRdDec d s from rfl, execRdDec_eq, State.maxAbs, ha, hb]
  constructor
  · intro hrange
    rw [if_pos hrange]
    refine ⟨(rdField a (s.rdu.advance 1)).1, (rdField b (s.rdu.advance (1 + a))).1, ?_,
      testBit_rdField_advance a 1 s.rdu, fun i => ?_⟩
    · simp only [Nat.add_assoc]
      rfl
    · rw [testBit_rdField_advance, Nat.add_assoc s.rdu.rcur 1 a]
  · intro hout
    rw [if_neg (by omega)]

end Sys2Proof.Reader
end

section
/-! What a writing command adds to the wire (spec 44_writer_bits_and_integers R160 to R169): the bits written by the
writer's primitives, in the terms of the claims, and the bits of `OPD` they are. -/

namespace Sys2Proof.Writer

open Sys2Proof Sys2Proof.Machine

/-- From `u` to `u'`, `n` bits are written and `c` of them counted; a writer that meets its invariant has the bits `bit`
appended to its wire. -/
abbrev WritesBits (n c : Nat) (bit : Nat → Bool) (u u' : Wru) : Prop :=
  u'.wcur = u.wcur + n ∧ u'.wcnt = u.wcnt + c ∧ (WruInv u → AppendsBits n bit u u')

/-- A write of `n` bits followed by the count of `c`, on a writer that is not finalized. -/
theorem writesBits_count {n : Nat} {bit : Nat → Bool} {u u' : Wru} (hf : u.wfin = false)
    (hcursor : u'.wcur = u.wcur + n ∧ u'.wcnt = u.wcnt ∧ u'.wfin = u.wfin) (hwrote : WruGood u → Wrote n bit u u')
    (c : Nat) : WritesBits n c bit u (u'.count c) := by
  obtain ⟨hcur, hcnt, -⟩ := hcursor
  refine ⟨hcur, by rw [Wru.count_wcnt, hcnt], fun hinv => ?_⟩
  have hgood := hinv.good hf
  exact (hwrote hgood).appends hgood c

/-- The low `n` bits of `OPD` as a number (30_encoding R85). -/
theorem testBit_opdLow (s : State) (n i : Nat) :
    (s.opdLow n).toNat.testBit i = (decide (i < n) && s.opd.getLsbD i) := by
  rw [BitVec.testBit_toNat, State.opdLow, BitVec.getLsbD_setWidth]

/-- Bit 31 of the 32-bit pattern that `WR_PINT` and `WR_SINT` look at (44 R168, R169). -/
theorem getBit_opdLow_31 (s : State) : getBit (s.opdLow 32) 31 = s.opd.getLsbD 31 := by
  rw [getBit_eq_getLsbD _ (by decide), ← BitVec.testBit_toNat, testBit_opdLow]
  rfl

/-- A field of `w` bits taken from the low `n` bits of `OPD` is bits 0 to `w - 1` of `OPD` (44 R162, R163). -/
theorem wrField_opdLow_wrote {w n : Nat} (hw : w ≤ n) (s : State) (hgood : WruGood s.wru) :
    Wrote w (fun i => s.opd.getLsbD i) s.wru (wrField w (s.opdLow n).toNat s.wru) := by
  refine (wrField_wrote w _ hgood).congr fun i hi => ?_
  rw [testBit_opdLow, decide_eq_true (hi.trans_le hw), Bool.true_and]

/-- The common success of the fixed-width writes (44 R163): the field is written and all of it counted. -/
theorem wrField_opdLow_writesBits {w n : Nat} (hw : w ≤ n) {s : State} (hf : s.wru.wfin = false) :
    WritesBits w w (fun i => s.opd.getLsbD i) s.wru ((wrField w (s.opdLow n).toNat s.wru).count w) :=
  writesBits_count hf (wrField_cursor w _ s.wru) (wrField_opdLow_wrote hw s) w

/-- A field and the optional sign bit after it move the cursor over both (44 R169). -/
theorem wrSign_wrField_cursor (w v : Nat) (signed b : Bool) (u : Wru) :
    (wrSign signed b (wrField w v u)).wcur = u.wcur + (w + signed.toNat) ∧
      (wrSign signed b (wrField w v u)).wcnt = u.wcnt ∧ (wrSign signed b (wrField w v u)).wfin = u.wfin := by
  obtain ⟨hcur, hcnt, hfin⟩ := wrField_cursor w v u
  obtain ⟨hcur', hcnt', hfin'⟩ := wrSign_cursor signed b (wrField w v u)
  exact ⟨by rw [hcur', hcur, Nat.add_assoc], hcnt'.trans hcnt, hfin'.trans hfin⟩

end Sys2Proof.Writer
end

section
/-! The writer's bits and integers (spec 44_writer_bits_and_integers R160 to R169). -/

namespace Sys2Proof.Writer

open Sys2Proof Sys2Proof.Machine Sys2Proof.Encoding

/-! ### WR_BIT and WR_BOOL -/

/-- Both commands are one call of the write primitive; they differ in what they count (44 R160, R161). -/
theorem bitWrites_exec : ∀ form ∈ [(Instr.wrBit, 0), (Instr.wrBool, 1)], ∀ s : State,
    exec form.1 s = .next (if s.wru.wfin then s.responded 5 0
      else { s with wru := (wrBit s.opdBit s.wru).count form.2 }.responded 0 0) := by
  simp only [List.forall_mem_cons]
  refine ⟨fun s => ?_, fun s => ?_, List.forall_mem_nil _⟩
  · rw [show exec .wrBit s = execWrBit s from rfl, execWrBit, unlessFinalized_eq]
    split <;> rfl
  · rw [show exec .wrBool s = execWrBool s from rfl, execWrBool, unlessFinalized_eq]
    split <;> rfl

/-- Settles O24: on a writer that is not finalized either command writes `OPD[0]` and counts its own number of bits. -/
theorem bitWritesAppendOneBit : Obligations.BitWritesAppendOneBit := by
  refine ⟨encodedN_of_decodeOpcode (opc := 0x40) fun _ => rfl,
    encodedN_of_decodeOpcode (opc := 0x41) fun _ => rfl, fun form hform s => ?_⟩
  rw [bitWrites_exec form hform]
  constructor
  · intro hf
    rw [if_neg (Bool.eq_false_iff.mp hf)]
    exact ⟨_, rfl, writesBits_count hf (wrBit_cursor _ _) (fun hgood => wrBit_wrote hgood _) form.2⟩
  · intro hf
    rw [if_pos hf]

/-! ### The unsigned fixed-width writes -/

/-- The four writes: the bits of the row, the command, the greatest width (44 R164 to R167). -/
abbrev fixedWrites : List (CommandWord × (Int → Instr) × Nat) :=
  [(0x42, Instr.wrByte, 8), (0x43, Instr.wrShort, 16), (0x44, Instr.wrInt, 32), (0x45, Instr.wrLong, 64)]

theorem fixedWrites_encoded : ∀ form ∈ fixedWrites, EncodedW form.1 form.2.1 := by
  simp only [List.forall_mem_cons]
  exact ⟨encodedW_of_decodeOpcode (opc := 0x42) fun _ => rfl, encodedW_of_decodeOpcode (opc := 0x43) fun _ => rfl,
    encodedW_of_decodeOpcode (opc := 0x44) fun _ => rfl, encodedW_of_decodeOpcode (opc := 0x45) fun _ => rfl,
    List.forall_mem_nil _⟩

/-- Each of the four is `WrFixed` with its greatest width (44 R163). -/
theorem fixedWrites_exec : ∀ form ∈ fixedWrites, ∀ w s, exec (form.2.1 w) s = wrFixed w form.2.2 s := by
  simp only [List.forall_mem_cons]
  exact ⟨fun _ _ => rfl, fun _ _ => rfl, fun _ _ => rfl, fun _ _ => rfl, List.forall_mem_nil _⟩

/-- Settles O25: the four are `WrFixed`, which looks at `WFIN`, then at the width, then writes the field. -/
theorem fixedWidthWritesAppendTheField : Obligations.FixedWidthWritesAppendTheField := by
  refine fun form hform => ⟨fixedWrites_encoded form hform, fun w s => ?_⟩
  rw [fixedWrites_exec form hform, wrFixed_eq]
  refine ⟨?_, ?_, ?_⟩
  · rintro ⟨hf, hw⟩
    rw [if_neg (Bool.eq_false_iff.mp hf), if_pos hw]
    exact ⟨_, rfl, wrField_opdLow_writesBits (by omega) hf⟩
  · rintro ⟨hf, hw⟩
    rw [if_neg (Bool.eq_false_iff.mp hf), if_neg (by omega)]
  · intro hf
    rw [if_pos hf]

/-! ### WR_PINT -/

/-- `WR_PINT` (44 R168): `WFIN`, then the width, then the sign (60_exceptions R249). -/
theorem execWrPint_eq (w : Int) (s : State) :
    execWrPint w s = .next (if s.wru.wfin then s.responded 5 0 else if 1 ≤ w ∧ w ≤ 31 then
        if s.opd.getLsbD 31 then s.responded 3 0
        else { s with wru := (wrField w.toNat (s.opdLow 32).toNat s.wru).count w.toNat }.responded 0 0
      else s.responded 1 0) := by
  unfold execWrPint
  simp only [unlessFinalized_eq, InRange, Nat.cast_one, Config.maxWidthPint, Nat.cast_ofNat, getBit_opdLow_31]
  split
  · rfl
  · split
    · split <;> rfl
    · rfl

/-- Settles O26: the three checks come in the order of the rules, and past them the field is written. -/
theorem positiveOnlyWriteRefusesNegativeValues : Obligations.PositiveOnlyWriteRefusesNegativeValues := by
  refine ⟨encodedW_of_decodeOpcode (opc := 0x46) fun _ => rfl, fun w s => ?_⟩
  rw [show exec (.wrPint w) s = execWrPint w s from rfl, execWrPint_eq]
  refine ⟨?_, ?_, ?_, ?_⟩
  · rintro ⟨hf, hlo, hhi, hpos⟩
    rw [if_neg (Bool.eq_false_iff.mp hf), if_pos ⟨hlo, hhi⟩, if_neg (Bool.eq_false_iff.mp hpos)]
    exact ⟨_, rfl, wrField_opdLow_writesBits (by omega) hf⟩
  · rintro ⟨hf, hlo, hhi, hneg⟩
    rw [if_neg (Bool.eq_false_iff.mp hf), if_pos ⟨hlo, hhi⟩, if_pos hneg]
  · rintro ⟨hf, hw⟩
    rw [if_neg (Bool.eq_false_iff.mp hf), if_neg (by omega)]
  · intro hf
    rw [if_pos hf]

/-! ### WR_SINT -/

/-- `WR_SINT` (44 R169). -/
theorem execWrSint_eq (w : Int) (signed : Bool) (s : State) :
    execWrSint w signed s = .next (if s.wru.wfin then s.responded 5 0 else if 1 ≤ w ∧ w ≤ 32 then
        { s with
          wru := (wrSign signed (s.opd.getLsbD 31)
            (wrField w.toNat (s.opdLow 32).toNat s.wru)).count w.toNat }.responded 0 0
      else s.responded 1 0) := by
  unfold execWrSint
  simp only [unlessFinalized_eq, InRange, Nat.cast_one, Config.maxWidthInt, Nat.cast_ofNat, getBit_opdLow_31]
  split
  · rfl
  · split <;> rfl

/-- Settles O27: the field is written, then with `s = 1` bit 31 of the pattern, also where the field reaches it. -/
theorem signedWriteAppendsTheSignBitLast : Obligations.SignedWriteAppendsTheSignBitLast := by
  refine ⟨encodedWS_of_decodeOpcode (opc := 0x47) fun _ => rfl, fun w signed s => ?_⟩
  rw [show exec (.wrSint w signed) s = execWrSint w signed s from rfl, execWrSint_eq]
  refine ⟨?_, ?_, ?_⟩
  · rintro ⟨hf, hw⟩
    rw [if_neg (Bool.eq_false_iff.mp hf), if_pos hw, Nat.add_assoc]
    refine ⟨_, rfl, writesBits_count hf (wrSign_wrField_cursor _ _ _ _ _) (fun hgood => ?_) w.toNat⟩
    have hfield := wrField_opdLow_wrote (w := w.toNat) (n := 32) (by omega) s hgood
    exact hfield.trans hgood (wrSign_wrote signed _ hfield.good)
  · rintro ⟨hf, hw⟩
    rw [if_neg (Bool.eq_false_iff.mp hf), if_neg (by omega)]
  · intro hf
    rw [if_pos hf]

end Sys2Proof.Writer
end

section
/-! The writer's floats (spec 45_writer_float R180 to R183): the sign, the exponent field and the mantissa field of the
pattern in `OPD`, written one after the other. -/

namespace Sys2Proof.Writer

open Sys2Proof Sys2Proof.Machine Sys2Proof.Encoding

/-! ### The fields of the pattern are bits of `OPD` -/

/-- The top bit of the low `n + 1` bits of `OPD`, the sign of a pattern that wide (45 R180, R181). -/
theorem getBit_opdLow_top (s : State) (n : Nat) : getBit (s.opdLow (n + 1)) n = s.opd.getLsbD n := by
  rw [getBit_eq_getLsbD _ (Nat.lt_succ_self n), ← BitVec.testBit_toNat, testBit_opdLow,
    decide_eq_true (Nat.lt_succ_self n), Bool.true_and]

/-- A field cut out of the low `n` bits of `OPD`, starting at `place`. -/
theorem testBit_extractLsb'_opdLow {place len n i : Nat} (hfits : place + len ≤ n) (hi : i < len) (s : State) :
    ((s.opdLow n).extractLsb' place len).toNat.testBit i = s.opd.getLsbD (place + i) := by
  have hin : place + i < n := by omega
  rw [BitVec.testBit_toNat, BitVec.getLsbD_extractLsb', ← BitVec.testBit_toNat, testBit_opdLow,
    decide_eq_true hi, decide_eq_true hin, Bool.true_and, Bool.true_and]

/-- The low `w` bits of a field of the pattern are the `w` bits of `OPD` from `place` up (45 R183). -/
theorem wrField_extractLsb'_wrote {w len place n : Nat} (hw : w ≤ len) (hfits : place + len ≤ n) (s : State)
    {u : Wru} (hgood : WruGood u) :
    Wrote w (fun i => s.opd.getLsbD (place + i)) u
      (wrField w ((s.opdLow n).extractLsb' place len).toNat u) :=
  (wrField_wrote w _ hgood).congr fun _ hi => testBit_extractLsb'_opdLow hfits (hi.trans_le hw) s

/-! ### The three writes in a row -/

/-- The writer after the sign, the low `e` bits of the exponent field and the low `m` bits of the mantissa field of the
pattern in the low `top + 1` bits of `OPD`, before anything is counted (45 R180, R181). -/
def wrFloatFields (place top e m : Nat) (signed : Bool) (s : State) : Wru :=
  wrField m ((s.opdLow (top + 1)).extractLsb' 0 place).toNat
    (wrField e ((s.opdLow (top + 1)).extractLsb' place (top - place)).toNat
      (wrSign signed (getBit (s.opdLow (top + 1)) top) s.wru))

/-- The common body of the float writes, with what it writes by name. -/
theorem wrFloating_eq_wrFloatFields (eMax mMax place top : Nat) (e m : Int) (signed : Bool) (s : State) :
    wrFloating eMax mMax place top e m signed s =
      .next (if s.wru.wfin then s.responded 5 0 else if (1 ≤ e ∧ e ≤ eMax) ∧ 1 ≤ m ∧ m ≤ mMax then
        { s with
          wru := (wrFloatFields place top e.toNat m.toNat signed s).count (e.toNat + m.toNat) }.responded 0 0
      else s.responded 1 0) :=
  wrFloating_eq eMax mMax place top e m signed s

/-- A field written after `k` bits moves the cursor on by its width and touches neither `WCNT` nor `WFIN`. -/
theorem wrField_cursor_after {k : Nat} {u u' : Wru}
    (h : u'.wcur = u.wcur + k ∧ u'.wcnt = u.wcnt ∧ u'.wfin = u.wfin) (w v : Nat) :
    (wrField w v u').wcur = u.wcur + (k + w) ∧ (wrField w v u').wcnt = u.wcnt ∧
      (wrField w v u').wfin = u.wfin := by
  obtain ⟨hcur, hcnt, hfin⟩ := h
  obtain ⟨hcur', hcnt', hfin'⟩ := wrField_cursor w v u'
  exact ⟨by rw [hcur', hcur, Nat.add_assoc], hcnt'.trans hcnt, hfin'.trans hfin⟩

/-- The three writes move the cursor over the optional sign and both fields. -/
theorem wrFloatFields_cursor (place top e m : Nat) (signed : Bool) (s : State) :
    (wrFloatFields place top e m signed s).wcur = s.wru.wcur + (signed.toNat + e + m) ∧
      (wrFloatFields place top e m signed s).wcnt = s.wru.wcnt ∧
      (wrFloatFields place top e m signed s).wfin = s.wru.wfin :=
  wrField_cursor_after (wrField_cursor_after (wrSign_cursor signed _ s.wru) e _) m _

/-- Bit `i` of what a float write puts on the wire: the sign, then the exponent field from `place` up, then the mantissa
field from 0 up (45 R180, R181). -/
abbrev floatWireBit (place top e : Nat) (signed : Bool) (s : State) (i : Nat) : Bool :=
  if i < signed.toNat then s.opd.getLsbD top
  else if i < signed.toNat + e then s.opd.getLsbD (place + (i - signed.toNat))
  else s.opd.getLsbD (i - signed.toNat - e)

/-- On a writer that meets its invariant the three writes follow each other on the wire. -/
theorem wrFloatFields_wrote {place top e m : Nat} (he : place + e ≤ top) (hm : m ≤ place) (signed : Bool) {s : State}
    (hgood : WruGood s.wru) :
    Wrote (signed.toNat + e + m) (floatWireBit place top e signed s) s.wru
      (wrFloatFields place top e m signed s) := by
  have hsign := wrSign_wrote signed (getBit (s.opdLow (top + 1)) top) hgood
  have hexp := wrField_extractLsb'_wrote (w := e) (len := top - place) (place := place) (n := top + 1)
    (by omega) (by omega) s hsign.good
  have hman := wrField_extractLsb'_wrote (w := m) (len := place) (place := 0) (n := top + 1)
    hm (by omega) s hexp.good
  refine ((hsign.trans hgood hexp).trans hgood hman).congr fun i _ => ?_
  rw [getBit_opdLow_top, Nat.zero_add, Nat.sub_add_eq]
  by_cases hi : i < signed.toNat
  · rw [floatWireBit, if_pos (by omega : i < signed.toNat + e), if_pos hi, if_pos hi]
  · rw [floatWireBit, if_neg hi, if_neg hi]

/-- The common success of the float writes: both fields are counted, the sign is not (45 R180, R181). -/
theorem wrFloatFields_writesBits {place top e m : Nat} (he : place + e ≤ top) (hm : m ≤ place) (signed : Bool)
    {s : State} (hf : s.wru.wfin = false) :
    WritesBits (signed.toNat + e + m) (e + m) (floatWireBit place top e signed s) s.wru
      ((wrFloatFields place top e m signed s).count (e + m)) :=
  writesBits_count hf (wrFloatFields_cursor place top e m signed s) (wrFloatFields_wrote he hm signed) (e + m)

/-! ### WR_FLOAT and WR_DOUBLE -/

/-- The two writes: the bits of the row, the command, the greatest exponent and mantissa widths, and the position of the
sign (45 R180, R181). -/
abbrev floatWrites : List (CommandWord × (Int → Int → Bool → Instr) × Nat × Nat × Nat) :=
  [(0x48, Instr.wrFloat, 8, 23, 31), (0x49, Instr.wrDouble, 11, 52, 63)]

theorem floatWrites_encoded : ∀ form ∈ floatWrites, EncodedF form.1 form.2.1 := by
  simp only [List.forall_mem_cons]
  exact ⟨encodedF_of_decodeOpcode (opc := 0x48) fun _ => rfl, encodedF_of_decodeOpcode (opc := 0x49) fun _ => rfl,
    List.forall_mem_nil _⟩

/-- Both are the common body, with the exponent field right above the widest mantissa. -/
theorem floatWrites_exec : ∀ form ∈ floatWrites, ∀ e m signed s,
    exec (form.2.1 e m signed) s =
      wrFloating form.2.2.1 form.2.2.2.1 form.2.2.2.1 form.2.2.2.2 e m signed s := by
  simp only [List.forall_mem_cons]
  exact ⟨fun _ _ _ _ => rfl, fun _ _ _ _ => rfl, List.forall_mem_nil _⟩

/-- The widest mantissa and the widest exponent lie below the sign. -/
theorem floatWrites_layout : ∀ form ∈ floatWrites, form.2.2.2.1 + form.2.2.1 ≤ form.2.2.2.2 := by
  simp [floatWrites]

/-- Settles O29: both are the common body, which looks at `WFIN`, then at the widths, then writes the sign and the two
fields of the pattern. -/
theorem floatWritesAppendSignExponentMantissa : Obligations.FloatWritesAppendSignExponentMantissa := by
  refine fun form hform => ⟨floatWrites_encoded form hform, fun e m signed s => ?_⟩
  intro eMax mMax top
  have hlayout : mMax + eMax ≤ top := floatWrites_layout form hform
  have hexec : exec (form.2.1 e m signed) s = wrFloating eMax mMax mMax top e m signed s :=
    floatWrites_exec form hform e m signed s
  rw [hexec, wrFloating_eq_wrFloatFields]
  refine ⟨?_, ?_, ?_⟩
  · rintro ⟨hf, he1, heMax, hm1, hmMax⟩
    rw [if_neg (Bool.eq_false_iff.mp hf), if_pos ⟨⟨he1, heMax⟩, hm1, hmMax⟩]
    obtain ⟨hcur, hcnt, happends⟩ := wrFloatFields_writesBits (place := mMax) (top := top) (e := e.toNat)
      (m := m.toNat) (by omega) (by omega) signed hf
    exact ⟨_, rfl, by rw [hcur]; omega, by rw [hcnt]; omega, happends⟩
  · rintro ⟨hf, hout⟩
    rw [if_neg (Bool.eq_false_iff.mp hf), if_neg (by omega)]
  · intro hf
    rw [if_pos hf]

end Sys2Proof.Writer
end

section
/-! The writer's variable-length integer (spec 46_writer_varint R190 to R194). The number of groups is a matter of the
value and the group size alone; the writer decides only where the bits go. -/

namespace Sys2Proof.Writer

open Sys2Proof Sys2Proof.Machine Sys2Proof.Encoding

/-- `V` has `n` groups of `g` bits: at least one, and of those written exactly the last leaves nothing of `V` above it
(46 R190, R192). -/
def GroupCount (g V n : Nat) : Prop :=
  1 ≤ n ∧ ∀ j, j < n → (V / 2 ^ ((j + 1) * g) ≠ 0 ↔ j + 1 < n)

theorem groupCount_one {g V : Nat} (h : V / 2 ^ g = 0) : GroupCount g V 1 := by
  refine ⟨le_refl 1, fun j hj => ?_⟩
  obtain rfl : j = 0 := by omega
  simp [h]

/-- A first group that leaves something is followed by the groups of what it leaves. -/
theorem groupCount_succ {g V n : Nat} (h : V / 2 ^ g ≠ 0) (hrest : GroupCount g (V / 2 ^ g) n) :
    GroupCount g V (n + 1) := by
  obtain ⟨hn, hlast⟩ := hrest
  refine ⟨by omega, fun j hj => ?_⟩
  cases j with
  | zero => simpa [h] using (show 0 < n by omega)
  | succ j =>
    have hshift : V / 2 ^ ((j + 1 + 1) * g) = V / 2 ^ g / 2 ^ ((j + 1) * g) := by
      rw [Nat.div_div_eq_div_mul, ← Nat.pow_add, Nat.add_mul (j + 1) 1 g, Nat.one_mul, Nat.add_comm g]
    rw [hshift, hlast j (by omega), Nat.add_lt_add_iff_right]

/-- The loop of `WR_VARINT`, given fuel for every bit of `rem`, writes the groups of `rem`, on any writer. -/
theorem wrGroups_groupCount {g : Nat} (hg : 0 < g) (fuel rem : Nat) (r : VarintWrite) (hfuel : rem < 2 ^ (fuel + 1)) :
    ∃ n, GroupCount g rem n ∧ (wrGroups g fuel rem r).groups = r.groups + n := by
  induction fuel generalizing rem r with
  | zero =>
    have hbit : rem < 2 ^ g := hfuel.trans_le (Nat.pow_le_pow_right Nat.two_pos hg)
    exact ⟨1, groupCount_one (Nat.div_eq_of_lt hbit), rfl⟩
  | succ fuel ih =>
    rw [wrGroups]
    by_cases hleft : rem / 2 ^ g = 0
    · rw [if_neg (by simp [hleft])]
      exact ⟨1, groupCount_one hleft, rfl⟩
    · rw [if_pos (by simp [hleft])]
      have hrest : rem / 2 ^ g < 2 ^ (fuel + 1) := by
        rw [Nat.div_lt_iff_lt_mul (Nat.two_pow_pos g), ← Nat.pow_add]
        exact hfuel.trans_le (Nat.pow_le_pow_right Nat.two_pos (by omega))
      obtain ⟨n, hn, hgroups⟩ := ih (rem / 2 ^ g) (wrGroup g rem r) hrest
      refine ⟨n + 1, groupCount_succ hleft hn, ?_⟩
      rw [hgroups, wrGroup, Nat.add_assoc, Nat.add_comm 1]

/-- Bit `i` of `n` groups of `V` on the wire: within a group the bits of `V`, after it whether a group follows
(46 R190). -/
abbrev varintWireBit (g V n i : Nat) : Bool :=
  if i % (g + 1) < g then V.testBit (i / (g + 1) * g + i % (g + 1)) else decide (i / (g + 1) + 1 < n)

/-- The loop as `WR_VARINT` runs it: `n` groups go on the wire with their flags, and the payload bits are counted
(46 R190, R194). -/
theorem wrGroups_writesBits {g : Nat} (hg : 0 < g) (V : Word) {u : Wru} (hf : u.wfin = false) :
    ∃ n, GroupCount g V.toNat n ∧
      WritesBits (n * (g + 1)) (n * g) (varintWireBit g V.toNat n) u
        ((wrGroups g wrVarintFuel V.toNat ⟨0, u⟩).wru.count
          ((wrGroups g wrVarintFuel V.toNat ⟨0, u⟩).groups * g)) := by
  obtain ⟨n, hn, hgroups⟩ := wrGroups_groupCount hg wrVarintFuel V.toNat ⟨0, u⟩ V.isLt
  obtain ⟨hcur, -, hcnt, hfin⟩ := wrGroups_cursor g wrVarintFuel V.toNat ⟨0, u⟩
  rw [hgroups] at hcur ⊢
  simp only [Nat.zero_add, Nat.zero_mul, Nat.add_zero] at hcur ⊢
  refine ⟨n, hn, writesBits_count hf ⟨hcur, hcnt, hfin⟩ (fun hgood => ?_) (n * g)⟩
  obtain ⟨n', -, hgroups', -, -, hwrote⟩ := wrGroups_spec g hg wrVarintFuel V.toNat ⟨0, u⟩ hgood V.isLt
  obtain rfl : n = n' := Nat.add_left_cancel (hgroups.symm.trans hgroups')
  exact hwrote

/-- `WR_VARINT` (46 R190), with what its loop leaves. -/
theorem execWrVarint_eq (g : Int) (s : State) :
    execWrVarint g s = .next (if s.wru.wfin then s.responded 5 0 else if 1 ≤ g ∧ g ≤ 64 then
        let r := wrGroups g.toNat wrVarintFuel s.opd.toNat ⟨0, s.wru⟩
        { s with wru := r.wru.count (r.groups * g.toNat) }.responded 0 0
      else s.responded 2 0) := by
  unfold execWrVarint
  simp only [unlessFinalized_eq, InRange, Nat.cast_one, Config.maxGroup, Nat.cast_ofNat]
  split
  · rfl
  · split <;> rfl

/-- Settles O30: the command looks at `WFIN`, then at the group size, then runs the loop over the groups of `OPD`. -/
theorem varintWriteAppendsGroupsAndFlags : Obligations.VarintWriteAppendsGroupsAndFlags := by
  refine ⟨encodedW_of_decodeOpcode (opc := 0x4A) fun _ => rfl, fun g s => ?_⟩
  rw [show exec (.wrVarint g) s = execWrVarint g s from rfl, execWrVarint_eq]
  refine ⟨?_, ?_, ?_⟩
  · rintro ⟨hf, hg⟩
    obtain ⟨n, ⟨hn, hlast⟩, hwrites⟩ := wrGroups_writesBits (g := g.toNat) (by omega) s.opd hf
    rw [if_neg (Bool.eq_false_iff.mp hf), if_pos hg]
    exact ⟨n, _, hn, hlast, rfl, hwrites⟩
  · rintro ⟨hf, hg⟩
    rw [if_neg (Bool.eq_false_iff.mp hf), if_neg (by omega)]
  · intro hf
    rw [if_pos hf]

end Sys2Proof.Writer
end

section
/-! The writer's decimal (spec 47_writer_decimal R200 to R203): which parts a pattern has is a matter of the operand
alone; the sign bit and two fields then follow each other on the wire, finite operand or not. -/

namespace Sys2Proof.Writer

open Sys2Proof Sys2Proof.Machine Sys2Proof.Encoding

/-! ### The parts of the operand -/

/-- The model's test of the exponent field is the one of the claims (00_scope R8). -/
theorem f64IsFinite_iff (p : Word) : f64IsFinite p = true ↔ F64Finite p := by
  rw [f64IsFinite, f64ExpField, bne_iff_ne, F64Finite, not_iff_not]
  exact (BitVec.toNat_inj (y := 0x7FF#11))

theorem decimalParts_of_finite {s : State} (h : F64Finite s.opd) (d : Nat) :
    decimalParts d s = decSplit s.roundTies s.opd d := by
  rw [decimalParts, if_pos ((f64IsFinite_iff _).2 h)]

theorem decimalParts_of_not_finite {s : State} (h : ¬F64Finite s.opd) (d : Nat) :
    decimalParts d s = nonFiniteParts s.freeCount s.opd := by
  rw [decimalParts, if_neg (mt (f64IsFinite_iff _).1 h)]

/-- Of an infinity or a NaN the sign bit is 1 for negative infinity only (47 R203). -/
theorem nonFiniteParts_sg_iff (k : Nat) (p : Word) : (nonFiniteParts k p).sg = true ↔ p = 0xFFF0000000000000 := by
  rw [nonFiniteParts, nonFiniteSign, beq_iff_eq]

/-! ### The counter of free values -/

theorem drawFree_of_finite {s : State} (h : F64Finite s.opd) : s.drawFree = s := by
  rw [State.drawFree, if_pos ((f64IsFinite_iff _).2 h)]

/-- Drawing a free value moves the counter at most (log 6). -/
theorem drawFree_eq (s : State) : s.drawFree = { s with freeCount := s.drawFree.freeCount } := by
  unfold State.drawFree
  split <;> rfl

/-! ### WR_DEC -/

/-- The sign bit and the two fields go on the wire, whatever the parts are; the fields are counted, the sign is not
(47 R200). -/
theorem wrDecimal_writesBits (a b : Nat) (parts : DecimalParts) {u : Wru} (hf : u.wfin = false) :
    WritesBits (1 + a + b) (a + b)
      (fun i => if i = 0 then parts.sg else if i < 1 + a then parts.ip.testBit (i - 1)
        else parts.sd.testBit (i - 1 - a))
      u (wrDecimal a b parts u) :=
  writesBits_count hf (wrField_cursor_after (wrField_cursor_after (wrBit_cursor parts.sg u) a parts.ip) b parts.sd)
    (wrDecimal_wrote a b parts) (a + b)

/-- `WR_DEC` (47 R200): `WFIN`, then the ranges of `M` and `d`; past them it succeeds for every operand. -/
theorem execWrDec_eq (d : Int) (s : State) :
    execWrDec d s = .next (if s.wru.wfin then s.responded 5 0 else if 0 < s.maxAbs ∧ 0 ≤ d ∧ d ≤ 18 then
        { s with
          wru := wrDecimal (integralWidth s.maxAbs) (scaledWidth d.toNat) (decimalParts d.toNat s) s.wru
          freeCount := s.drawFree.freeCount }.responded 0 0
      else s.responded 4 0) := by
  unfold execWrDec
  simp only [unlessFinalized_eq, DecimalRange, InRange, Config.maxDecimalPlaces, Nat.cast_zero, Nat.cast_ofNat]
  split
  · rfl
  · split
    · rw [finishWru_eq, drawFree_eq]
    · rfl

/-- Settles O32: the command looks at `WFIN`, then at the ranges, then writes the parts; only the parts and the counter
of free values depend on whether the operand is finite. -/
theorem decimalWriteAppendsItsParts : Obligations.DecimalWriteAppendsItsParts := by
  refine ⟨encodedW_of_decodeOpcode (opc := 0x4B) fun _ => rfl, fun d s => ?_⟩
  intro a b
  have ha : integralWidth s.opd2.toInt = a := rfl
  have hb : scaledWidth d.toNat = b := Reader.scaledWidth_eq d.toNat
  rw [show exec (.wrDec d) s = execWrDec d s from rfl, execWrDec_eq, State.maxAbs, ha, hb]
  refine ⟨?_, ?_, ?_⟩
  · rintro ⟨hf, hrange⟩
    rw [if_neg (Bool.eq_false_iff.mp hf), if_pos hrange]
    obtain ⟨hcur, hcnt, happends⟩ := wrDecimal_writesBits a b (decimalParts d.toNat s) hf
    refine ⟨decimalParts d.toNat s, _, _, rfl, by rw [hcur]; omega, by rw [hcnt]; omega, happends,
      fun hfin => ⟨decimalParts_of_finite hfin _, by rw [drawFree_of_finite hfin]⟩, fun hnot => ?_⟩
    rw [decimalParts_of_not_finite hnot, nonFiniteParts_sg_iff]
  · rintro ⟨hf, hout⟩
    rw [if_neg (Bool.eq_false_iff.mp hf), if_neg (by omega)]
  · intro hf
    rw [if_pos hf]

end Sys2Proof.Writer
end

section
/-! The bit-twiddling leaf (spec 49_twiddle R220 to R232): the commands on one bit of an operand of 8, 16, 32 or 64
bits, and the least width of a range. -/

namespace Sys2Proof.Twiddle

open Sys2Proof Sys2Proof.Machine Sys2Proof.Encoding

/-! ### Operands and results, bit by bit -/

/-- The low part of `OPD`: its bits below `n`, and 0 from `n` on (30_encoding R85). -/
theorem getLsbD_opdLow (s : State) (n i : Nat) : (s.opdLow n).getLsbD i = (decide (i < n) && s.opd.getLsbD i) := by
  rw [State.opdLow, BitVec.getLsbD_setWidth]

/-- `SetBit_n` of the low part of `OPD`, zero-extended to `RES` (49 R225 to R229). -/
theorem getLsbD_setBit_opdLow {n pos : Nat} (hn : n ≤ 64) (hpos : pos < n) (flag : Bool) (s : State) (i : Nat) :
    ((setBit (s.opdLow n) pos flag).setWidth 64).getLsbD i =
      if i = pos then flag else (decide (i < n) && s.opd.getLsbD i) := by
  rw [BitVec.getLsbD_setWidth]
  by_cases hi : i < n
  · rw [getLsbD_setBit _ _ _ _ hi, getLsbD_opdLow, decide_eq_true (hi.trans_le hn), Bool.true_and]
  · rw [BitVec.getLsbD_of_ge _ _ (Nat.le_of_not_lt hi), if_neg (by omega), decide_eq_false hi, Bool.false_and,
      Bool.and_false]

/-! ### TW_GETBIT8, 16, 32, 64 -/

/-- The four bit reads: the bits of the row, the command, the operand's width (49 R221 to R224). -/
abbrev bitGets : List (CommandWord × (Int → Instr) × Nat) :=
  [(0x80, Instr.twGetbit8, 8), (0x81, Instr.twGetbit16, 16), (0x82, Instr.twGetbit32, 32), (0x83, Instr.twGetbit64, 64)]

theorem bitGets_encoded : ∀ form ∈ bitGets, EncodedW form.1 form.2.1 := by
  simp only [List.forall_mem_cons]
  exact ⟨encodedW_of_decodeOpcode (opc := 0x80) fun _ => rfl, encodedW_of_decodeOpcode (opc := 0x81) fun _ => rfl,
    encodedW_of_decodeOpcode (opc := 0x82) fun _ => rfl, encodedW_of_decodeOpcode (opc := 0x83) fun _ => rfl,
    List.forall_mem_nil _⟩

theorem bitGets_exec : ∀ form ∈ bitGets, ∀ pos s, exec (form.2.1 pos) s = twGetBit form.2.2 pos s := by
  simp only [List.forall_mem_cons]
  exact ⟨fun _ _ => rfl, fun _ _ => rfl, fun _ _ => rfl, fun _ _ => rfl, List.forall_mem_nil _⟩

/-- Settles O34: the four are one body at their widths, and a position inside the operand meets the bit of `OPD`
itself. -/
theorem getBitReturnsTheBit : Obligations.GetBitReturnsTheBit := by
  refine fun form hform => ⟨bitGets_encoded form hform, fun pos s => ?_⟩
  rw [bitGets_exec form hform, twGetBit_eq]
  constructor
  · intro hpos
    have hlt : pos.toNat < form.2.2 := by omega
    rw [if_pos (by omega), getLsbD_opdLow, decide_eq_true hlt, Bool.true_and]
  · intro hpos
    rw [if_neg (by omega)]

/-! ### TW_SETBIT8, 16, 32, 64 -/

/-- The four bit writes: the bits of the row, the command, the operand's width (49 R226 to R229). -/
abbrev bitSets : List (CommandWord × (Int → Bool → Instr) × Nat) :=
  [(0x84, Instr.twSetbit8, 8), (0x85, Instr.twSetbit16, 16), (0x86, Instr.twSetbit32, 32), (0x87, Instr.twSetbit64, 64)]

theorem bitSets_encoded : ∀ form ∈ bitSets, EncodedWS form.1 form.2.1 := by
  simp only [List.forall_mem_cons]
  exact ⟨encodedWS_of_decodeOpcode (opc := 0x84) fun _ => rfl, encodedWS_of_decodeOpcode (opc := 0x85) fun _ => rfl,
    encodedWS_of_decodeOpcode (opc := 0x86) fun _ => rfl, encodedWS_of_decodeOpcode (opc := 0x87) fun _ => rfl,
    List.forall_mem_nil _⟩

theorem bitSets_exec : ∀ form ∈ bitSets, ∀ pos flag s,
    exec (form.2.1 pos flag) s = twSetBit form.2.2 pos flag s := by
  simp only [List.forall_mem_cons]
  exact ⟨fun _ _ _ => rfl, fun _ _ _ => rfl, fun _ _ _ => rfl, fun _ _ _ => rfl, List.forall_mem_nil _⟩

/-- An operand of any of the four fits `RES`. -/
theorem bitSets_width : ∀ form ∈ bitSets, form.2.2 ≤ 64 := by
  simp [bitSets]

/-- Settles O35: the four are one body at their widths, whose result is `SetBit_n` of the low part of `OPD`. -/
theorem setBitSetsOneBit : Obligations.SetBitSetsOneBit := by
  refine fun form hform => ⟨bitSets_encoded form hform, fun pos flag s => ?_⟩
  rw [bitSets_exec form hform, twSetBit_eq]
  constructor
  · intro hpos
    rw [if_pos (by omega)]
    exact ⟨_, rfl, getLsbD_setBit_opdLow (bitSets_width form hform) (by omega) flag s⟩
  · intro hpos
    rw [if_neg (by omega)]

/-! ### TW_BITSNEEDED -/

/-- The least width (49 R230): a smaller one is at most the one that `bitsNeeded_spec` shows too small for `r`. -/
theorem bitsNeeded_le_iff {r : Int} {c : Nat} (hc : 1 ≤ c) : bitsNeeded r ≤ c ↔ r ≤ 2 ^ c := by
  obtain ⟨-, henough, hleast⟩ := bitsNeeded_spec r
  constructor
  · intro hle
    exact henough.trans (pow_le_pow_right₀ one_le_two hle)
  · intro hr
    by_contra hlt
    have htight : (2 : Int) ^ (bitsNeeded r - 1) < r := hleast (by omega)
    have hpow : (2 : Int) ^ c ≤ 2 ^ (bitsNeeded r - 1) := pow_le_pow_right₀ one_le_two (by omega)
    exact absurd htight (not_lt.2 (hr.trans hpow))

/-- Every 64-bit operand has a result of at most 63 (49 R231). -/
theorem bitsNeeded_toInt_le (v : Word) : bitsNeeded v.toInt ≤ 63 :=
  (bitsNeeded_le_iff (by decide)).2 (BitVec.toInt_lt (x := v)).le

/-- Settles O37: the response is `BitsNeeded` of the signed operand, the least width that is enough for it. -/
theorem bitsNeededReturnsTheLeastWidth : Obligations.BitsNeededReturnsTheLeastWidth := by
  refine ⟨encodedN_of_decodeOpcode (opc := 0x88) fun _ => rfl, fun s => ?_⟩
  obtain ⟨hpos, henough, -⟩ := bitsNeeded_spec s.opd.toInt
  exact ⟨bitsNeeded s.opd.toInt, rfl, hpos, bitsNeeded_toInt_le s.opd, henough,
    fun c hc => (bitsNeeded_le_iff hc).2⟩

end Sys2Proof.Twiddle
end

section
/-! The errors (spec 60_exceptions R240 to R250): each command ends with the status of the first check of its own that
fails, in the order of R249, and a command that fails a check is answered and does nothing else. -/

namespace Sys2Proof.Exceptions

open Sys2Proof Sys2Proof.Machine Sys2Proof.Encoding Sys2Proof.Reader Sys2Proof.Writer

/-! ### How a command ends -/

/-- The command presented in `s` is answered with the status `st`; if that is an error, with `RES = 0`, and the answer
is all that happens (R250). -/
def EndsWith (s : State) (st : BitVec 4) (o : Result) : Prop :=
  ∃ t res, o = .next t ∧ t.responses = ⟨st, res⟩ :: s.responses ∧ (st ≠ 0 → res = 0 ∧ t = s.responded st 0)

namespace EndsWith

variable {s t : State} {st : BitVec 4}

theorem error (s : State) (st : BitVec 4) : EndsWith s st (.next (s.responded st 0)) :=
  ⟨_, 0, rfl, rfl, fun _ => ⟨rfl, rfl⟩⟩

theorem ok {res : Word} (h : t.responses = ⟨0, res⟩ :: s.responses) : EndsWith s 0 (.next t) :=
  ⟨t, res, rfl, h, fun herror => absurd rfl herror⟩

/-- A check before the rest of a command: the error rule `err` holds where the condition `p` of the body fails. -/
theorem checked {err p : Prop} [Decidable err] [Decidable p] (herr : err ↔ ¬p) (code : BitVec 4)
    (h : EndsWith s st (.next t)) :
    EndsWith s (if decide err then code else st) (.next (if p then t else s.responded code 0)) := by
  by_cases hp : p
  · rw [if_pos hp, decide_eq_false (mt herr.1 (not_not_intro hp))]
    exact h
  · rw [if_neg hp, decide_eq_true (herr.2 hp)]
    exact error s code

/-- A check whose condition is the error itself. -/
theorem refused {err : Bool} (code : BitVec 4) (h : EndsWith s st (.next t)) :
    EndsWith s (if err then code else st) (.next (if err then s.responded code 0 else t)) := by
  cases err
  · exact h
  · exact error s code

end EndsWith

/-! ### The shared bodies -/

section Bodies

variable (s : State)

theorem rdFixed_endsWith (w : Int) (T : Nat) :
    EndsWith s (if decide (w < 1 ∨ T < w) then 1 else 0) (rdFixed w T s) := by
  rw [rdFixed_eq]
  exact .checked (by omega) 1 (.ok rfl)

theorem rdFloating_endsWith (eMax mMax place top : Nat) (e m : Int) (signed : Bool) :
    EndsWith s (if decide (e < 1 ∨ eMax < e ∨ m < 1 ∨ mMax < m) then 1 else 0)
      (rdFloating eMax mMax place top e m signed s) := by
  rw [rdFloating_eq]
  exact .checked (by omega) 1 (.ok rfl)

/-- `WFIN` is looked at before the width (R249). -/
theorem wrFixed_endsWith (w : Int) (T : Nat) :
    EndsWith s (if s.wru.wfin then 5 else if decide (w < 1 ∨ T < w) then 1 else 0) (wrFixed w T s) := by
  rw [wrFixed_eq]
  exact .refused 5 (.checked (by omega) 1 (.ok rfl))

theorem wrFloating_endsWith (eMax mMax place top : Nat) (e m : Int) (signed : Bool) :
    EndsWith s (if s.wru.wfin then 5 else if decide (e < 1 ∨ eMax < e ∨ m < 1 ∨ mMax < m) then 1 else 0)
      (wrFloating eMax mMax place top e m signed s) := by
  rw [wrFloating_eq]
  exact .refused 5 (.checked (by omega) 1 (.ok rfl))

theorem twGetBit_endsWith (last : Nat) (pos : Int) :
    EndsWith s (if decide (pos < 0 ∨ last < pos) then 7 else 0) (twGetBit (last + 1) pos s) := by
  rw [twGetBit_eq]
  exact .checked (by omega) 7 (.ok rfl)

theorem twSetBit_endsWith (last : Nat) (pos : Int) (flag : Bool) :
    EndsWith s (if decide (pos < 0 ∨ last < pos) then 7 else 0) (twSetBit (last + 1) pos flag s) := by
  rw [twSetBit_eq]
  exact .checked (by omega) 7 (.ok rfl)

/-! ### The commands with a body of their own -/

theorem execRdSint_endsWith (w : Int) (signed : Bool) :
    EndsWith s (if decide (w < 1 ∨ 32 < w) then 1 else 0) (execRdSint w signed s) := by
  rw [execRdSint_eq]
  exact .checked (by omega) 1 (.ok rfl)

theorem execRdVarint_endsWith (g : Int) :
    EndsWith s (if decide (g < 1 ∨ 64 < g) then 2 else 0) (execRdVarint g s) := by
  rw [execRdVarint_eq]
  exact .checked (by omega) 2 (.ok rfl)

theorem execRdDec_endsWith (d : Int) :
    EndsWith s (if decide (s.opd2.toInt ≤ 0 ∨ d < 0 ∨ 18 < d) then 4 else 0) (execRdDec d s) := by
  rw [execRdDec_eq]
  exact .checked (by rw [State.maxAbs]; omega) 4 (.ok rfl)

/-- Of the three checks the sign comes last (R249). -/
theorem execWrPint_endsWith (w : Int) :
    EndsWith s (if s.wru.wfin then 5 else if decide (w < 1 ∨ 31 < w) then 1 else if s.opd.getLsbD 31 then 3 else 0)
      (execWrPint w s) := by
  rw [execWrPint_eq]
  exact .refused 5 (.checked (by omega) 1 (.refused 3 (.ok rfl)))

theorem execWrSint_endsWith (w : Int) (signed : Bool) :
    EndsWith s (if s.wru.wfin then 5 else if decide (w < 1 ∨ 32 < w) then 1 else 0) (execWrSint w signed s) := by
  rw [execWrSint_eq]
  exact .refused 5 (.checked (by omega) 1 (.ok rfl))

theorem execWrVarint_endsWith (g : Int) :
    EndsWith s (if s.wru.wfin then 5 else if decide (g < 1 ∨ 64 < g) then 2 else 0) (execWrVarint g s) := by
  rw [execWrVarint_eq]
  exact .refused 5 (.checked (by omega) 2 (.ok rfl))

theorem execWrDec_endsWith (d : Int) :
    EndsWith s (if s.wru.wfin then 5 else if decide (s.opd2.toInt ≤ 0 ∨ d < 0 ∨ 18 < d) then 4 else 0)
      (execWrDec d s) := by
  rw [execWrDec_eq]
  exact .refused 5 (.checked (by rw [State.maxAbs]; omega) 4 (.ok rfl))

theorem unknownRegister_endsWith {i : Instr} (h : unknownRegister i = true) : EndsWith s 6 (exec i s) := by
  rw [exec_unknownRegister h]
  exact .error s 6

/-- A status read of a register there is ends with `OK`, of any other with `IllegalCommand` (R246). -/
theorem execRdStat_endsWith (n : Int) :
    EndsWith s (if decide (n < 0 ∨ 2 < n) then 6 else 0) (execRdStat n s) := by
  by_cases hn : n < 0 ∨ 2 < n
  · rw [decide_eq_true hn]
    exact unknownRegister_endsWith s (i := .rdStat n) (decide_eq_true hn)
  · rw [decide_eq_false hn]
    obtain rfl | rfl | rfl : n = 0 ∨ n = 1 ∨ n = 2 := by omega
    all_goals exact .ok rfl

theorem execWrStat_endsWith (n : Int) :
    EndsWith s (if decide (n < 0 ∨ 3 < n) then 6 else 0) (execWrStat n s) := by
  by_cases hn : n < 0 ∨ 3 < n
  · rw [decide_eq_true hn]
    exact unknownRegister_endsWith s (i := .wrStat n) (decide_eq_true hn)
  · rw [decide_eq_false hn]
    obtain rfl | rfl | rfl | rfl : n = 0 ∨ n = 1 ∨ n = 2 ∨ n = 3 := by omega
    all_goals exact .ok rfl

end Bodies

/-! ### Every command -/

/-- Of the rules of R249 only those of the command's own checks can hold, so `statusOf` computes to the status the
command's body ends with. -/
theorem exec_endsWith (i : Instr) (s : State) : EndsWith s (statusOf i s.opd s.opd2 s.wru.wfin) (exec i s) :=
  match i with
  | .rdBit => .ok rfl
  | .rdBool => .ok rfl
  | .rdByte w => rdFixed_endsWith s w 8
  | .rdShort w => rdFixed_endsWith s w 16
  | .rdInt w => rdFixed_endsWith s w 32
  | .rdLong w => rdFixed_endsWith s w 64
  | .rdPint w => rdFixed_endsWith s w 31
  | .rdSint w signed => execRdSint_endsWith s w signed
  | .rdFloat e m signed => rdFloating_endsWith s 8 23 23 31 e m signed
  | .rdDouble e m signed => rdFloating_endsWith s 11 52 52 63 e m signed
  | .rdVarint g => execRdVarint_endsWith s g
  | .rdDec d => execRdDec_endsWith s d
  | .rdStat n => execRdStat_endsWith s n
  | .wrBit => bitWrites_exec (.wrBit, 0) (by simp) s ▸ .refused 5 (.ok rfl)
  | .wrBool => bitWrites_exec (.wrBool, 1) (by simp) s ▸ .refused 5 (.ok rfl)
  | .wrByte w => wrFixed_endsWith s w 8
  | .wrShort w => wrFixed_endsWith s w 16
  | .wrInt w => wrFixed_endsWith s w 32
  | .wrLong w => wrFixed_endsWith s w 64
  | .wrPint w => execWrPint_endsWith s w
  | .wrSint w signed => execWrSint_endsWith s w signed
  | .wrFloat e m signed => wrFloating_endsWith s 8 23 23 31 e m signed
  | .wrDouble e m signed => wrFloating_endsWith s 11 52 52 63 e m signed
  | .wrVarint g => execWrVarint_endsWith s g
  | .wrDec d => execWrDec_endsWith s d
  | .wrPack => .ok rfl
  | .wrStat n => execWrStat_endsWith s n
  | .twGetbit8 pos => twGetBit_endsWith s 7 pos
  | .twGetbit16 pos => twGetBit_endsWith s 15 pos
  | .twGetbit32 pos => twGetBit_endsWith s 31 pos
  | .twGetbit64 pos => twGetBit_endsWith s 63 pos
  | .twSetbit8 pos flag => twSetBit_endsWith s 7 pos flag
  | .twSetbit16 pos flag => twSetBit_endsWith s 15 pos flag
  | .twSetbit32 pos flag => twSetBit_endsWith s 31 pos flag
  | .twSetbit64 pos flag => twSetBit_endsWith s 63 pos flag
  | .twBitsneeded => .ok rfl

/-- Settles O38: every command ends with the status of the error rules. -/
theorem statusIsTheFirstErrorInPriorityOrder : Obligations.StatusIsTheFirstErrorInPriorityOrder := by
  intro i s
  obtain ⟨t, res, hexec, hresponses, -⟩ := exec_endsWith i s
  exact ⟨t, ⟨_, res⟩, hexec, hresponses, rfl⟩

/-! ### Every presented word -/

/-- The codes of the error rules are those of R248. -/
theorem statusOf_le_seven (i : Instr) (opd opd2 : Word) (wfin : Bool) : (statusOf i opd opd2 wfin).toNat ≤ 7 := by
  unfold statusOf
  split_ifs <;> decide

/-- A word that is no command ends as an error does (30_encoding R88). -/
theorem runCommand_endsWith (c : Command) (s : State) :
    ∃ st : BitVec 4, st.toNat ≤ 7 ∧ EndsWith s st (runCommand c s) := by
  unfold runCommand
  split
  next i _ => exact ⟨_, statusOf_le_seven i _ _ _, exec_endsWith i s⟩
  next => exact ⟨6, by decide, .error s 6⟩

/-- Settles O39: a command ends with the status of the error rules, any other word with `IllegalCommand`, and an error
leaves nothing but its answer. -/
theorem errorsChangeNoUnit : Obligations.ErrorsChangeNoUnit := by
  constructor
  · intro i s
    obtain ⟨t, res, hexec, hresponses, herror⟩ := exec_endsWith i s
    exact ⟨t, _, res, hexec, hresponses, statusOf_le_seven i _ _ _, herror⟩
  · intro s c rest hport
    rw [step_command hport]
    obtain ⟨st, hst, t, res, hrun, hresponses, herror⟩ := runCommand_endsWith c s
    exact ⟨t, st, res, hrun, hresponses, hst, herror⟩

end Sys2Proof.Exceptions
end

section
/-! Assembling a command and decoding it (spec 30_encoding R81, R83, R87, R91): the fields of the assembled word are the
operands, and a field its format leaves unused is zero. -/

namespace Sys2Proof.Encoding

open Sys2Proof Sys2Proof.Machine

/-- An assembled word has no reserved bit set, so the decoder takes it by its opcode. -/
theorem decode_commandWord (opc : BitVec 8) (a b : Int) (s : Bool) :
    decode (commandWord opc a b s) = decodeOpcode (commandWord opc a b s) opc := by
  simp [decode, zField_commandWord, opcField_commandWord]

section Formats

variable {opc : BitVec 8}

theorem decode_commandWord_formatN {i : Instr} (h : ∀ cw, decodeOpcode cw opc = formatN cw i) :
    decode (commandWord opc 0 0 false) = .command i := by
  rw [decode_commandWord, h, formatN_eq_command, aField_commandWord, bField_commandWord, sField_commandWord]
  exact ⟨⟨rfl, rfl, rfl⟩, rfl⟩

theorem decode_commandWord_formatW {c : Int → Instr} (h : ∀ cw, decodeOpcode cw opc = formatW cw c) {a : Int}
    (ha : FitsField a) : decode (commandWord opc a 0 false) = .command (c a) := by
  rw [decode_commandWord, h, formatW_eq_command, aField_commandWord, bField_commandWord, sField_commandWord,
    toInt_ofInt_of_fits ha]
  exact ⟨⟨rfl, rfl⟩, rfl⟩

theorem decode_commandWord_formatWS {c : Int → Bool → Instr} (h : ∀ cw, decodeOpcode cw opc = formatWS cw c) {a : Int}
    (ha : FitsField a) (s : Bool) : decode (commandWord opc a 0 s) = .command (c a s) := by
  rw [decode_commandWord, h, formatWS_eq_command, aField_commandWord, bField_commandWord, sField_commandWord,
    toInt_ofInt_of_fits ha]
  exact ⟨rfl, rfl⟩

theorem decode_commandWord_formatF {c : Int → Int → Bool → Instr} (h : ∀ cw, decodeOpcode cw opc = formatF cw c)
    {a b : Int} (hab : FitsField a ∧ FitsField b) (s : Bool) :
    decode (commandWord opc a b s) = .command (c a b s) := by
  rw [decode_commandWord, h, formatF_eq_command, aField_commandWord, bField_commandWord, sField_commandWord,
    toInt_ofInt_of_fits hab.1, toInt_ofInt_of_fits hab.2]

end Formats

/-- Both operands of a format F command fit their fields. -/
theorem fits_of_and {e m : Int} (h : (decide (FitsField e) && decide (FitsField m)) = true) :
    FitsField e ∧ FitsField m := by
  obtain ⟨he, hm⟩ := Bool.and_eq_true_iff.1 h
  exact ⟨of_decide_eq_true he, of_decide_eq_true hm⟩

/-- Every well-formed command comes back from its word. -/
theorem decode_encode (i : Instr) (h : i.WellFormed = true) : decode (encode i) = .command i :=
  match i, h with
  | .rdBit, _ => decode_commandWord_formatN fun _ => rfl
  | .rdBool, _ => decode_commandWord_formatN fun _ => rfl
  | .rdByte _, h => decode_commandWord_formatW (fun _ => rfl) (of_decide_eq_true h)
  | .rdShort _, h => decode_commandWord_formatW (fun _ => rfl) (of_decide_eq_true h)
  | .rdInt _, h => decode_commandWord_formatW (fun _ => rfl) (of_decide_eq_true h)
  | .rdLong _, h => decode_commandWord_formatW (fun _ => rfl) (of_decide_eq_true h)
  | .rdPint _, h => decode_commandWord_formatW (fun _ => rfl) (of_decide_eq_true h)
  | .rdSint _ s, h => decode_commandWord_formatWS (fun _ => rfl) (of_decide_eq_true h) s
  | .rdFloat _ _ s, h => decode_commandWord_formatF (fun _ => rfl) (fits_of_and h) s
  | .rdDouble _ _ s, h => decode_commandWord_formatF (fun _ => rfl) (fits_of_and h) s
  | .rdVarint _, h => decode_commandWord_formatW (fun _ => rfl) (of_decide_eq_true h)
  | .rdDec _, h => decode_commandWord_formatW (fun _ => rfl) (of_decide_eq_true h)
  | .rdStat _, h => decode_commandWord_formatW (fun _ => rfl) (of_decide_eq_true h)
  | .wrBit, _ => decode_commandWord_formatN fun _ => rfl
  | .wrBool, _ => decode_commandWord_formatN fun _ => rfl
  | .wrByte _, h => decode_commandWord_formatW (fun _ => rfl) (of_decide_eq_true h)
  | .wrShort _, h => decode_commandWord_formatW (fun _ => rfl) (of_decide_eq_true h)
  | .wrInt _, h => decode_commandWord_formatW (fun _ => rfl) (of_decide_eq_true h)
  | .wrLong _, h => decode_commandWord_formatW (fun _ => rfl) (of_decide_eq_true h)
  | .wrPint _, h => decode_commandWord_formatW (fun _ => rfl) (of_decide_eq_true h)
  | .wrSint _ s, h => decode_commandWord_formatWS (fun _ => rfl) (of_decide_eq_true h) s
  | .wrFloat _ _ s, h => decode_commandWord_formatF (fun _ => rfl) (fits_of_and h) s
  | .wrDouble _ _ s, h => decode_commandWord_formatF (fun _ => rfl) (fits_of_and h) s
  | .wrVarint _, h => decode_commandWord_formatW (fun _ => rfl) (of_decide_eq_true h)
  | .wrDec _, h => decode_commandWord_formatW (fun _ => rfl) (of_decide_eq_true h)
  | .wrPack, _ => decode_commandWord_formatN fun _ => rfl
  | .wrStat _, h => decode_commandWord_formatW (fun _ => rfl) (of_decide_eq_true h)
  | .twGetbit8 _, h => decode_commandWord_formatW (fun _ => rfl) (of_decide_eq_true h)
  | .twGetbit16 _, h => decode_commandWord_formatW (fun _ => rfl) (of_decide_eq_true h)
  | .twGetbit32 _, h => decode_commandWord_formatW (fun _ => rfl) (of_decide_eq_true h)
  | .twGetbit64 _, h => decode_commandWord_formatW (fun _ => rfl) (of_decide_eq_true h)
  | .twSetbit8 _ s, h => decode_commandWord_formatWS (fun _ => rfl) (of_decide_eq_true h) s
  | .twSetbit16 _ s, h => decode_commandWord_formatWS (fun _ => rfl) (of_decide_eq_true h) s
  | .twSetbit32 _ s, h => decode_commandWord_formatWS (fun _ => rfl) (of_decide_eq_true h) s
  | .twSetbit64 _ s, h => decode_commandWord_formatWS (fun _ => rfl) (of_decide_eq_true h) s
  | .twBitsneeded, _ => decode_commandWord_formatN fun _ => rfl

/-- Settles O2: the word of each command has its operands in the fields of its format. -/
theorem decodeOfEncodeIsTheCommand : Obligations.DecodeOfEncodeIsTheCommand := decode_encode

/-- Settles O1: the ten words, evaluated. -/
theorem sampleWordsDecode : Obligations.SampleWordsDecode := by
  unfold Obligations.SampleWordsDecode
  decide

end Sys2Proof.Encoding
end

section
/-! A command reads and writes one unit (spec 10_state R38): what each command makes of its own unit, said once, with
the states that make no difference to it. A reader command moves the cursor and the counter and depends on the wire; a
writing command writes some bits and counts some of them, `WR_PACK` packs; a twiddling command only responds. -/

namespace Sys2Proof.Units

open Sys2Proof Sys2Proof.Machine Sys2Proof.Encoding Sys2Proof.Reader Sys2Proof.Writer

/-! ### The reader -/

/-- What a reader command does: how far `RCUR` moves, how much `RCNT` grows, and the response. -/
structure RduAnswer where
  moved : Nat
  counted : Nat
  response : Response

/-- The next state of a reader command. -/
abbrev readAnswer (s : State) (a : RduAnswer) : State :=
  { s with rdu := (s.rdu.advance a.moved).count a.counted }.responded a.response.st a.response.res

/-- Two readers at one place on one wire: they may differ in how the wire is held. -/
structure SameWire (u v : Rdu) : Prop where
  rcur : u.rcur = v.rcur
  rcnt : u.rcnt = v.rcnt
  memRead : ∀ p, u.memRead p = v.memRead p

theorem SameWire.refl (u : Rdu) : SameWire u u := ⟨rfl, rfl, fun _ => rfl⟩

theorem SameWire.advance {u v : Rdu} (h : SameWire u v) (n : Nat) : SameWire (u.advance n) (v.advance n) :=
  ⟨congrArg (· + n) h.rcur, h.rcnt, h.memRead⟩

/-- A field read depends on the wire only. -/
theorem SameWire.rdField {u v : Rdu} (h : SameWire u v) (n : Nat) : (rdField n u).1 = (rdField n v).1 := by
  apply Nat.eq_of_testBit_eq
  intro i
  rw [testBit_rdField, testBit_rdField, h.rcur, h.memRead]

/-- The number of groups `RD_VARINT` reads is where its first continuation bit is 0, so it depends on the wire only. -/
theorem groups_unique {flag : Nat → Bool} {n n' : Nat} (hn : 1 ≤ n) (hn' : 1 ≤ n')
    (h : ∀ j, j < n → flag j = decide (j + 1 < n)) (h' : ∀ j, j < n' → flag j = decide (j + 1 < n')) : n = n' := by
  wlog hle : n ≤ n' generalizing n n'
  · exact (this hn' hn h' h (Nat.le_of_not_le hle)).symm
  have hlast := h (n - 1) (by omega)
  rw [h' (n - 1) (by omega), decide_eq_decide] at hlast
  omega

/-- The loop of `RD_VARINT` gives the same groups and the same value on the same wire, whatever fuel `RLEN` gives it. -/
theorem SameWire.rdGroups {u v : Rdu} (h : SameWire u v) {g : Nat} (hg : 0 < g) :
    (rdGroups g (rdVarintFuel u) 0 ⟨0, 0, u⟩).groups = (rdGroups g (rdVarintFuel v) 0 ⟨0, 0, v⟩).groups ∧
      (rdGroups g (rdVarintFuel u) 0 ⟨0, 0, u⟩).acc = (rdGroups g (rdVarintFuel v) 0 ⟨0, 0, v⟩).acc := by
  obtain ⟨n, hn, hgroups, -, hflags, hacc⟩ := rdGroups_of_start hg u
  obtain ⟨n', hn', hgroups', -, hflags', hacc'⟩ := rdGroups_of_start hg v
  have hnn : n = n' := by
    refine groups_unique hn hn' hflags fun j hj => ?_
    rw [h.memRead, h.rcur]
    exact hflags' j hj
  refine ⟨by rw [hgroups, hgroups', hnn], BitVec.eq_of_getLsbD_eq fun p hp => ?_⟩
  rw [hacc p hp, hacc' p hp, hnn, h.rcur, h.memRead]

/-- The states that make no difference to a reader command presented in `s`. -/
structure SameForRdu (s s' : State) : Prop where
  wire : SameWire s.rdu s'.rdu
  opd2 : s.opd2 = s'.opd2

/-- In `s` the command with the next states `T` does `a`, here and in every state that makes no difference to it. -/
def ReadsLocally (s : State) (T : State → State) : Prop :=
  ∃ a : RduAnswer, a.counted ≤ a.moved ∧ ∀ s', SameForRdu s s' → T s' = readAnswer s' a

namespace ReadsLocally

variable {s : State}

theorem respond {st : BitVec 4} {res : State → Word} (hres : ∀ s', SameForRdu s s' → res s' = res s) :
    ReadsLocally s fun s' => s'.responded st (res s') :=
  ⟨⟨0, 0, st, res s⟩, le_refl 0, fun s' h => by simp only [hres s' h]; rfl⟩

theorem error (st : BitVec 4) : ReadsLocally s fun s' => s'.responded st 0 := respond fun _ _ => rfl

theorem read {n c : State → Nat} {res : State → Word} (hle : c s ≤ n s)
    (h : ∀ s', SameForRdu s s' → n s' = n s ∧ c s' = c s ∧ res s' = res s) :
    ReadsLocally s fun s' =>
      State.responded { s' with rdu := (s'.rdu.advance (n s')).count (c s') } 0 (res s') := by
  refine ⟨⟨n s, c s, 0, res s⟩, hle, fun s' hs => ?_⟩
  obtain ⟨hn, hc, hres⟩ := h s' hs
  simp only [hn, hc, hres]

theorem ite {p : State → Prop} [DecidablePred p] {T T' : State → State} (hp : ∀ s', SameForRdu s s' → (p s' ↔ p s))
    (h : p s → ReadsLocally s T) (h' : ¬p s → ReadsLocally s T') :
    ReadsLocally s fun s' => if p s' then T s' else T' s' := by
  by_cases hps : p s
  · obtain ⟨a, hle, ha⟩ := h hps
    exact ⟨a, hle, fun s' hs => (if_pos ((hp s' hs).2 hps)).trans (ha s' hs)⟩
  · obtain ⟨a, hle, ha⟩ := h' hps
    exact ⟨a, hle, fun s' hs => (if_neg (mt (hp s' hs).1 hps)).trans (ha s' hs)⟩

end ReadsLocally

/-- Each bit or field a reader command takes is the same on the same wire. -/
theorem readsLocally_rdFixed (w : Int) (T : Nat) (s : State) :
    ∃ t, (∀ s', rdFixed w T s' = .next (t s')) ∧ ReadsLocally s t :=
  ⟨_, rdFixed_eq w T, .ite (fun _ _ => Iff.rfl)
    (fun _ => .read (le_refl _) fun s' h => ⟨rfl, rfl, by rw [h.wire.rdField]⟩) fun _ => .error 1⟩

theorem readsLocally_rdFloating (eMax mMax place top : Nat) (e m : Int) (signed : Bool) (s : State) :
    ∃ t, (∀ s', rdFloating eMax mMax place top e m signed s' = .next (t s')) ∧ ReadsLocally s t := by
  refine ⟨_, rdFloating_eq eMax mMax place top e m signed, .ite (fun _ _ => Iff.rfl)
    (fun _ => .read (by omega) fun s' h => ⟨rfl, rfl, ?_⟩) fun _ => .error 1⟩
  rw [(h.wire.advance _).rdField, (h.wire.advance signed.toNat).rdField, h.wire.rcur, h.wire.memRead]

theorem readsLocally_execRdSint (w : Int) (signed : Bool) (s : State) :
    ∃ t, (∀ s', execRdSint w signed s' = .next (t s')) ∧ ReadsLocally s t := by
  refine ⟨_, execRdSint_eq w signed, .ite (fun _ _ => Iff.rfl)
    (fun _ => .read (by omega) fun s' h => ⟨rfl, rfl, ?_⟩) fun _ => .error 1⟩
  rw [h.wire.rdField, h.wire.rcur, h.wire.memRead]

theorem readsLocally_execRdDec (d : Int) (s : State) :
    ∃ t, (∀ s', execRdDec d s' = .next (t s')) ∧ ReadsLocally s t := by
  have hmax : ∀ s', SameForRdu s s' → s'.maxAbs = s.maxAbs := fun s' h => congrArg BitVec.toInt h.opd2.symm
  refine ⟨_, execRdDec_eq d, .ite (fun s' h => by rw [hmax s' h])
    (fun _ => .read (by omega) fun s' h => ?_) fun _ => .error 4⟩
  rw [hmax s' h, (h.wire.advance 1).rdField, (h.wire.advance _).rdField, h.wire.rcur, h.wire.memRead]
  exact ⟨rfl, rfl, rfl⟩

/-- `RD_VARINT`, with the reader its loop leaves as a move and a count. -/
theorem execRdVarint_moves (g : Int) (s : State) :
    execRdVarint g s = .next (if 1 ≤ g ∧ g ≤ 64 then
        State.responded { s with
          rdu := (s.rdu.advance ((rdGroups g.toNat (rdVarintFuel s.rdu) 0 ⟨0, 0, s.rdu⟩).groups * (g.toNat + 1))).count
            ((rdGroups g.toNat (rdVarintFuel s.rdu) 0 ⟨0, 0, s.rdu⟩).groups * g.toNat) } 0
          (rdGroups g.toNat (rdVarintFuel s.rdu) 0 ⟨0, 0, s.rdu⟩).acc
      else s.responded 2 0) := by
  rw [execRdVarint_eq]
  split
  · next hg =>
    obtain ⟨n, -, hgroups, hrdu, -, -⟩ := rdGroups_of_start (g := g.toNat) (by omega) s.rdu
    simp only [hgroups, hrdu]
  · rfl

theorem readsLocally_execRdVarint (g : Int) (s : State) :
    ∃ t, (∀ s', execRdVarint g s' = .next (t s')) ∧ ReadsLocally s t := by
  refine ⟨_, execRdVarint_moves g, .ite (fun _ _ => Iff.rfl)
    (fun hg => .read (Nat.mul_le_mul_left _ (Nat.le_succ _)) fun s' h => ?_) fun _ => .error 2⟩
  obtain ⟨hgroups, hacc⟩ := h.wire.rdGroups (g := g.toNat) (by omega)
  rw [hgroups, hacc]
  exact ⟨rfl, rfl, rfl⟩

theorem readsLocally_bitReads : ∀ form ∈ [(Instr.rdBit, 0), (Instr.rdBool, 1)], ∀ s : State,
    ∃ t, (∀ s', exec form.1 s' = .next (t s')) ∧ ReadsLocally s t := by
  simp only [List.forall_mem_cons]
  have hbit : ∀ s s' : State, SameForRdu s s' →
      bitResult (s'.rdu.memRead s'.rdu.rcur) = bitResult (s.rdu.memRead s.rdu.rcur) := by
    intro s s' h
    rw [h.wire.rcur, h.wire.memRead]
  refine ⟨fun s => ⟨_, fun _ => rfl, ?_⟩, fun s => ⟨_, fun _ => rfl, ?_⟩, List.forall_mem_nil _⟩
  · exact .read (n := fun _ => 1) (c := fun _ => 0) (by omega) fun s' h => ⟨rfl, rfl, hbit s s' h⟩
  · exact .read (n := fun _ => 1) (c := fun _ => 1) (le_refl 1) fun s' h => ⟨rfl, rfl, hbit s s' h⟩

/-- Of the registers `RD_STAT` shows, `RLEN` alone is no matter of the wire. -/
theorem readsLocally_execRdStat {n : Int} (hn : n ≠ 2) (s : State) :
    ∃ t, (∀ s', exec (.rdStat n) s' = .next (t s')) ∧ ReadsLocally s t := by
  by_cases hknown : n = 0 ∨ n = 1
  · obtain rfl | rfl := hknown
    · exact ⟨_, fun _ => rfl, .respond fun s' h => by rw [h.wire.rcur]⟩
    · exact ⟨_, fun _ => rfl, .respond fun s' h => by rw [h.wire.rcnt]⟩
  · have hunknown : unknownRegister (.rdStat n) = true := decide_eq_true (by omega)
    exact ⟨_, exec_unknownRegister hunknown, .error 6⟩

/-- Every reader command but `RD_STAT 2` depends on the wire and `OPD2` only. -/
theorem readsLocally_exec {i : Instr} (hunit : unitOf i = .rdu) (hi : i ≠ .rdStat 2) (s : State) :
    ∃ t, (∀ s', exec i s' = .next (t s')) ∧ ReadsLocally s t :=
  match i, hunit, hi with
  | .rdBit, _, _ => readsLocally_bitReads (.rdBit, 0) (by simp) s
  | .rdBool, _, _ => readsLocally_bitReads (.rdBool, 1) (by simp) s
  | .rdByte w, _, _ => readsLocally_rdFixed w 8 s
  | .rdShort w, _, _ => readsLocally_rdFixed w 16 s
  | .rdInt w, _, _ => readsLocally_rdFixed w 32 s
  | .rdLong w, _, _ => readsLocally_rdFixed w 64 s
  | .rdPint w, _, _ => readsLocally_rdFixed w 31 s
  | .rdSint w signed, _, _ => readsLocally_execRdSint w signed s
  | .rdFloat e m signed, _, _ => readsLocally_rdFloating 8 23 23 31 e m signed s
  | .rdDouble e m signed, _, _ => readsLocally_rdFloating 11 52 52 63 e m signed s
  | .rdVarint g, _, _ => readsLocally_execRdVarint g s
  | .rdDec d, _, _ => readsLocally_execRdDec d s
  | .rdStat _, _, hi => readsLocally_execRdStat (fun hn => hi (congrArg Instr.rdStat hn)) s

/-- What a reader command does, and where else it does the same. -/
theorem exec_rdu {i : Instr} (hunit : unitOf i = .rdu) (s : State) :
    ∃ a : RduAnswer, a.counted ≤ a.moved ∧ exec i s = .next (readAnswer s a) ∧
      ∀ s', SameForRdu s s' → (i = .rdStat 2 → s.rdu.rlen = s'.rdu.rlen) → exec i s' = .next (readAnswer s' a) := by
  by_cases hi : i = .rdStat 2
  · subst hi
    exact ⟨⟨0, 0, 0, BitVec.ofNat 64 s.rdu.rlen⟩, le_refl 0, rfl, fun s' _ hlen => by rw [hlen rfl]; rfl⟩
  · obtain ⟨t, hexec, a, hle, ha⟩ := readsLocally_exec hunit hi s
    refine ⟨a, hle, ?_, fun s' hs _ => ?_⟩
    · rw [hexec, ha s ⟨.refl _, rfl⟩]
    · rw [hexec, ha s' hs]

/-! ### The writer -/

/-- What a command can do to the writer: nothing; write `n` bits and count `c` of them, before finalization only;
pack. -/
inductive WruMove (u : Wru) : Wru → Prop
  | same : WruMove u u
  | wrote {n c : Nat} {bit : Nat → Bool} {u' : Wru} (hf : u.wfin = false) (hc : c ≤ n)
      (hcursor : u'.wcur = u.wcur + n ∧ u'.wcnt = u.wcnt ∧ u'.wfin = u.wfin)
      (hwrote : WruGood u → Wrote n bit u u') : WruMove u (u'.count c)
  | pack : WruMove u u.pack

/-- What a writer command does: the writer it leaves, the counter of free values and the response. -/
structure WruAnswer where
  wru : Wru
  freeCount : Nat
  response : Response

/-- The next state of a writer command. -/
abbrev writeAnswer (s : State) (a : WruAnswer) : State :=
  { s with wru := a.wru, freeCount := a.freeCount }.responded a.response.st a.response.res

/-- The states that make no difference to a writer command presented in `s`. -/
structure SameForWru (s s' : State) : Prop where
  wru : s.wru = s'.wru
  opd : s.opd = s'.opd
  opd2 : s.opd2 = s'.opd2
  roundTies : s.roundTies = s'.roundTies
  freeCount : s.freeCount = s'.freeCount

theorem SameForWru.opdLow {s s' : State} (h : SameForWru s s') (n : Nat) : s'.opdLow n = s.opdLow n := by
  rw [State.opdLow, State.opdLow, h.opd]

/-- In `s` the command with the next states `T` does `a`, here and in every state that makes no difference to it. -/
def WritesLocally (s : State) (T : State → State) : Prop :=
  ∃ a : WruAnswer, WruMove s.wru a.wru ∧ ∀ s', SameForWru s s' → T s' = writeAnswer s' a

namespace WritesLocally

variable {s : State}

theorem respond {st : BitVec 4} {res : State → Word} (hres : ∀ s', SameForWru s s' → res s' = res s) :
    WritesLocally s fun s' => s'.responded st (res s') := by
  refine ⟨⟨s.wru, s.freeCount, st, res s⟩, .same, fun s' h => ?_⟩
  simp only [hres s' h, h.wru, h.freeCount]

theorem error (st : BitVec 4) : WritesLocally s fun s' => s'.responded st 0 := respond fun _ _ => rfl

theorem draw {u : State → Wru} {k : State → Nat} (hmove : WruMove s.wru (u s))
    (h : ∀ s', SameForWru s s' → u s' = u s ∧ k s' = k s) :
    WritesLocally s fun s' => State.responded { s' with wru := u s', freeCount := k s' } 0 0 := by
  refine ⟨⟨u s, k s, 0, 0⟩, hmove, fun s' hs => ?_⟩
  obtain ⟨hu, hk⟩ := h s' hs
  simp only [hu, hk]

theorem write {u : State → Wru} {res : State → Word} (hmove : WruMove s.wru (u s))
    (h : ∀ s', SameForWru s s' → u s' = u s ∧ res s' = res s) :
    WritesLocally s fun s' => State.responded { s' with wru := u s' } 0 (res s') := by
  refine ⟨⟨u s, s.freeCount, 0, res s⟩, hmove, fun s' hs => ?_⟩
  obtain ⟨hu, hres⟩ := h s' hs
  simp only [hu, hres, hs.freeCount]

theorem ite {p : State → Prop} [DecidablePred p] {T T' : State → State} (hp : ∀ s', SameForWru s s' → (p s' ↔ p s))
    (h : p s → WritesLocally s T) (h' : ¬p s → WritesLocally s T') :
    WritesLocally s fun s' => if p s' then T s' else T' s' := by
  by_cases hps : p s
  · obtain ⟨a, hmove, ha⟩ := h hps
    exact ⟨a, hmove, fun s' hs => (if_pos ((hp s' hs).2 hps)).trans (ha s' hs)⟩
  · obtain ⟨a, hmove, ha⟩ := h' hps
    exact ⟨a, hmove, fun s' hs => (if_neg (mt (hp s' hs).1 hps)).trans (ha s' hs)⟩

/-- The check of `WFIN` at the head of every writing command. -/
theorem unlessFinalized {T : State → State} (h : s.wru.wfin = false → WritesLocally s T) :
    WritesLocally s fun s' => if s'.wru.wfin then s'.responded 5 0 else T s' :=
  ite (fun s' hs => by rw [hs.wru]) (fun _ => error 5) fun hf => h (Bool.eq_false_of_not_eq_true hf)

end WritesLocally

theorem writesLocally_bitWrites : ∀ form ∈ [(Instr.wrBit, 0), (Instr.wrBool, 1)], ∀ s : State,
    ∃ t, (∀ s', exec form.1 s' = .next (t s')) ∧ WritesLocally s t := by
  intro form hform s
  have hcount : form.2 ≤ 1 := by
    simp only [List.mem_cons, List.not_mem_nil, or_false] at hform
    obtain rfl | rfl := hform <;> decide
  refine ⟨_, bitWrites_exec form hform, .unlessFinalized fun hf => .write ?_ fun s' h => ⟨?_, rfl⟩⟩
  · exact .wrote hf hcount (wrBit_cursor _ _) (wrBit_wrote · _)
  · rw [State.opdBit, State.opdBit, h.opd, h.wru]

theorem writesLocally_wrFixed (w : Int) (T : Nat) (s : State) :
    ∃ t, (∀ s', wrFixed w T s' = .next (t s')) ∧ WritesLocally s t := by
  refine ⟨_, wrFixed_eq w T, .unlessFinalized fun hf => .ite (fun _ _ => Iff.rfl)
    (fun _ => .write ?_ fun s' h => ⟨?_, rfl⟩) fun _ => .error 1⟩
  · exact .wrote hf (le_refl _) (wrField_cursor _ _ _) (wrField_wrote _ _)
  · rw [h.opdLow, h.wru]

theorem writesLocally_execWrPint (w : Int) (s : State) :
    ∃ t, (∀ s', execWrPint w s' = .next (t s')) ∧ WritesLocally s t := by
  refine ⟨_, execWrPint_eq w, .unlessFinalized fun hf => .ite (fun _ _ => Iff.rfl)
    (fun _ => .ite (fun s' h => by rw [h.opd]) (fun _ => .error 3)
      fun _ => .write ?_ fun s' h => ⟨?_, rfl⟩) fun _ => .error 1⟩
  · exact .wrote hf (le_refl _) (wrField_cursor _ _ _) (wrField_wrote _ _)
  · rw [h.opdLow, h.wru]

/-- A field and the sign bit after it (44 R169). -/
theorem wrSign_wrField_wrote (w v : Nat) (signed b : Bool) {u : Wru} (hgood : WruGood u) :
    Wrote (w + signed.toNat) (fun i => if i < w then v.testBit i else b) u (wrSign signed b (wrField w v u)) :=
  have hfield := wrField_wrote w v hgood
  hfield.trans hgood (wrSign_wrote signed b hfield.good)

theorem writesLocally_execWrSint (w : Int) (signed : Bool) (s : State) :
    ∃ t, (∀ s', execWrSint w signed s' = .next (t s')) ∧ WritesLocally s t := by
  refine ⟨_, execWrSint_eq w signed, .unlessFinalized fun hf => .ite (fun _ _ => Iff.rfl)
    (fun _ => .write ?_ fun s' h => ⟨?_, rfl⟩) fun _ => .error 1⟩
  · exact .wrote hf (Nat.le_add_right _ _) (wrSign_wrField_cursor _ _ _ _ _) (wrSign_wrField_wrote _ _ _ _)
  · rw [h.opdLow, h.opd, h.wru]

theorem writesLocally_wrFloating {eMax mMax top : Nat} (hlayout : mMax + eMax ≤ top) (e m : Int) (signed : Bool)
    (s : State) : ∃ t, (∀ s', wrFloating eMax mMax mMax top e m signed s' = .next (t s')) ∧ WritesLocally s t := by
  refine ⟨_, wrFloating_eq_wrFloatFields eMax mMax mMax top e m signed, .unlessFinalized fun hf =>
    .ite (fun _ _ => Iff.rfl) (fun hrange => .write ?_ fun s' h => ⟨?_, rfl⟩) fun _ => .error 1⟩
  · exact .wrote hf (by omega) (wrFloatFields_cursor _ _ _ _ _ _) (wrFloatFields_wrote (by omega) (by omega) signed)
  · rw [wrFloatFields, wrFloatFields, h.opdLow, h.wru]

/-- `n` groups of `V` written on a writer that is not finalized, and their payload counted: a write like the others. -/
theorem wruMove_wrGroups {g : Nat} (hg : 0 < g) (V : Word) {u : Wru} (hf : u.wfin = false) :
    WruMove u ((wrGroups g wrVarintFuel V.toNat ⟨0, u⟩).wru.count
      ((wrGroups g wrVarintFuel V.toNat ⟨0, u⟩).groups * g)) := by
  obtain ⟨hcur, -, hcnt, hfin⟩ := wrGroups_cursor g wrVarintFuel V.toNat ⟨0, u⟩
  obtain ⟨n, hn, hgroups⟩ := wrGroups_groupCount hg wrVarintFuel V.toNat ⟨0, u⟩ V.isLt
  simp only [Nat.zero_mul, Nat.add_zero, Nat.zero_add] at hcur hgroups
  rw [hgroups] at hcur ⊢
  refine .wrote (n := n * (g + 1)) (bit := varintWireBit g V.toNat n) hf
    (Nat.mul_le_mul_left _ (Nat.le_succ _)) ⟨hcur, hcnt, hfin⟩ fun hgood => ?_
  obtain ⟨n', -, hgroups', -, -, hwrote⟩ := wrGroups_spec g hg wrVarintFuel V.toNat ⟨0, u⟩ hgood V.isLt
  obtain rfl : n = n' := by rw [hgroups] at hgroups'; simpa using hgroups'
  exact hwrote

theorem writesLocally_execWrVarint (g : Int) (s : State) :
    ∃ t, (∀ s', execWrVarint g s' = .next (t s')) ∧ WritesLocally s t := by
  refine ⟨_, execWrVarint_eq g, .unlessFinalized fun hf => .ite (fun _ _ => Iff.rfl)
    (fun hg => .write ?_ fun s' h => ⟨?_, rfl⟩) fun _ => .error 2⟩
  · exact wruMove_wrGroups (by omega) s.opd hf
  · simp only [h.opd, h.wru]

/-- Whether a free value is drawn depends on the operand. -/
theorem drawFree_freeCount (s : State) :
    s.drawFree.freeCount = if f64IsFinite s.opd then s.freeCount else s.freeCount + 1 := by
  unfold State.drawFree
  split <;> rfl

theorem writesLocally_execWrDec (d : Int) (s : State) :
    ∃ t, (∀ s', execWrDec d s' = .next (t s')) ∧ WritesLocally s t := by
  have hmax : ∀ s', SameForWru s s' → s'.maxAbs = s.maxAbs := fun s' h => congrArg BitVec.toInt h.opd2.symm
  refine ⟨_, execWrDec_eq d, .unlessFinalized fun hf => .ite (fun s' h => by rw [hmax s' h])
    (fun _ => .draw ?_ fun s' h => ⟨?_, ?_⟩) fun _ => .error 4⟩
  · refine .wrote hf (n := 1 + integralWidth s.maxAbs + scaledWidth d.toNat) (by omega) ?_ (wrDecimal_wrote _ _ _)
    exact wrField_cursor_after (wrField_cursor_after (wrBit_cursor _ s.wru) _ _) _ _
  · rw [hmax s' h, decimalParts, decimalParts, h.opd, h.roundTies, h.freeCount, h.wru]
  · rw [drawFree_freeCount, drawFree_freeCount, h.opd, h.freeCount]

theorem writesLocally_execWrStat (n : Int) (s : State) :
    ∃ t, (∀ s', exec (.wrStat n) s' = .next (t s')) ∧ WritesLocally s t := by
  by_cases hknown : n = 0 ∨ n = 1 ∨ n = 2 ∨ n = 3
  · obtain rfl | rfl | rfl | rfl := hknown
    all_goals exact ⟨_, fun _ => rfl, .respond fun s' h => by rw [h.wru]⟩
  · have hunknown : unknownRegister (.wrStat n) = true := decide_eq_true (by omega)
    exact ⟨_, exec_unknownRegister hunknown, .error 6⟩

/-- Every writer command depends on the writer, the operands, the tie rule and the counter of free values only. -/
theorem writesLocally_exec {i : Instr} (hunit : unitOf i = .wru) (s : State) :
    ∃ t, (∀ s', exec i s' = .next (t s')) ∧ WritesLocally s t :=
  match i, hunit with
  | .wrBit, _ => writesLocally_bitWrites (.wrBit, 0) (by simp) s
  | .wrBool, _ => writesLocally_bitWrites (.wrBool, 1) (by simp) s
  | .wrByte w, _ => writesLocally_wrFixed w 8 s
  | .wrShort w, _ => writesLocally_wrFixed w 16 s
  | .wrInt w, _ => writesLocally_wrFixed w 32 s
  | .wrLong w, _ => writesLocally_wrFixed w 64 s
  | .wrPint w, _ => writesLocally_execWrPint w s
  | .wrSint w signed, _ => writesLocally_execWrSint w signed s
  | .wrFloat e m signed, _ => writesLocally_wrFloating (by decide) e m signed s
  | .wrDouble e m signed, _ => writesLocally_wrFloating (by decide) e m signed s
  | .wrVarint g, _ => writesLocally_execWrVarint g s
  | .wrDec d, _ => writesLocally_execWrDec d s
  | .wrPack, _ => ⟨_, fun _ => rfl, .write .pack fun s' h => by rw [h.wru]; exact ⟨rfl, rfl⟩⟩
  | .wrStat n, _ => writesLocally_execWrStat n s

/-- What a writer command does, and where else it does the same. -/
theorem exec_wru {i : Instr} (hunit : unitOf i = .wru) (s : State) :
    ∃ a : WruAnswer, WruMove s.wru a.wru ∧ exec i s = .next (writeAnswer s a) ∧
      ∀ s', SameForWru s s' → exec i s' = .next (writeAnswer s' a) := by
  obtain ⟨t, hexec, a, hmove, ha⟩ := writesLocally_exec hunit s
  refine ⟨a, hmove, ?_, fun s' hs => ?_⟩
  · rw [hexec, ha s ⟨rfl, rfl, rfl, rfl, rfl⟩]
  · rw [hexec, ha s' hs]

/-! ### The bit-twiddling leaf -/

/-- The command `o` presented in `s` responds and does nothing else, in the same way wherever `OPD` is the same. -/
def RespondsLocally (s : State) (o : State → Result) : Prop :=
  ∃ r : Response, ∀ s', s.opd = s'.opd → o s' = .next (s'.responded r.st r.res)

theorem respondsLocally_twGetBit (n : Nat) (pos : Int) (s : State) : RespondsLocally s (twGetBit n pos) := by
  by_cases hpos : 0 ≤ pos ∧ pos < n
  · refine ⟨⟨0, if (s.opdLow n).getLsbD pos.toNat then 1 else 0⟩, fun s' h => ?_⟩
    rw [twGetBit_eq, if_pos hpos, State.opdLow, State.opdLow, h]
  · exact ⟨⟨7, 0⟩, fun s' _ => by rw [twGetBit_eq, if_neg hpos]⟩

theorem respondsLocally_twSetBit (n : Nat) (pos : Int) (flag : Bool) (s : State) :
    RespondsLocally s (twSetBit n pos flag) := by
  by_cases hpos : 0 ≤ pos ∧ pos < n
  · refine ⟨⟨0, (setBit (s.opdLow n) pos.toNat flag).setWidth 64⟩, fun s' h => ?_⟩
    rw [twSetBit_eq, if_pos hpos, State.opdLow, State.opdLow, h]
  · exact ⟨⟨7, 0⟩, fun s' _ => by rw [twSetBit_eq, if_neg hpos]⟩

/-- A twiddling command only responds, and the response depends on `OPD` only. -/
theorem exec_twu {i : Instr} (hunit : unitOf i = .twu) (s : State) : RespondsLocally s (exec i) :=
  match i, hunit with
  | .twGetbit8 pos, _ => respondsLocally_twGetBit 8 pos s
  | .twGetbit16 pos, _ => respondsLocally_twGetBit 16 pos s
  | .twGetbit32 pos, _ => respondsLocally_twGetBit 32 pos s
  | .twGetbit64 pos, _ => respondsLocally_twGetBit 64 pos s
  | .twSetbit8 pos flag, _ => respondsLocally_twSetBit 8 pos flag s
  | .twSetbit16 pos flag, _ => respondsLocally_twSetBit 16 pos flag s
  | .twSetbit32 pos flag, _ => respondsLocally_twSetBit 32 pos flag s
  | .twSetbit64 pos flag, _ => respondsLocally_twSetBit 64 pos flag s
  | .twBitsneeded, _ => ⟨⟨0, BitVec.ofNat 64 (bitsNeeded s.opd.toInt)⟩, fun s' h => by rw [h]; rfl⟩

end Sys2Proof.Units
end

section
/-! Every command and every step (spec 10_state R32, R33, R38; 30_encoding R80; 60_exceptions R250, R261; 70_reset
section 1): what each leaves alone, and the invariants of reader, writer and block. -/

namespace Sys2Proof.Units

open Sys2Proof Sys2Proof.Machine Sys2Proof.Encoding Sys2Proof.Exceptions

/-! ### A command and its own unit -/

/-- The states that make no difference to the unit of `i` or to what `i` reads beside it (10_state R38). -/
structure SameForUnit (i : Instr) (s s' : State) : Prop where
  opd : s.opd = s'.opd
  opd2 : s.opd2 = s'.opd2
  roundTies : s.roundTies = s'.roundTies
  rdu : unitOf i = .rdu → s.rdu = s'.rdu
  wru : unitOf i = .wru → s.wru = s'.wru ∧ s.freeCount = s'.freeCount

/-- A change of the units, each on its own. -/
structure UnitChange where
  rdu : Rdu → Rdu
  wru : Wru → Wru
  freeCount : Nat → Nat

/-- A change of the units and a response. -/
abbrev changeAnswer (s : State) (f : UnitChange) (r : Response) : State :=
  { s with rdu := f.rdu s.rdu, wru := f.wru s.wru, freeCount := f.freeCount s.freeCount }.responded r.st r.res

/-- A command changes at most its own unit and responds, in the same way wherever its own unit and operands are the
same. -/
theorem exec_changes (i : Instr) (s : State) :
    ∃ (f : UnitChange) (r : Response), (unitOf i ≠ .rdu → f.rdu = id) ∧
      (unitOf i ≠ .wru → f.wru = id ∧ f.freeCount = id) ∧
      ∀ s', SameForUnit i s s' → exec i s' = .next (changeAnswer s' f r) := by
  cases hunit : unitOf i with
  | rdu =>
    obtain ⟨a, -, -, ha⟩ := exec_rdu hunit s
    refine ⟨⟨fun u => (u.advance a.moved).count a.counted, id, id⟩, a.response, by simp, fun _ => ⟨rfl, rfl⟩,
      fun s' h => ?_⟩
    have hrdu := h.rdu hunit
    exact ha s' ⟨hrdu ▸ .refl _, h.opd2⟩ fun _ => congrArg Rdu.rlen hrdu
  | wru =>
    obtain ⟨a, -, -, ha⟩ := exec_wru hunit s
    refine ⟨⟨id, fun _ => a.wru, fun _ => a.freeCount⟩, a.response, fun _ => rfl, by simp, fun s' h => ?_⟩
    obtain ⟨hwru, hfree⟩ := h.wru hunit
    exact ha s' ⟨hwru, h.opd, h.opd2, h.roundTies, hfree⟩
  | twu =>
    obtain ⟨r, hr⟩ := exec_twu hunit s
    exact ⟨⟨id, id, id⟩, r, fun _ => rfl, fun _ => ⟨rfl, rfl⟩, fun s' h => hr s' h.opd⟩

theorem SameForUnit.refl (i : Instr) (s : State) : SameForUnit i s s :=
  ⟨rfl, rfl, rfl, fun _ => rfl, fun _ => ⟨rfl, rfl⟩⟩

/-- Settles O44: the change of the own unit and the response are the same in both states. -/
theorem commandsReadAndWriteOneUnit : Obligations.CommandsReadAndWriteOneUnit := by
  intro i s s' t t' ht ht'
  obtain ⟨f, r, hrdu, hwru, hexec⟩ := exec_changes i s
  obtain rfl : changeAnswer s f r = t := by simpa [hexec s (.refl i s)] using ht
  refine ⟨fun hi => congrFun (hrdu hi) _, fun hi => ?_, fun hopd hopd2 hties hfree => ?_⟩
  · obtain ⟨hw, hk⟩ := hwru hi
    exact ⟨congrFun hw _, congrFun hk _⟩
  · have agree : ((unitOf i = .rdu → s.rdu = s'.rdu) ∧ (unitOf i = .wru → s.wru = s'.wru)) →
        changeAnswer s' f r = t' := fun h => by
      simpa [hexec s' ⟨hopd, hopd2, hties, h.1, fun hi => ⟨h.2 hi, hfree⟩⟩] using ht'
    refine ⟨fun hi hs => ?_, fun hi hs => ?_, fun hi => ?_⟩
    · obtain rfl := agree ⟨fun _ => hs, by simp [hi]⟩
      exact ⟨congrArg f.rdu hs, rfl⟩
    · obtain rfl := agree ⟨by simp [hi], fun _ => hs⟩
      exact ⟨congrArg f.wru hs, rfl⟩
    · obtain rfl := agree ⟨by simp [hi], by simp [hi]⟩
      rfl

/-! ### Two commands of different units -/

theorem run_zero (s : State) : Host.Core.run Sys2Proof.core 0 s = .next s := rfl

theorem core_run_succ (M : Host.Core) {s t : M.State} (h : M.step s = .next t) (k : Nat) :
    M.run (k + 1) s = M.run k t := by
  rw [Host.Core.run, h]

/-- A run goes on from where its first step leads. -/
theorem run_succ {s t : State} (h : step s = .next t) (k : Nat) :
    Host.Core.run Sys2Proof.core (k + 1) s = Host.Core.run Sys2Proof.core k t :=
  core_run_succ Sys2Proof.core h k

/-- A step with a command presented whose word decodes. -/
theorem step_eq_exec {s : State} {c : Command} {rest : List HostEvent} {i : Instr} (hport : s.port = .command c :: rest)
    (hdecode : decode c.cw = .command i) : step s = exec i s := by
  rw [step_command hport, runCommand, hdecode]

/-- Settles O5: a step with a command presented is that command, run as its word decodes. -/
theorem stepRunsThePresentedCommand : Obligations.StepRunsThePresentedCommand :=
  fun _ _ _ _ hport hdecode => step_eq_exec hport hdecode

/-- Two presented commands, run one after the other; the second finds what the first leaves. -/
theorem run_two {s : State} {c d : Command} {rest : List HostEvent} {i j : Instr} {t u : State}
    (hc : decode c.cw = .command i) (hd : decode d.cw = .command j)
    (hi : exec i { s with port := .command c :: .command d :: rest } = .next t)
    (hport : t.port = .command d :: rest) (hj : exec j t = .next u) :
    Host.Core.run Sys2Proof.core 2 { s with port := .command c :: .command d :: rest } = .next u := by
  rw [run_succ ((step_eq_exec rfl hc).trans hi), run_succ ((step_eq_exec hport hd).trans hj), run_zero]

/-- A command finds its own unit unchanged after the change that a command of another unit makes. -/
theorem sameForUnit_after {i j : Instr} (hne : unitOf i ≠ unitOf j) {f : UnitChange}
    (hrdu : unitOf i ≠ .rdu → f.rdu = id) (hwru : unitOf i ≠ .wru → f.wru = id ∧ f.freeCount = id) {s t : State}
    (hopd : s.opd = t.opd) (hopd2 : s.opd2 = t.opd2) (hties : s.roundTies = t.roundTies) (hr : t.rdu = f.rdu s.rdu)
    (hw : t.wru = f.wru s.wru) (hk : t.freeCount = f.freeCount s.freeCount) : SameForUnit j s t := by
  refine ⟨hopd, hopd2, hties, fun hj => ?_, fun hj => ?_⟩
  · rw [hr, hrdu (hj ▸ hne), id]
  · obtain ⟨hwid, hkid⟩ := hwru (hj ▸ hne)
    rw [hw, hk, hwid, hkid]
    exact ⟨rfl, rfl⟩

/-- Of two changes at least one of which is none the order does not matter. -/
theorem comp_comm_of_id {α : Type} {f g : α → α} (h : f = id ∨ g = id) (a : α) : f (g a) = g (f a) := by
  obtain rfl | rfl := h <;> rfl

/-- Settles O45: each command makes the same change in either order, and the two changes are of different units. -/
theorem commandsToDifferentUnitsCommute : Obligations.CommandsToDifferentUnitsCommute := by
  intro s c d rest i j hc hd hne
  obtain ⟨f, r, hfr, hfw, hf⟩ := exec_changes i { s with port := .command c :: .command d :: rest }
  obtain ⟨g, q, hgr, hgw, hg⟩ := exec_changes j { s with port := .command d :: .command c :: rest }
  have hi2 := hf (changeAnswer { s with port := .command d :: .command c :: rest } g q)
    (sameForUnit_after hne.symm hgr hgw rfl rfl rfl rfl rfl rfl)
  have hj2 := hg (changeAnswer { s with port := .command c :: .command d :: rest } f r)
    (sameForUnit_after hne hfr hfw rfl rfl rfl rfl rfl rfl)
  refine ⟨r, q, _, _, run_two hc hd (hf _ (.refl i _)) rfl hj2, run_two hd hc (hg _ (.refl j _)) rfl hi2, rfl, ?_⟩
  have hrdu : f.rdu = id ∨ g.rdu = id := by
    by_cases hu : unitOf i = .rdu
    · exact .inr (hgr fun hj => hne (hu.trans hj.symm))
    · exact .inl (hfr hu)
  have hwru : (f.wru = id ∨ g.wru = id) ∧ (f.freeCount = id ∨ g.freeCount = id) := by
    by_cases hu : unitOf i = .wru
    · exact (hgw fun hj => hne (hu.trans hj.symm)).imp .inr .inr
    · exact (hfw hu).imp .inl .inl
  simp only [changeAnswer, State.responded, comp_comm_of_id hrdu s.rdu, comp_comm_of_id hwru.1 s.wru,
    comp_comm_of_id hwru.2 s.freeCount]
  rfl

/-! ### The reader under any command -/

/-- A command moves the cursor by at least what it counts, and keeps the buffer. -/
theorem exec_rdu_moves (i : Instr) (s : State) :
    ∃ t n c, exec i s = .next t ∧ c ≤ n ∧ t.rdu = (s.rdu.advance n).count c := by
  by_cases hunit : unitOf i = .rdu
  · obtain ⟨a, hle, hexec, -⟩ := exec_rdu hunit s
    exact ⟨_, a.moved, a.counted, hexec, hle, rfl⟩
  · obtain ⟨f, r, hrdu, -, hexec⟩ := exec_changes i s
    exact ⟨_, 0, 0, hexec s (.refl i s), le_refl 0, congrFun (hrdu hunit) s.rdu⟩

/-- Settles O42: a command moves the cursor forward, counts no more than it moves, and keeps the buffer. -/
theorem readerInvariantsHold : Obligations.ReaderInvariantsHold := by
  constructor
  · intro i s t ht
    obtain ⟨t', n, c, hexec, hle, hrdu⟩ := exec_rdu_moves i s
    obtain rfl : t' = t := by simpa [hexec] using ht
    rw [hrdu]
    exact ⟨Nat.le_add_right _ _, Nat.le_add_right _ _, rfl, rfl, fun h => Nat.add_le_add h hle⟩
  · intro s hend
    have hbit : bitResult (s.rdu.memRead s.rdu.rcur) = 0 := by
      rw [s.rdu.memRead_beyond hend]
      rfl
    rw [← hbit]
    rfl

/-- A reader whose buffer ends in further zero bytes is on the same wire: the bytes beyond the end read as zero. -/
theorem sameWire_trailing_zeros {u : Rdu} (h : RduInv u) (k : Nat) : SameWire u { u with rlen := u.rlen + k } := by
  refine ⟨rfl, rfl, fun p => ?_⟩
  obtain ⟨-, hbelow, -⟩ := h
  unfold Rdu.memRead
  by_cases hin : p / 8 < u.rlen
  · rw [if_pos hin, if_pos (Nat.lt_add_right k hin)]
  · rw [if_neg hin, Memory.readByte_above hbelow (by omega)]
    split
    · simp
    · rfl

/-- Settles O46: a reader command depends on the wire, and another command not on the reader at all. -/
theorem trailingZeroBytesAreInvisible : Obligations.TrailingZeroBytesAreInvisible := by
  intro i s k hinv hi
  by_cases hunit : unitOf i = .rdu
  · obtain ⟨a, -, hexec, ha⟩ := exec_rdu hunit s
    exact ⟨_, hexec, ha _ ⟨sameWire_trailing_zeros hinv k, rfl⟩ fun hstat => absurd hstat hi⟩
  · obtain ⟨f, r, hrdu, -, hexec⟩ := exec_changes i s
    have hlonger := hexec { s with rdu := { s.rdu with rlen := s.rdu.rlen + k } }
      ⟨rfl, rfl, rfl, fun hu => absurd hu hunit, fun _ => ⟨rfl, rfl⟩⟩
    refine ⟨_, hexec s (.refl i s), hlonger.trans ?_⟩
    simp only [changeAnswer, State.responded, hrdu hunit, id]

/-! ### The writer under any command -/

/-- `WR_PACK` on a finalized writer changes nothing (48 R211). -/
theorem pack_of_final {u : Wru} (h : u.wfin = true) : u.pack = u := by
  rw [Wru.pack, if_pos h]

/-- The first `WR_PACK` (48 R210): the partial byte, if there is one, is appended. -/
theorem pack_of_open {u : Wru} (h : u.wfin = false) :
    u.pack = ⟨u.wcur, u.wcnt, u.wlen + (if u.wcur % 8 = 0 then 0 else 1),
      if u.wcur % 8 = 0 then u.wmem else u.wmem.writeByte u.wlen u.wacc,
      if u.wcur % 8 = 0 then u.wacc else 0, true⟩ := by
  unfold Wru.pack Wru.flush
  rw [if_neg (by simp [h])]
  by_cases hk : u.wcur % 8 = 0
  · simp [hk]
  · simp [hk, Wru.appendByte]

/-- What `WMEM` holds after the first `WR_PACK`. -/
theorem readByte_pack {u : Wru} (h : u.wfin = false) (hwf : u.wmem.wf = true) (a : Nat) :
    u.pack.wmem.readByte a = if u.wcur % 8 ≠ 0 ∧ a = u.wlen then u.wacc else u.wmem.readByte a := by
  rw [pack_of_open h]
  by_cases hk : u.wcur % 8 = 0
  · simp [hk]
  · simp [hk, Memory.readByte_writeByte hwf]

/-- The clauses of 10_state R33 about a move from `u` to `u'`. -/
structure KeepsWritten (u u' : Wru) : Prop where
  inv : WruInv u'
  wcur : u.wcur ≤ u'.wcur
  wcnt : u.wcnt ≤ u'.wcnt
  wire : ∀ p, p < u.wcur → u'.wireBit p = u.wireBit p
  wlen : u.wlen ≤ u'.wlen
  bytes : ∀ a, a < u.wlen → u'.wmem.readByte a = u.wmem.readByte a
  wfin : u.wfin = true → u'.wfin = true

theorem KeepsWritten.refl {u : Wru} (h : WruInv u) : KeepsWritten u u :=
  ⟨h, le_refl _, le_refl _, fun _ _ => rfl, le_refl _, fun _ _ => rfl, id⟩

theorem KeepsWritten.trans {u v w : Wru} (h : KeepsWritten u v) (k : KeepsWritten v w) : KeepsWritten u w where
  inv := k.inv
  wcur := h.wcur.trans k.wcur
  wcnt := h.wcnt.trans k.wcnt
  wire p hp := (k.wire p (hp.trans_le h.wcur)).trans (h.wire p hp)
  wlen := h.wlen.trans k.wlen
  bytes a ha := (k.bytes a (ha.trans_le h.wlen)).trans (h.bytes a ha)
  wfin hfin := k.wfin (h.wfin hfin)

/-- Bits written by a writer that is not finalized, some of them counted. -/
theorem keepsWritten_count {n c : Nat} {bit : Nat → Bool} {u u' : Wru} (hinv : WruInv u) (hf : u.wfin = false)
    (hc : c ≤ n) (h : Wrote n bit u u') : KeepsWritten u (u'.count c) := by
  have hgood := hinv.good hf
  obtain ⟨hwf, hbelow, hopen⟩ := h.good
  obtain ⟨-, -, hcnt, -⟩ := hinv
  have hcur' : u'.wcur = u.wcur + n := h.wcur
  have hcnt' : u'.wcnt = u.wcnt := h.wcnt
  have hfin' : u'.wfin = false := h.wfin.trans hf
  have hlen : u.wlen ≤ u'.wlen := h.wlen_le hgood
  refine ⟨⟨hwf, hbelow, ?_, fun _ => hopen, fun hfin => ?_⟩, ?_, ?_, h.old, hlen, h.bytes, ?_⟩
  · simp only [Wru.count_wcnt, Wru.count_wcur]
    omega
  · exact absurd (hfin'.symm.trans hfin) (by decide)
  · simp only [Wru.count_wcur]
    omega
  · simp only [Wru.count_wcnt]
    omega
  · exact fun hfin => absurd (hf.symm.trans hfin) (by decide)

/-- `WR_PACK`. -/
theorem keepsWritten_pack {u : Wru} (hinv : WruInv u) : KeepsWritten u u.pack := by
  cases hf : u.wfin with
  | true =>
    rw [pack_of_final hf]
    exact .refl hinv
  | false =>
    obtain ⟨hwf, hbelow, hfinal, hfin, hcur, hcnt, hwire⟩ := pack_spec (hinv.good hf) hf
    have hwlen : u.wlen ≤ u.pack.wlen := by
      rw [pack_of_open hf]
      exact Nat.le_add_right _ _
    obtain ⟨hwf', -, hcount, -, -⟩ := hinv
    refine ⟨⟨hwf, hbelow, by omega, fun h => ?_, fun _ => hfinal⟩, hcur.ge, hcnt.ge, hwire, hwlen, fun a ha => ?_,
      fun _ => hfin⟩
    · exact absurd (h.symm.trans hfin) (by decide)
    · rw [readByte_pack hf hwf', if_neg (by omega)]

/-- Every move a command can make of the writer keeps the invariant and what was written. -/
theorem WruMove.keepsWritten {u u' : Wru} (h : WruMove u u') (hinv : WruInv u) : KeepsWritten u u' := by
  cases h with
  | same => exact .refl hinv
  | wrote hf hc _ hwrote => exact keepsWritten_count hinv hf hc (hwrote (hinv.good hf))
  | pack => exact keepsWritten_pack hinv

/-- A command makes one of these moves of the writer. -/
theorem exec_wru_moves (i : Instr) (s : State) : ∃ t, exec i s = .next t ∧ WruMove s.wru t.wru := by
  by_cases hunit : unitOf i = .wru
  · obtain ⟨a, hmove, hexec, -⟩ := exec_wru hunit s
    exact ⟨_, hexec, hmove⟩
  · obtain ⟨f, r, -, hwru, hexec⟩ := exec_changes i s
    refine ⟨_, hexec s (.refl i s), ?_⟩
    simp only [(hwru hunit).1, id]
    exact .same

/-- Settles O43: a command moves the writer in one of the ways that keep what was written. -/
theorem writerInvariantsHold : Obligations.WriterInvariantsHold := by
  intro i s t hinv ht
  obtain ⟨t', hexec, hmove⟩ := exec_wru_moves i s
  obtain rfl : t' = t := by simpa [hexec] using ht
  obtain ⟨hinv', hcur, hcnt, hwire, hwlen, hbytes, hfin⟩ := hmove.keepsWritten hinv
  exact ⟨hinv', hcur, hcnt, hwire, hwlen, hbytes, hfin⟩

/-! ### Every step -/

/-- What a command leaves alone, whatever its word is. -/
theorem runCommand_frame (c : Command) (s : State) :
    ∃ t r, runCommand c s = .next t ∧ t.roundTies = s.roundTies ∧ t.port = s.port.tail ∧
      t.responses = r :: s.responses ∧ t.rdu.rlen = s.rdu.rlen ∧ t.rdu.rmem = s.rdu.rmem := by
  unfold runCommand
  split
  next i _ =>
    obtain ⟨f, r, -, -, hexec⟩ := exec_changes i s
    obtain ⟨t, n, k, hmoves, -, hrdu⟩ := exec_rdu_moves i s
    obtain rfl : changeAnswer s f r = t := by simpa [hexec s (.refl i s)] using hmoves
    exact ⟨_, r, hmoves, rfl, rfl, rfl, by rw [hrdu]; rfl, by rw [hrdu]; rfl⟩
  next => exact ⟨_, _, raise_eq _ _, rfl, rfl, rfl, rfl, rfl⟩

theorem step_nil {s : State} (h : s.port = []) : step s = .next s := by
  unfold step
  rw [h]

theorem step_resetRdu {s : State} {bytes : List Byte} {rest : List HostEvent} (h : s.port = .resetRdu bytes :: rest) :
    step s = .next { s with rdu := Rdu.resetWith bytes, port := rest } := by
  unfold step resetRdu
  rw [h]
  rfl

theorem step_resetWru {s : State} {rest : List HostEvent} (h : s.port = .resetWru :: rest) :
    step s = .next { s with wru := Wru.reset, port := rest } := by
  unfold step resetWru
  rw [h]
  rfl

/-- Settles O6: each event of the host, and none, leads to a next state. -/
theorem everyStepEndsInANextState : Obligations.EveryStepEndsInANextState := by
  intro s
  cases hport : s.port with
  | nil => exact ⟨s, step_nil hport, rfl, fun _ => rfl, by simp⟩
  | cons event rest =>
    cases event with
    | command c =>
      obtain ⟨t, r, hrun, hties, htail, hresponses, -⟩ := runCommand_frame c s
      refine ⟨t, (step_command hport).trans hrun, hties, by simp, fun c' rest' h => ⟨?_, r, hresponses⟩⟩
      rw [htail, hport]
      exact (List.cons.inj h).2
    | resetRdu bytes => exact ⟨_, step_resetRdu hport, rfl, by simp, by simp⟩
    | resetWru => exact ⟨_, step_resetWru hport, rfl, by simp, by simp⟩

/-- A step that is no reset of RDU keeps the host's buffer. -/
theorem step_keeps_buffer {s t : State} (h : step s = .next t) (hport : ∀ bs more, s.port ≠ .resetRdu bs :: more) :
    t.rdu.rlen = s.rdu.rlen ∧ t.rdu.rmem = s.rdu.rmem := by
  cases hp : s.port with
  | nil =>
    obtain rfl : s = t := by simpa [step_nil hp] using h
    exact ⟨rfl, rfl⟩
  | cons event rest =>
    cases event with
    | command c =>
      obtain ⟨t', r, hrun, -, -, -, hlen, hmem⟩ := runCommand_frame c s
      obtain rfl : t' = t := by simpa [step_command hp, hrun] using h
      exact ⟨hlen, hmem⟩
    | resetRdu bytes => exact absurd hp (hport bytes rest)
    | resetWru =>
      rw [step_resetWru hp] at h
      cases h
      exact ⟨rfl, rfl⟩

/-- Settles O7: the buffer is the host's list of bytes, and only a reset of RDU writes it. -/
theorem rduResetTakesTheHostsBuffer : Obligations.RduResetTakesTheHostsBuffer := by
  intro s bytes rest hport
  have hread : ∀ i, (Memory.ofBytes 0 bytes).readByte i = bytes.getD i Memory.unlisted := fun i => by
    simpa using Memory.readByte_ofBytes 0 bytes i
  refine ⟨Memory.ofBytes 0 bytes, step_resetRdu hport, fun i hi => ?_, ?_, fun u v => step_keeps_buffer⟩
  · rw [hread, List.getD_eq_getElem _ _ hi]
  · cases bytes with
    | nil => rfl
    | cons b bs =>
      simp only [rdBit, Rdu.memRead, hread]
      simp

/-- Settles O8: the writer after its reset is the empty stream. -/
theorem wruResetClearsTheStream : Obligations.WruResetClearsTheStream := by
  intro s rest hport
  refine ⟨_, step_resetWru hport, rfl, rfl, rfl, rfl, rfl, rfl, fun _ => rfl, rfl, ?_⟩
  exact (by decide : ∀ b, (wrBit b Wru.reset).wireBit 0 = b)

/-- Settles O9: the registers of the reset state, evaluated. -/
theorem resetStateIsANewStream : Obligations.ResetStateIsANewStream := by
  unfold Obligations.ResetStateIsANewStream
  decide

/-- Settles O41: the buffers of the reset state are empty and its registers 0. -/
theorem resetMeetsTheInvariant : Obligations.ResetMeetsTheInvariant := by
  unfold Obligations.ResetMeetsTheInvariant
  decide

theorem rduInv_resetWith (bytes : List Byte) : RduInv (Rdu.resetWith bytes) := by
  refine ⟨Memory.wf_ofBytes bytes, ?_, le_refl 0⟩
  simpa using Memory.Below_ofBytes 0 bytes

theorem wruInv_reset : WruInv Wru.reset := by decide

/-- A response with one of the codes of R248, and 0 beside an error, leaves the responses legal. -/
theorem responses_legal_of_endsWith {s t : State} {st : BitVec 4} (hst : st.toNat ≤ 7) (h : EndsWith s st (.next t))
    (hs : ∀ r ∈ s.responses, r.Legal) : ∀ r ∈ t.responses, r.Legal := by
  obtain ⟨t', res, ht, hresponses, herror⟩ := h
  cases ht
  rw [hresponses, List.forall_mem_cons]
  exact ⟨⟨hst, fun hne => (herror hne).1⟩, hs⟩

/-- Every command keeps the invariant. -/
theorem exec_keeps_inv (i : Instr) {s t : State} (hinv : Inv s) (h : exec i s = .next t) : Inv t := by
  obtain ⟨⟨hwf, hbelow, hcnt⟩, hwru, hlegal⟩ := hinv
  obtain ⟨-, -, hmem, hlen, hcnt'⟩ := readerInvariantsHold.1 i s t h
  obtain ⟨hwru', -⟩ := writerInvariantsHold i s t hwru h
  have hends := exec_endsWith i s
  rw [h] at hends
  refine ⟨⟨?_, ?_, hcnt' hcnt⟩, hwru', responses_legal_of_endsWith (statusOf_le_seven i _ _ _) hends hlegal⟩
  · rw [hmem]
    exact hwf
  · rw [hmem, hlen]
    exact hbelow

/-- Every presented word keeps the invariant: an illegal one only adds its answer. -/
theorem runCommand_keeps_inv (c : Command) {s t : State} (hinv : Inv s) (h : runCommand c s = .next t) : Inv t := by
  unfold runCommand at h
  split at h
  next i _ => exact exec_keeps_inv i hinv h
  next =>
    rw [raise_eq] at h
    cases h
    obtain ⟨hrdu, hwru, hlegal⟩ := hinv
    exact ⟨hrdu, hwru, responses_legal_of_endsWith (by decide) (.error s 6) hlegal⟩

/-- Settles O40: a command keeps the invariant, and a reset leaves one unit as it is and the other as new. -/
theorem everyStepKeepsTheInvariant : Obligations.EveryStepKeepsTheInvariant := by
  intro s t hinv h
  cases hport : s.port with
  | nil =>
    obtain rfl : s = t := by simpa [step_nil hport] using h
    exact hinv
  | cons event rest =>
    cases event with
    | command c => exact runCommand_keeps_inv c hinv ((step_command hport).symm.trans h)
    | resetRdu bytes =>
      rw [step_resetRdu hport] at h
      cases h
      obtain ⟨-, hwru, hlegal⟩ := hinv
      exact ⟨rduInv_resetWith bytes, hwru, hlegal⟩
    | resetWru =>
      rw [step_resetWru hport] at h
      cases h
      obtain ⟨hrdu, -, hlegal⟩ := hinv
      exact ⟨hrdu, wruInv_reset, hlegal⟩

end Sys2Proof.Units
end

section
/-! The reader's derived rules (spec 40_reader_bits_and_integers R120 to R122, 42_reader_varint R143): the status read,
the relations between the integer reads, the splitting law, and the bound on the groups of `RD_VARINT`. -/

namespace Sys2Proof.Reader

open Sys2Proof Sys2Proof.Machine Sys2Proof.Encoding

/-- Settles O13: each known register is shown, another number is the unknown register of R88. -/
theorem readerStatusReads : Obligations.ReaderStatusReads :=
  ⟨encodedW_of_decodeOpcode (opc := 0x0C) fun _ => rfl,
    fun s => ⟨rfl, rfl, rfl, fun n hn => exec_unknownRegister (i := .rdStat n) (decide_eq_true hn) s⟩⟩

/-! ### The relations between the integer reads -/

/-- A field of at most `n` bits is the same natural number in any word of `n` bits or more. -/
theorem toNat_ofNat_rdField {w n : Nat} (hw : w ≤ n) (u : Rdu) :
    (BitVec.ofNat n (rdField w u).1).toNat = (rdField w u).1 := by
  rw [BitVec.toNat_ofNat, Nat.mod_eq_of_lt ((rdField_lt w u).trans_le (Nat.pow_le_pow_right Nat.two_pos hw))]

/-- Without a sign bit `RD_SINT` is `RD_INT`, also where it fails. -/
theorem execRdSint_unsigned (w : Int) (s : State) : execRdSint w false s = rdFixed w 32 s := by
  rw [execRdSint_eq, rdFixed_eq]
  have hT : (1 ≤ w ∧ w ≤ ((32 : Nat) : Int)) ↔ (1 ≤ w ∧ w ≤ 32) := Iff.rfl
  by_cases hw : 1 ≤ w ∧ w ≤ 32
  · have hres : (BitVec.ofNat 32 (rdField w.toNat s.rdu).1).setWidth 64 =
        BitVec.ofNat 64 (rdField w.toNat s.rdu).1 := by
      apply BitVec.eq_of_toNat_eq
      rw [BitVec.toNat_setWidth_of_le (by decide), toNat_ofNat_rdField (by omega), toNat_ofNat_rdField (by omega)]
    rw [if_pos hw, if_pos (hT.2 hw), if_neg Bool.false_ne_true, hres]
    rfl
  · rw [if_neg hw, if_neg (mt hT.1 hw)]

/-- A fixed-width read has the same effect at two greatest widths that agree on whether `w` is in range. -/
theorem rdFixed_congr {w : Int} {T T' : Nat} (h : 1 ≤ w → (w ≤ T ↔ w ≤ T')) (s : State) :
    rdFixed w T s = rdFixed w T' s := by
  rw [rdFixed_eq, rdFixed_eq]
  by_cases hw : 1 ≤ w
  · simp only [hw, h hw]
  · rw [if_neg fun hr => hw hr.1, if_neg fun hr => hw hr.1]

/-- Settles O14: the reads are one body at their greatest widths. -/
theorem integerReadsAgree : Obligations.IntegerReadsAgree := by
  intro s
  refine ⟨fun w => execRdSint_unsigned w s, ⟨_, rfl, rfl⟩, fun w hw => ?_, ?_, ?_, fun w h1 h8 => ⟨?_, ?_, ?_⟩⟩
  · exact rdFixed_congr (T := 31) (T' := 32) (fun _ => by omega) s
  · exact (rdFixed_eq 32 31 s).trans (by rw [if_neg (by decide)])
  · exact ⟨_, (rdFixed_eq 32 32 s).trans (by rw [if_pos (by decide)]), _, rfl⟩
  · exact rdFixed_congr (T := 8) (T' := 16) (fun _ => by omega) s
  · exact rdFixed_congr (T := 16) (T' := 32) (fun _ => by omega) s
  · exact rdFixed_congr (T := 32) (T' := 64) (fun _ => by omega) s

/-! ### The splitting law -/

/-- A field of `m + n` bits is a field of `m` bits and the field of `n` bits that follows it (40 R122). -/
theorem rdField_add (m n : Nat) (u : Rdu) :
    (rdField (m + n) u).1 = (rdField m u).1 + (rdField n (u.advance m)).1 * 2 ^ m := by
  induction m generalizing u with
  | zero => rw [Nat.zero_add, pow_zero, Nat.mul_one, Rdu.advance_zero, rdField, Nat.zero_add]
  | succ m ih =>
    rw [Nat.succ_add, rdField, rdField]
    simp only [rdBit, ih, Rdu.advance_advance, Nat.add_comm 1 m]
    ring

/-- What is counted makes no difference to a field. -/
theorem rdField_count (n c : Nat) (u : Rdu) : (rdField n (u.count c)).1 = (rdField n u).1 :=
  Nat.eq_of_testBit_eq fun i => by rw [testBit_rdField, testBit_rdField]; rfl

/-- The five reads with their greatest widths, as the splitting law lists them. -/
theorem fixedReads_exec_pair : ∀ form ∈ [(Instr.rdByte, 8), (Instr.rdShort, 16), (Instr.rdInt, 32), (Instr.rdLong, 64),
    (Instr.rdPint, 31)], form.2 ≤ 64 ∧ ∀ w s, exec (form.1 w) s = rdFixed w form.2 s := by
  simp only [List.forall_mem_cons]
  exact ⟨⟨by decide, fun _ _ => rfl⟩, ⟨by decide, fun _ _ => rfl⟩, ⟨by decide, fun _ _ => rfl⟩,
    ⟨by decide, fun _ _ => rfl⟩, ⟨by decide, fun _ _ => rfl⟩, List.forall_mem_nil _⟩

/-- A fixed-width read in range. -/
theorem rdFixed_of_inRange {w : Int} {T : Nat} (hw : 1 ≤ w ∧ w ≤ T) (s : State) :
    rdFixed w T s = .next ({ s with rdu := (s.rdu.advance w.toNat).count w.toNat }.responded 0
      (BitVec.ofNat 64 (rdField w.toNat s.rdu).1)) := by
  rw [rdFixed_eq, if_pos hw]

/-- Settles O15: the second read is the field that follows the first. -/
theorem readsOfAdjacentFieldsJoin : Obligations.ReadsOfAdjacentFieldsJoin := by
  intro form hform w1 w2 s h1 h2 hT
  obtain ⟨hT64, hexec⟩ := fixedReads_exec_pair form hform
  simp only [hexec]
  refine ⟨_, _, _, _, _, _, rdFixed_of_inRange ⟨h1, by omega⟩ s, rfl, rdFixed_of_inRange ⟨h2, by omega⟩ _, rfl,
    rdFixed_of_inRange ⟨by omega, hT⟩ s, rfl, ?_, ?_⟩
  · have hsum : (w1 + w2).toNat = w1.toNat + w2.toNat := by omega
    rw [toNat_ofNat_rdField (by omega), toNat_ofNat_rdField (by omega), toNat_ofNat_rdField (by omega), rdField_count,
      hsum, rdField_add]
  · have hsum : (w1 + w2).toNat = w1.toNat + w2.toNat := by omega
    simp only [Rdu.advance, Rdu.count, hsum, Nat.add_assoc]

/-! ### The bound on the groups of RD_VARINT -/

/-- All groups but the last lie in the buffer, since a continuation bit beyond it is 0 (42 R143). -/
theorem groups_within_buffer {u : Rdu} {g n : Nat} (hn : 2 ≤ n)
    (hflags : ∀ j, j < n → u.memRead (u.rcur + j * (g + 1) + g) = decide (j + 1 < n)) :
    u.rcur + (n - 1) * (g + 1) ≤ 8 * u.rlen := by
  obtain ⟨k, rfl⟩ : ∃ k, n = k + 2 := ⟨n - 2, by omega⟩
  have hflag := hflags k (by omega)
  rw [decide_eq_true (by omega)] at hflag
  by_contra hbeyond
  rw [show k + 2 - 1 = k + 1 by omega, Nat.add_mul, Nat.one_mul] at hbeyond
  rw [u.memRead_beyond (by omega)] at hflag
  exact absurd hflag (by decide)

/-- Settles O18: the last group but one ends within the buffer. -/
theorem varintReadEndsWithTheBuffer : Obligations.VarintReadEndsWithTheBuffer := by
  intro g s hg1 hg64
  obtain ⟨n, hn, hgroups, hrdu, hflags, -⟩ := rdGroups_of_start (g := g.toNat) (by omega) s.rdu
  refine ⟨_, n, (execRdVarint_eq g s).trans (by rw [if_pos ⟨hg1, hg64⟩]), ?_, ?_⟩
  · simp only [hrdu]
    rfl
  · by_cases hone : n = 1
    · exact le_max_of_le_left (by omega)
    · have hin := groups_within_buffer (by omega) hflags
      obtain ⟨k, rfl⟩ : ∃ k, n = k + 1 := ⟨n - 1, by omega⟩
      rw [Nat.add_sub_cancel] at hin
      refine le_max_of_le_right (Int.le_ceil_iff.2 ?_)
      have hgq : (0 : ℚ) < (g.toNat : ℚ) + 1 := by positivity
      have hinq : (s.rdu.rcur : ℚ) + k * (g.toNat + 1) ≤ 8 * s.rdu.rlen := by exact_mod_cast hin
      rw [lt_div_iff₀ hgq]
      push_cast
      linarith

end Sys2Proof.Reader
end

section
/-! The writer's derived rules (spec 44_writer_bits_and_integers R170, 46_writer_varint R191, 48_writer_finalize): the
status read, the number of groups in closed form, and what `WR_PACK` leaves. -/

namespace Sys2Proof.Writer

open Sys2Proof Sys2Proof.Machine Sys2Proof.Encoding Sys2Proof.Units

/-- Settles O28: each known register is shown, another number is the unknown register of R88. -/
theorem writerStatusReads : Obligations.WriterStatusReads := by
  refine ⟨encodedW_of_decodeOpcode (opc := 0x4D) fun _ => rfl,
    fun s => ⟨rfl, rfl, rfl, ?_, fun n hn => exec_unknownRegister (i := .wrStat n) (decide_eq_true hn) s⟩⟩
  rw [← Reader.bitResult_eq]
  rfl

/-! ### The number of groups -/

/-- `n` groups hold the bits of `V`, and one group less does not, unless there is only one. -/
theorem GroupCount.size_le {g V n : Nat} (h : GroupCount g V n) :
    V.size ≤ n * g ∧ (n = 1 ∨ (n - 1) * g < V.size) := by
  obtain ⟨hn, hlast⟩ := h
  obtain ⟨k, rfl⟩ : ∃ k, n = k + 1 := ⟨n - 1, by omega⟩
  constructor
  · have hnone : V / 2 ^ ((k + 1) * g) = 0 := by
      have := hlast k (Nat.lt_succ_self k)
      by_contra hne
      exact absurd (this.1 hne) (Nat.lt_irrefl _)
    exact Nat.size_le.2 ((Nat.div_eq_zero_iff_lt (Nat.two_pow_pos _)).1 hnone)
  · cases k with
    | zero => exact .inl rfl
    | succ k =>
      refine .inr (Nat.lt_size.2 ?_)
      have hsome := (hlast k (by omega)).2 (by omega)
      by_contra hlt
      exact hsome (Nat.div_eq_of_lt (by simpa using hlt))

/-- The closed form of R191. -/
theorem GroupCount.eq_closed_form {g V n : Nat} (hg : 0 < g) (h : GroupCount g V n) :
    n = max 1 ((V.size + g - 1) / g) := by
  obtain ⟨hle, hlt⟩ := h.size_le
  obtain ⟨hn, -⟩ := h
  have hupper : (V.size + g - 1) / g ≤ n := by
    rw [← Nat.lt_succ_iff, Nat.div_lt_iff_lt_mul hg, Nat.succ_mul]
    omega
  obtain rfl | hlt := hlt
  · omega
  · have hlower : n ≤ (V.size + g - 1) / g := by
      obtain ⟨k, rfl⟩ : ∃ k, n = k + 1 := ⟨n - 1, by omega⟩
      rw [Nat.add_sub_cancel] at hlt
      rw [Nat.le_div_iff_mul_le hg, Nat.succ_mul]
      omega
    omega

/-- Settles O31: the loop writes as many groups as the bit length of the operand asks for. -/
theorem varintWriteGroupCount : Obligations.VarintWriteGroupCount := by
  intro g s hg1 hg64 hf
  obtain ⟨n, hn, hcur, -, -⟩ := wrGroups_writesBits (g := g.toNat) (by omega) s.opd hf
  have hclosed := hn.eq_closed_form (by omega)
  have hsize : s.opd.toNat.size ≤ 64 := Nat.size_le.2 s.opd.isLt
  refine ⟨n, _, (execWrVarint_eq g s).trans (by rw [if_neg (Bool.eq_false_iff.mp hf), if_pos ⟨hg1, hg64⟩]), hcur,
    hclosed, ?_, fun htop => ?_⟩
  · rw [hclosed]
    refine max_le ?_ (Nat.div_le_div_right (by omega))
    rw [Nat.le_div_iff_mul_le (by omega)]
    omega
  · have hsize64 : s.opd.toNat.size = 64 := by
      refine le_antisymm hsize (Nat.lt_size.2 ?_)
      rw [← BitVec.testBit_toNat] at htop
      exact Nat.ge_two_pow_of_testBit htop
    rw [hclosed, hsize64]
    refine max_eq_right ?_
    rw [Nat.le_div_iff_mul_le (by omega)]
    omega

/-! ### WR_PACK -/

/-- The bits of the last byte above the cursor are 0 (48 R212). -/
theorem readByte_pack_above {u : Wru} (hgood : WruGood u) (hf : u.wfin = false) {p : Nat} (hp : u.wcur ≤ p)
    (hend : p < 8 * ((u.wcur + 7) / 8)) : (u.pack.wmem.readByte (p / 8)).getLsbD (p % 8) = false := by
  obtain ⟨hwf, -, hlen, hacc⟩ := hgood
  rw [readByte_pack hf hwf, if_pos (by omega)]
  exact (ushiftRight_eq_zero_iff _ _).1 hacc _ (by omega)

/-- Settles O33: the first `WR_PACK` appends the partial byte, which holds the bits written and zeros above. -/
theorem packFlushesOnceAndFinalizes : Obligations.PackFlushesOnceAndFinalizes := by
  refine ⟨encodedN_of_decodeOpcode (opc := 0x4C) fun _ => rfl, fun s => ⟨fun hf => ?_, fun hf => ?_⟩⟩
  · have hpack := pack_of_open hf
    refine ⟨s.wru.pack.wmem, s.wru.pack.wlen, ?_, ?_, fun hk => ?_, fun hk hwf a => ?_, fun hinv => ?_⟩
    · rw [hpack]
      exact congrArg (fun u : Wru => finish (BitVec.ofNat 64 u.wlen) { s with wru := u }) hpack
    · rw [hpack]
    · rw [hpack]
      exact if_pos hk
    · rw [readByte_pack hf hwf]
      simp only [hk, ne_eq, not_false_eq_true, true_and]
    · have hgood := hinv.good hf
      obtain ⟨-, -, ⟨hlen, -⟩, -, hcur, -, hwire⟩ := pack_spec hgood hf
      rw [hcur] at hlen
      refine ⟨hlen, fun p hp => ?_, fun p hp hend => ?_⟩
      · rw [← hwire p hp, Wru.wireBit, if_pos (by omega)]
      · exact readByte_pack_above hgood hf hp (by rwa [hlen] at hend)
  · rw [show exec .wrPack s = execWrPack s from rfl, execWrPack, pack_of_final hf]
    rfl

end Sys2Proof.Writer
end

section
/-! The laws of `SetBit` and `GetBit` (spec 49_twiddle R225). -/

namespace Sys2Proof.Twiddle

open Sys2Proof Sys2Proof.Machine

/-- Settles O36: `SetBit` changes one bit, and `GetBit` is the bit. -/
theorem setBitAndGetBitLaws : Obligations.SetBitAndGetBitLaws := by
  intro n v p q f hp hq
  refine ⟨?_, fun hqp => ?_, BitVec.eq_of_getLsbD_eq fun i hi => ?_⟩
  · rw [getBit_eq_getLsbD _ hp, getLsbD_setBit _ _ _ _ hp, if_pos rfl]
  · rw [getBit_eq_getLsbD _ hq, getBit_eq_getLsbD _ hq, getLsbD_setBit _ _ _ _ hq, if_neg hqp]
  · rw [getLsbD_setBit _ _ _ _ hi, getBit_eq_getLsbD _ hp]
    split
    · next h => rw [h]
    · rfl

end Sys2Proof.Twiddle
end

section
/-! Binary64 as whole numbers (spec 00_scope R8, R13; log 7): every finite pattern with sign 0 is a whole number of
units of `2^-1074`, a significand shifted to its place, and the pattern read as a number is that significand above that
place. -/

namespace Sys2Proof.Binary64

open Sys2Proof Sys2Proof.Machine

/-- The least positive value of the format (00_scope R8). -/
def ulpMin : ℚ := 2 ^ (-1074 : ℤ)

theorem ulpMin_pos : 0 < ulpMin := zpow_pos two_pos _

/-- `2^j` of the least values. -/
theorem two_pow_mul_ulpMin (j : Nat) : (2 : ℚ) ^ j * ulpMin = 2 ^ ((j : ℤ) - 1074) := by
  rw [ulpMin, ← zpow_natCast, ← zpow_add₀ two_ne_zero, sub_eq_add_neg]

/-! ### Significand and place of a pattern -/

/-- How far the significand of a pattern is shifted up, counted from the place of the least values. -/
def f64Shift (p : Word) : Nat := f64ExpField p - 1

/-- The significand of a pattern, with the leading bit that a normal pattern does not store. -/
def f64Significand (p : Word) : Nat := if f64ExpField p = 0 then f64ManField p else 2 ^ 52 + f64ManField p

/-- The magnitude of a pattern in units of the least value. -/
def f64Units (p : Word) : Nat := f64Significand p * 2 ^ f64Shift p

theorem f64ExpField_eq (p : Word) : f64ExpField p = p.toNat / 2 ^ 52 % 2 ^ 11 := by
  rw [f64ExpField, BitVec.extractLsb'_toNat, Nat.shiftRight_eq_div_pow]

theorem f64ManField_eq (p : Word) : f64ManField p = p.toNat % 2 ^ 52 := by
  rw [f64ManField, BitVec.extractLsb'_toNat, Nat.shiftRight_zero]

theorem f64ManField_lt (p : Word) : f64ManField p < 2 ^ 52 := by
  rw [f64ManField_eq]
  exact Nat.mod_lt _ (by decide)

/-- A pattern with sign 0 is a number below `2^63`. -/
theorem sign_eq_false_iff (p : Word) : p.getLsbD 63 = false ↔ p.toNat < 2 ^ 63 := by
  rw [← BitVec.testBit_toNat, Nat.testBit_eq_decide_div_mod_eq, decide_eq_false_iff_not]
  have := p.isLt
  omega

theorem f64Finite_iff (p : Word) : F64Finite p ↔ f64ExpField p ≠ 2047 := by
  rw [← Writer.f64IsFinite_iff, f64IsFinite, bne_iff_ne]

theorem f64Significand_lt (p : Word) : f64Significand p < 2 ^ 53 := by
  have := f64ManField_lt p
  unfold f64Significand
  split <;> omega

/-- A significand that is shifted has its leading bit set. -/
theorem f64Significand_normal (p : Word) : f64Shift p = 0 ∨ 2 ^ 52 ≤ f64Significand p := by
  unfold f64Shift f64Significand
  split <;> omega

/-- A pattern with sign 0, read as a number, is its significand above its place. -/
theorem toNat_of_sign_false {p : Word} (h : p.getLsbD 63 = false) :
    p.toNat = f64Shift p * 2 ^ 52 + f64Significand p := by
  rw [sign_eq_false_iff] at h
  have hexp := f64ExpField_eq p
  have hman := f64ManField_eq p
  unfold f64Shift f64Significand
  split <;> omega

/-- The pattern that holds a significand at a place; a significand of `2^53` is carried into the next place. -/
theorem f64Units_ofNat {j m : Nat} (hm : m ≤ 2 ^ 53) (hj : j = 0 ∨ 2 ^ 52 ≤ m) (hfin : j * 2 ^ 52 + m < 2047 * 2 ^ 52) :
    F64Finite (BitVec.ofNat 64 (j * 2 ^ 52 + m)) ∧ (BitVec.ofNat 64 (j * 2 ^ 52 + m)).getLsbD 63 = false ∧
      f64Units (BitVec.ofNat 64 (j * 2 ^ 52 + m)) = m * 2 ^ j := by
  have hnat : (BitVec.ofNat 64 (j * 2 ^ 52 + m)).toNat = j * 2 ^ 52 + m := by
    rw [BitVec.toNat_ofNat, Nat.mod_eq_of_lt (by omega)]
  have hexp := f64ExpField_eq (BitVec.ofNat 64 (j * 2 ^ 52 + m))
  have hman := f64ManField_eq (BitVec.ofNat 64 (j * 2 ^ 52 + m))
  rw [hnat] at hexp hman
  refine ⟨(f64Finite_iff _).2 (by omega), (sign_eq_false_iff _).2 (by omega), ?_⟩
  unfold f64Units f64Significand f64Shift
  rw [hexp, hman]
  by_cases hcarry : m = 2 ^ 53
  · have hplace : (j * 2 ^ 52 + m) / 2 ^ 52 % 2 ^ 11 = j + 2 := by omega
    have hzero : (j * 2 ^ 52 + m) % 2 ^ 52 = 0 := by omega
    rw [hplace, hzero, if_neg (by omega), hcarry]
    exact (by ring : (2 ^ 52 + 0) * 2 ^ (j + 1) = 2 ^ 53 * 2 ^ j)
  · by_cases hsub : m < 2 ^ 52
    · have hplace : (j * 2 ^ 52 + m) / 2 ^ 52 % 2 ^ 11 = 0 := by omega
      have hmod : (j * 2 ^ 52 + m) % 2 ^ 52 = m := by omega
      rw [hplace, hmod, if_pos rfl, show j = 0 by omega]
    · have hplace : (j * 2 ^ 52 + m) / 2 ^ 52 % 2 ^ 11 = j + 1 := by omega
      have hmod : 2 ^ 52 + (j * 2 ^ 52 + m) % 2 ^ 52 = m := by omega
      rw [hplace, hmod, if_neg (by omega), Nat.add_sub_cancel]

/-- A smaller place holds smaller values than any significand with its leading bit set. -/
theorem lt_of_shift_lt {m m' j j' : Nat} (hm : m < 2 ^ 53) (hm' : 2 ^ 52 ≤ m') (hj : j < j') :
    m * 2 ^ j < m' * 2 ^ j' := by
  calc m * 2 ^ j < 2 ^ 53 * 2 ^ j := Nat.mul_lt_mul_of_pos_right hm (Nat.two_pow_pos j)
    _ = 2 ^ 52 * 2 ^ (j + 1) := by ring
    _ ≤ m' * 2 ^ j' := Nat.mul_le_mul hm' (Nat.pow_le_pow_right Nat.two_pos hj)

/-- Two patterns with sign 0 and one value are one pattern. -/
theorem eq_of_f64Units_eq {p q : Word} (hp : p.getLsbD 63 = false) (hq : q.getLsbD 63 = false)
    (h : f64Units p = f64Units q) : p = q := by
  wlog hle : f64Shift p ≤ f64Shift q generalizing p q
  · exact (this hq hp h.symm (Nat.le_of_not_le hle)).symm
  have hshift : f64Shift p = f64Shift q := by
    by_contra hne
    have hnormal := (f64Significand_normal q).resolve_left (by omega)
    exact absurd h (lt_of_shift_lt (f64Significand_lt p) hnormal (by omega)).ne
  have hsig : f64Significand p = f64Significand q := by
    unfold f64Units at h
    rw [hshift] at h
    exact Nat.eq_of_mul_eq_mul_right (Nat.two_pow_pos _) h
  apply BitVec.eq_of_toNat_eq
  rw [toNat_of_sign_false hp, toNat_of_sign_false hq, hshift, hsig]

/-! ### The value of a pattern -/

/-- The value of a pattern, as the claims write it, in units of the least value. -/
theorem f64Real_eq (p : Word) : f64Real p = (if p.getLsbD 63 then -1 else 1) * (f64Units p * ulpMin) := by
  have hvalue : (f64Units p : ℚ) * ulpMin =
      if f64ExpField p = 0 then (f64ManField p : ℚ) * 2 ^ (-1074 : ℤ)
      else ((2 ^ 52 + f64ManField p : ℕ) : ℚ) * 2 ^ ((f64ExpField p : ℤ) - 1075) := by
    unfold f64Units f64Significand f64Shift
    split
    · next h => rw [h, Nat.zero_sub, pow_zero, Nat.mul_one, ulpMin]
    · next h =>
      rw [Nat.cast_mul, mul_assoc, Nat.cast_pow, Nat.cast_ofNat, two_pow_mul_ulpMin, Nat.cast_sub (by omega),
        Nat.cast_one, sub_sub]
      norm_num
  rw [hvalue]
  rfl

theorem f64Real_of_sign_false {p : Word} (h : p.getLsbD 63 = false) : f64Real p = f64Units p * ulpMin := by
  rw [f64Real_eq, h, if_neg Bool.false_ne_true, one_mul]

theorem abs_f64Real (p : Word) : |f64Real p| = f64Units p * ulpMin := by
  have hnonneg : (0 : ℚ) ≤ f64Units p * ulpMin := mul_nonneg (Nat.cast_nonneg _) ulpMin_pos.le
  rw [f64Real_eq]
  split
  · rw [neg_one_mul, abs_neg, abs_of_nonneg hnonneg]
  · rw [one_mul, abs_of_nonneg hnonneg]

theorem f64Real_nonneg {p : Word} (h : p.getLsbD 63 = false) : 0 ≤ f64Real p := by
  rw [f64Real_of_sign_false h, ← abs_f64Real]
  exact abs_nonneg _

theorem f64Magnitude_den_pos (p : Word) : 0 < (f64Magnitude p).2 := by
  unfold f64Magnitude
  simp only []
  split
  · exact Nat.one_pos
  · exact Nat.two_pow_pos _

/-- The fraction the model computes with is the magnitude. -/
theorem f64Magnitude_eq (p : Word) : ((f64Magnitude p).1 : ℚ) / (f64Magnitude p).2 = |f64Real p| := by
  have hplace : max (f64ExpField p) 1 = f64Shift p + 1 := by
    unfold f64Shift
    omega
  rw [abs_f64Real, f64Units]
  unfold f64Magnitude
  simp only [hplace]
  rw [← show f64Significand p = if f64ExpField p = 0 then f64ManField p else 2 ^ 52 + f64ManField p from rfl]
  rw [Nat.cast_mul, Nat.cast_pow, Nat.cast_ofNat, mul_assoc, two_pow_mul_ulpMin]
  split
  · next h =>
    have hexp : ((f64Shift p + 1 - 1075 : ℕ) : ℤ) = f64Shift p - 1074 := by omega
    rw [Nat.cast_mul, Nat.cast_one, div_one, Nat.cast_pow, Nat.cast_ofNat, ← zpow_natCast, hexp]
  · next h =>
    have hexp : -((1075 - (f64Shift p + 1) : ℕ) : ℤ) = f64Shift p - 1074 := by omega
    rw [Nat.cast_pow, Nat.cast_ofNat, div_eq_mul_inv, ← zpow_natCast, ← zpow_neg, hexp]

end Sys2Proof.Binary64
end

section
/-! Rounding (spec 00_scope R13, 47_writer_decimal R201; log 7): rounding to a whole number, and the rounding of a
fraction to a pattern by rounding its significand at the place its size asks for. -/

namespace Sys2Proof.Binary64

open Sys2Proof Sys2Proof.Machine

/-! ### To a whole number -/

/-- `num / den` is its floor and the part of the remainder. -/
theorem div_eq_floor_add {num den : Nat} (hden : 0 < den) :
    (num : ℚ) / den = (num / den : ℕ) + (num % den : ℕ) / (den : ℚ) := by
  have hden' : (den : ℚ) ≠ 0 := by positivity
  rw [eq_comm, ← mul_right_inj' hden', mul_add, mul_div_cancel₀ _ hden', mul_div_cancel₀ _ hden']
  exact_mod_cast Nat.div_add_mod num den

/-- The floor, rounded down where the remainder is less than half or a tie that goes down. -/
theorem isRounded_floor {ties : Config.RoundTies} {q r den : Nat} (hden : 0 < den) (hle : 2 * r ≤ den)
    (htie : 2 * r = den → ties = .halfEven ∧ q % 2 = 0) : IsRounded ties (q + r / (den : ℚ)) q := by
  have hden' : (0 : ℚ) < den := by exact_mod_cast hden
  have hdist : |(q : ℚ) - (q + r / (den : ℚ))| = r / (den : ℚ) := by
    rw [sub_add_cancel_left, abs_neg, abs_of_nonneg (by positivity)]
  unfold IsRounded
  rw [hdist, div_le_div_iff₀ hden' two_pos, div_eq_div_iff hden'.ne' two_ne_zero]
  refine ⟨by exact_mod_cast (by omega : r * 2 ≤ 1 * den), fun h => ?_⟩
  obtain ⟨rfl, heven⟩ := htie (by have : r * 2 = 1 * den := by exact_mod_cast h
                                  omega)
  exact heven

/-- The next number, where the remainder is more than half or a tie that goes up. -/
theorem isRounded_ceil {ties : Config.RoundTies} {q r den : Nat} (hr : r < den) (hle : den ≤ 2 * r)
    (htie : 2 * r = den → ties = .halfUp ∨ q % 2 = 1) : IsRounded ties (q + r / (den : ℚ)) (q + 1) := by
  have hden' : (0 : ℚ) < den := by exact_mod_cast (by omega : 0 < den)
  have hfrac : (r : ℚ) / den < 1 := by
    rw [div_lt_one hden']
    exact_mod_cast hr
  have hdist : |((q + 1 : ℕ) : ℚ) - (q + r / (den : ℚ))| = 1 - r / (den : ℚ) := by
    rw [Nat.cast_add, Nat.cast_one, add_sub_add_left_eq_sub, abs_of_pos (by linarith)]
  have hhalf : (1 : ℚ) / 2 ≤ r / den := by
    rw [div_le_div_iff₀ two_pos hden']
    exact_mod_cast (by omega : 1 * den ≤ r * 2)
  unfold IsRounded
  rw [hdist]
  refine ⟨by linarith, fun h => ?_⟩
  have htied : (r : ℚ) / den = 1 / 2 := by linarith
  rw [div_eq_div_iff hden'.ne' two_ne_zero] at htied
  have heq : 2 * r = den := by
    have : r * 2 = 1 * den := by exact_mod_cast htied
    omega
  cases ties with
  | halfUp =>
    show (q : ℚ) + r / den < (q + 1 : ℕ)
    rw [Nat.cast_add, Nat.cast_one]
    linarith
  | halfEven =>
    have hodd : q % 2 = 1 := (htie heq).resolve_left (by decide)
    show (q + 1) % 2 = 0
    omega

theorem roundEven_isRounded (num : Nat) {den : Nat} (hden : 0 < den) :
    IsRounded .halfEven ((num : ℚ) / den) (roundEven num den) := by
  have hr : num % den < den := Nat.mod_lt _ hden
  rw [div_eq_floor_add hden, roundEven]
  split
  · next h => exact isRounded_ceil hr (by omega) fun _ => .inr (by omega)
  · next h => exact isRounded_floor hden (by omega) fun _ => ⟨rfl, by omega⟩

/-- `Round` under either tie rule (47 R201). -/
theorem roundTie_isRounded (ties : Config.RoundTies) (num : Nat) {den : Nat} (hden : 0 < den) :
    IsRounded ties ((num : ℚ) / den) (roundTie ties num den) := by
  cases ties with
  | halfEven => exact roundEven_isRounded num hden
  | halfUp =>
    have hr : num % den < den := Nat.mod_lt _ hden
    rw [div_eq_floor_add hden, roundTie]
    split
    · next h => exact isRounded_ceil hr h fun _ => .inl rfl
    · next h => exact isRounded_floor hden (by omega) fun _ => by omega

section Rounded

variable {ties : Config.RoundTies} {y : ℚ} {n : Nat} (h : IsRounded ties y n)
include h

/-- Another whole number is at least as far as half. -/
theorem half_le_of_ne {k : Nat} (hk : k ≠ n) : 1 / 2 ≤ |(k : ℚ) - y| := by
  have hone : (1 : ℚ) ≤ |(k : ℚ) - n| := by
    have : (1 : ℤ) ≤ |(k : ℤ) - n| := Int.one_le_abs (by omega)
    exact_mod_cast this
  have htriangle := abs_sub_le (k : ℚ) y n
  rw [abs_sub_comm y n] at htriangle
  have := h.1
  linarith

theorem isRounded_nearest (k : Nat) : |(n : ℚ) - y| ≤ |(k : ℚ) - y| := by
  by_cases hk : k = n
  · rw [hk]
  · exact h.1.trans (half_le_of_ne h hk)

/-- A whole number as near is the same or a tie. -/
theorem isRounded_tie_of_as_near {k : Nat} (heq : |(n : ℚ) - y| = |(k : ℚ) - y|) : k = n ∨ |(n : ℚ) - y| = 1 / 2 := by
  by_cases hk : k = n
  · exact .inl hk
  · exact .inr (le_antisymm h.1 (heq ▸ half_le_of_ne h hk))

theorem isRounded_le_of_le {k : Nat} (hy : y ≤ k) : n ≤ k := by
  have hupper := (abs_le.1 h.1).2
  have : (n : ℚ) < k + 1 := by linarith
  exact Nat.lt_succ_iff.1 (by exact_mod_cast this)

theorem isRounded_ge_of_ge {k : Nat} (hy : (k : ℚ) ≤ y) : k ≤ n := by
  have hlower := (abs_le.1 h.1).1
  have : (k : ℚ) < n + 1 := by linarith
  exact Nat.lt_succ_iff.1 (by exact_mod_cast this)

end Rounded

/-- A whole number is rounded to itself. -/
theorem isRounded_eq_of_natCast {ties : Config.RoundTies} {n k : Nat} (h : IsRounded ties (k : ℚ) n) : n = k :=
  le_antisymm (isRounded_le_of_le h (le_refl _)) (isRounded_ge_of_ge h (le_refl _))

/-! ### To a pattern -/

/-- The distance of a pattern with sign 0 from a value, both in units of the least value. -/
theorem abs_f64Real_sub {p : Word} (h : p.getLsbD 63 = false) (y : ℚ) :
    |f64Real p - y * ulpMin| = |(f64Units p : ℚ) - y| * ulpMin := by
  rw [f64Real_of_sign_false h, ← sub_mul, abs_mul, abs_of_pos ulpMin_pos]

/-- The distance between a multiple of `2^j` and a value, in units of `2^j`. -/
theorem abs_mul_two_pow_sub (k j : Nat) (y : ℚ) : |((k * 2 ^ j : ℕ) : ℚ) - y| = |(k : ℚ) - y / 2 ^ j| * 2 ^ j := by
  have hpos : (0 : ℚ) < 2 ^ j := by positivity
  rw [Nat.cast_mul, Nat.cast_pow, Nat.cast_ofNat, ← abs_of_pos hpos, ← abs_mul, abs_of_pos hpos, sub_mul,
    div_mul_cancel₀ _ hpos.ne']

/-- A pattern at the place `j` or above is a multiple of `2^j`. -/
theorem exists_multiple_of_le_shift {q : Word} {j : Nat} (h : j ≤ f64Shift q) : ∃ k, f64Units q = k * 2 ^ j := by
  refine ⟨f64Significand q * 2 ^ (f64Shift q - j), ?_⟩
  rw [f64Units, Nat.mul_assoc, ← Nat.pow_add, Nat.sub_add_cancel h]

/-- Rounding the significand at the place `j` gives the nearest pattern, when the value has its leading bit at that
place or `j` is the least place: patterns at the place or above are the multiples of `2^j`, and those below it are all
smaller than the multiple `2^52`, which is no greater than the value. -/
theorem isNearestEven_of_rounded {y : ℚ} {j m : Nat} (hround : IsRounded .halfEven (y / 2 ^ j) m)
    (hlow : j = 0 ∨ 2 ^ 52 * 2 ^ j ≤ y) (hm : m ≤ 2 ^ 53) (hfin : j * 2 ^ 52 + m < 2047 * 2 ^ 52) :
    IsNearestEven (y * ulpMin) (BitVec.ofNat 64 (j * 2 ^ 52 + m)) ∧
      f64Real (BitVec.ofNat 64 (j * 2 ^ 52 + m)) = ((m * 2 ^ j : ℕ) : ℚ) * ulpMin := by
  have hj : (0 : ℚ) < 2 ^ j := by positivity
  have hnormal : j = 0 ∨ 2 ^ 52 ≤ m := hlow.imp_right fun h =>
    isRounded_ge_of_ge hround (by rw [le_div_iff₀ hj]; exact_mod_cast h)
  obtain ⟨hfinite, hsign, hunits⟩ := f64Units_ofNat hm hnormal hfin
  have hnat : (BitVec.ofNat 64 (j * 2 ^ 52 + m)).toNat = j * 2 ^ 52 + m := by
    rw [BitVec.toNat_ofNat, Nat.mod_eq_of_lt (by omega)]
  generalize BitVec.ofNat 64 (j * 2 ^ 52 + m) = p at *
  refine ⟨⟨hfinite, hsign, fun q _ hq => ?_⟩, by rw [f64Real_of_sign_false hsign, hunits]⟩
  rw [abs_f64Real_sub hsign, abs_f64Real_sub hq, mul_le_mul_iff_left₀ ulpMin_pos,
    mul_left_inj' ulpMin_pos.ne', hunits, abs_mul_two_pow_sub]
  by_cases hshift : j ≤ f64Shift q
  · obtain ⟨k, hk⟩ := exists_multiple_of_le_shift hshift
    rw [hk, abs_mul_two_pow_sub, mul_le_mul_iff_left₀ hj, mul_left_inj' hj.ne']
    refine ⟨isRounded_nearest hround k, fun heq hne => ?_⟩
    obtain rfl | htie := isRounded_tie_of_as_near hround heq
    · exact absurd (eq_of_f64Units_eq hq hsign (hk.trans hunits.symm)) hne
    · have heven : m % 2 = 0 := hround.2 htie
      rw [← BitVec.testBit_toNat, hnat, Nat.testBit_zero, decide_eq_false_iff_not]
      omega
  · have hsmall : f64Units q < 2 ^ 52 * 2 ^ j := lt_of_shift_lt (f64Significand_lt q) (le_refl _) (by omega)
    have hge : 2 ^ 52 * 2 ^ j ≤ y := hlow.resolve_left (by omega)
    have hbound : |(m : ℚ) - y / 2 ^ j| * 2 ^ j ≤ y - 2 ^ 52 * 2 ^ j := by
      calc |(m : ℚ) - y / 2 ^ j| * 2 ^ j ≤ |((2 ^ 52 : ℕ) : ℚ) - y / 2 ^ j| * 2 ^ j :=
            mul_le_mul_of_nonneg_right (isRounded_nearest hround _) hj.le
        _ = |((2 ^ 52 * 2 ^ j : ℕ) : ℚ) - y| := (abs_mul_two_pow_sub _ _ _).symm
        _ = y - 2 ^ 52 * 2 ^ j := by
          rw [abs_sub_comm, Nat.cast_mul, Nat.cast_pow, Nat.cast_pow, Nat.cast_ofNat, abs_of_nonneg (sub_nonneg.2 hge)]
    have hfar : y - 2 ^ 52 * 2 ^ j < |(f64Units q : ℚ) - y| := by
      have hsmall' : (f64Units q : ℚ) < 2 ^ 52 * 2 ^ j := by exact_mod_cast hsmall
      rw [abs_sub_comm]
      exact lt_of_lt_of_le (by linarith) (le_abs_self _)
    exact ⟨(hbound.trans_lt hfar).le, fun heq => absurd heq (hbound.trans_lt hfar).ne⟩

/-! ### The place of a fraction -/

/-- A quotient lies within a factor 2 of the power of two that the lengths of its parts give. -/
theorem div_between {num den : Nat} (hnum : num ≠ 0) (hden : den ≠ 0) :
    (2 : ℚ) ^ ((num.log2 : ℤ) - den.log2 - 1) ≤ (num : ℚ) / den ∧
      (num : ℚ) / den < 2 ^ ((num.log2 : ℤ) - den.log2 + 1) := by
  have hden' : (0 : ℚ) < den := by exact_mod_cast Nat.pos_of_ne_zero hden
  have lower : ∀ n : Nat, n ≠ 0 → (2 : ℚ) ^ (n.log2 : ℤ) ≤ n := fun n hn => by
    rw [zpow_natCast]
    exact_mod_cast Nat.log2_self_le hn
  have upper : ∀ n : Nat, (n : ℚ) < 2 ^ ((n.log2 : ℤ) + 1) := fun n => by
    have h : n < 2 ^ (n.log2 + 1) := Nat.lt_log2_self
    exact_mod_cast h
  constructor
  · rw [le_div_iff₀ hden']
    calc (2 : ℚ) ^ ((num.log2 : ℤ) - den.log2 - 1) * den
        ≤ 2 ^ ((num.log2 : ℤ) - den.log2 - 1) * 2 ^ ((den.log2 : ℤ) + 1) :=
          mul_le_mul_of_nonneg_left (upper den).le (by positivity)
      _ = 2 ^ (num.log2 : ℤ) := by
          rw [← zpow_add₀ two_ne_zero]
          congr 1
          ring
      _ ≤ num := lower num hnum
  · rw [div_lt_iff₀ hden']
    calc (num : ℚ) < 2 ^ ((num.log2 : ℤ) + 1) := upper num
      _ = 2 ^ ((num.log2 : ℤ) - den.log2 + 1) * 2 ^ (den.log2 : ℤ) := by
          rw [← zpow_add₀ two_ne_zero]
          congr 1
          ring
      _ ≤ 2 ^ ((num.log2 : ℤ) - den.log2 + 1) * den := mul_le_mul_of_nonneg_left (lower den hden) (by positivity)

/-- The model's comparison of a fraction with a power of two, without fractions. -/
def belowTwoPow (num den : Nat) (k : ℤ) : Bool :=
  if 0 ≤ k then num < den * 2 ^ k.toNat else num * 2 ^ (-k).toNat < den

theorem f64Exponent_eq (num den : Nat) : f64Exponent num den =
    max ((if belowTwoPow num den (num.log2 - den.log2) then (num.log2 : ℤ) - den.log2 - 1
      else (num.log2 : ℤ) - den.log2) - 52) (-1074) := rfl

theorem belowTwoPow_iff {num den : Nat} (hden : den ≠ 0) (k : ℤ) :
    belowTwoPow num den k = true ↔ (num : ℚ) / den < 2 ^ k := by
  have hden' : (0 : ℚ) < den := by exact_mod_cast Nat.pos_of_ne_zero hden
  rw [div_lt_iff₀ hden', belowTwoPow]
  split
  · next hk =>
    obtain ⟨n, rfl⟩ := Int.eq_ofNat_of_zero_le hk
    rw [decide_eq_true_iff, Int.toNat_natCast, zpow_natCast, mul_comm]
    exact_mod_cast Iff.rfl
  · next hk =>
    obtain ⟨n, rfl⟩ : ∃ n : Nat, k = -n := ⟨(-k).toNat, by omega⟩
    rw [decide_eq_true_iff, neg_neg, Int.toNat_natCast, zpow_neg, zpow_natCast, ← div_eq_inv_mul,
      lt_div_iff₀ (by positivity)]
    exact_mod_cast Iff.rfl

/-- The place of a fraction: its leading bit is bit 52 above that place, or the place is the least. -/
theorem f64Exponent_spec {num den : Nat} (hnum : num ≠ 0) (hden : den ≠ 0) :
    -1074 ≤ f64Exponent num den ∧ (num : ℚ) / den < 2 ^ (f64Exponent num den + 53) ∧
      (f64Exponent num den = -1074 ∨ 2 ^ (f64Exponent num den + 52) ≤ (num : ℚ) / den) := by
  obtain ⟨hlow, hhigh⟩ := div_between hnum hden
  have hbelow := belowTwoPow_iff (num := num) hden (num.log2 - den.log2)
  rw [f64Exponent_eq]
  generalize (num.log2 : ℤ) - den.log2 = k at *
  obtain ⟨f, hf, hlow', hhigh'⟩ : ∃ f : ℤ, (if belowTwoPow num den k then k - 1 else k) = f ∧
      (2 : ℚ) ^ f ≤ (num : ℚ) / den ∧ (num : ℚ) / den < 2 ^ (f + 1) := by
    by_cases hk : (num : ℚ) / den < 2 ^ k
    · exact ⟨k - 1, if_pos (hbelow.2 hk), hlow, by rwa [Int.sub_add_cancel]⟩
    · exact ⟨k, if_neg (mt hbelow.1 hk), not_lt.1 hk, hhigh⟩
  rw [hf]
  refine ⟨le_max_right _ _, hhigh'.trans_le (zpow_le_zpow_right₀ one_le_two (by omega)), ?_⟩
  by_cases hmin : f - 52 ≤ -1074
  · exact .inl (max_eq_right hmin)
  · rw [max_eq_left (by omega), Int.sub_add_cancel]
    exact .inr hlow'

/-! ### The pattern of a fraction -/

/-- The significand of `f64(num / den)` for the place of the fraction, as the model computes it. -/
def f64Rounded (num den : Nat) : Nat :=
  if 0 ≤ f64Exponent num den then roundEven num (den * 2 ^ (f64Exponent num den).toNat)
  else roundEven (num * 2 ^ (-f64Exponent num den).toNat) den

theorem f64_of_ne_zero {num den : Nat} (hnum : num ≠ 0) : f64 num den =
    BitVec.ofNat 64 (min f64Infinity ((f64Exponent num den + 1074).toNat * 2 ^ 52 + f64Rounded num den)) := by
  rw [f64, if_neg hnum]
  rfl

theorem f64Rounded_isRounded (num : Nat) {den : Nat} (hden : den ≠ 0) :
    IsRounded .halfEven ((num : ℚ) / den / 2 ^ f64Exponent num den) (f64Rounded num den) := by
  unfold f64Rounded
  generalize f64Exponent num den = e
  split
  · next he =>
    obtain ⟨n, rfl⟩ := Int.eq_ofNat_of_zero_le he
    have h := roundEven_isRounded num (Nat.mul_pos (Nat.pos_of_ne_zero hden) (Nat.two_pow_pos n))
    rw [Nat.cast_mul, Nat.cast_pow, Nat.cast_ofNat, ← div_div, ← zpow_natCast] at h
    exact h
  · next he =>
    obtain ⟨n, rfl⟩ : ∃ n : Nat, e = -n := ⟨(-e).toNat, by omega⟩
    have h := roundEven_isRounded (num * 2 ^ n) (Nat.pos_of_ne_zero hden)
    rw [Nat.cast_mul, Nat.cast_pow, Nat.cast_ofNat, ← zpow_natCast, mul_div_right_comm] at h
    rw [neg_neg, Int.toNat_natCast, zpow_neg, div_inv_eq_mul]
    exact h

/-- The place of a fraction below `2^1023`, counted in units of the least value. -/
theorem exists_place {num den : Nat} (hnum : num ≠ 0) (hden : den ≠ 0) {y : ℚ} (hy : (num : ℚ) / den = y * ulpMin)
    (hsmall : (num : ℚ) / den < 2 ^ 1023) :
    ∃ j : Nat, f64Exponent num den = (j : ℤ) - 1074 ∧ j ≤ 2044 ∧ y < 2 ^ 53 * 2 ^ j ∧
      (j = 0 ∨ 2 ^ 52 * 2 ^ j ≤ y) := by
  obtain ⟨hmin, hhigh, hlow⟩ := f64Exponent_spec hnum hden
  generalize f64Exponent num den = e at *
  obtain ⟨j, rfl⟩ : ∃ j : Nat, e = (j : ℤ) - 1074 := ⟨(e + 1074).toNat, by omega⟩
  have hscale : ∀ k : Nat, (2 : ℚ) ^ ((j : ℤ) - 1074 + k) = 2 ^ k * 2 ^ j * ulpMin := fun k => by
    rw [zpow_add₀ two_ne_zero, ← two_pow_mul_ulpMin, zpow_natCast, mul_comm, mul_assoc]
  refine ⟨j, rfl, ?_, ?_, hlow.imp (fun h => by omega) fun h => ?_⟩
  · obtain h | h := hlow
    · omega
    · have hexp := (zpow_lt_zpow_iff_right₀ (one_lt_two (α := ℚ))).1
        (h.trans_lt (hsmall.trans_eq (zpow_natCast (2 : ℚ) 1023).symm))
      omega
  · rw [hy, show (53 : ℤ) = (53 : ℕ) from rfl, hscale 53] at hhigh
    exact lt_of_mul_lt_mul_right hhigh ulpMin_pos.le
  · rw [hy, show (52 : ℤ) = (52 : ℕ) from rfl, hscale 52] at h
    exact le_of_mul_le_mul_right h ulpMin_pos

/-- The least pattern is 0, to which 0 is rounded. -/
theorem zero_isRounded : IsRounded .halfEven (0 / 2 ^ 0) 0 := by
  norm_num [IsRounded]

/-- What `f64` gives for a fraction below `2^1023`: the significand rounded at the place of the fraction, counted in
units of the least value. -/
theorem f64_spec {num den : Nat} (hden : den ≠ 0) {y : ℚ} (hy : (num : ℚ) / den = y * ulpMin)
    (hsmall : (num : ℚ) / den < 2 ^ 1023) :
    ∃ j m, IsRounded .halfEven (y / 2 ^ j) m ∧ (j = 0 ∨ 2 ^ 52 * 2 ^ j ≤ y) ∧
      IsNearestEven (y * ulpMin) (f64 num den) ∧ f64Real (f64 num den) = ((m * 2 ^ j : ℕ) : ℚ) * ulpMin := by
  by_cases hnum : num = 0
  · subst hnum
    obtain rfl : y = 0 := by
      rw [Nat.cast_zero, zero_div] at hy
      exact (mul_eq_zero.1 hy.symm).resolve_right ulpMin_pos.ne'
    have hzero : f64 0 den = BitVec.ofNat 64 (0 * 2 ^ 52 + 0) := (if_pos rfl).trans (by decide)
    rw [hzero]
    exact ⟨0, 0, zero_isRounded, .inl rfl,
      isNearestEven_of_rounded zero_isRounded (.inl rfl) (by decide) (by decide)⟩
  · obtain ⟨j, he, hj, hhigh, hlow⟩ := exists_place hnum hden hy hsmall
    have hround := f64Rounded_isRounded num hden
    rw [f64_of_ne_zero hnum, he, Int.sub_add_cancel, Int.toNat_natCast]
    rw [he, hy, ← two_pow_mul_ulpMin, mul_div_mul_right _ _ ulpMin_pos.ne'] at hround
    generalize f64Rounded num den = m at *
    have hm : m ≤ 2 ^ 53 := isRounded_le_of_le hround (by
      rw [div_le_iff₀ (by positivity)]
      exact_mod_cast hhigh.le)
    have hfinite : j * 2 ^ 52 + m ≤ f64Infinity := by
      unfold f64Infinity
      omega
    rw [min_eq_right hfinite]
    exact ⟨j, m, hround, hlow, isNearestEven_of_rounded hround hlow hm (by omega)⟩

/-- `f64` of a fraction below `2^1023` is the nearest pattern, ties to even. -/
theorem f64_isNearestEven {num den : Nat} (hden : den ≠ 0) (hsmall : (num : ℚ) / den < 2 ^ 1023) :
    IsNearestEven ((num : ℚ) / den) (f64 num den) := by
  have hy : (num : ℚ) / den = (num / den / ulpMin) * ulpMin := (div_mul_cancel₀ _ ulpMin_pos.ne').symm
  obtain ⟨j, m, -, -, hnearest, -⟩ := f64_spec hden hy hsmall
  rwa [← hy] at hnearest

/-- A fraction that is a whole number of at most 53 bits shifted to a place of the format is its own pattern. -/
theorem f64_exact {num den k j : Nat} (hden : den ≠ 0) (hsmall : (num : ℚ) / den < 2 ^ 1023) (hk : k < 2 ^ 53)
    (hvalue : (num : ℚ) / den = ((k * 2 ^ j : ℕ) : ℚ) * ulpMin) : f64Real (f64 num den) = (num : ℚ) / den := by
  obtain ⟨i, m, hround, hlow, -, hreal⟩ := f64_spec hden hvalue hsmall
  have hi : i ≤ j := by
    obtain rfl | hlow := hlow
    · exact Nat.zero_le j
    · by_contra hlt
      have hle : 2 ^ 52 * 2 ^ i ≤ k * 2 ^ j := by exact_mod_cast hlow
      exact absurd hle (Nat.not_le.2 (lt_of_shift_lt hk (le_refl _) (by omega)))
  obtain ⟨d, rfl⟩ := Nat.exists_eq_add_of_le hi
  have hwhole : ((k * 2 ^ (i + d) : ℕ) : ℚ) / 2 ^ i = ((k * 2 ^ d : ℕ) : ℚ) := by
    rw [Nat.pow_add, div_eq_iff (by positivity)]
    push_cast
    ring
  rw [hwhole] at hround
  rw [hreal, hvalue, isRounded_eq_of_natCast hround, Nat.pow_add]
  congr 2
  ring

end Sys2Proof.Binary64
end

section
/-! The operations of the decimal commands (spec 00_scope R13, 43_reader_decimal R152, 47_writer_decimal R201, R202;
log 7): each is the exact operation on the values, rounded once; powers of ten and fractions of patterns are exact. -/

namespace Sys2Proof.Binary64

open Sys2Proof Sys2Proof.Machine

/-! ### The operations -/

theorem fromint_isNearestEven {n : Nat} (h : (n : ℚ) < 2 ^ 1023) : IsNearestEven n (fromint n) := by
  have hn : (n : ℚ) / (1 : ℕ) = n := by rw [Nat.cast_one, div_one]
  rw [← hn] at h ⊢
  exact f64_isNearestEven one_ne_zero h

section Operations

variable {p q : Word}

theorem fmul_isNearestEven (h : |f64Real p| * |f64Real q| < 2 ^ 1023) :
    IsNearestEven (|f64Real p| * |f64Real q|) (fmul p q) := by
  have hfrac : |f64Real p| * |f64Real q| =
      (((f64Magnitude p).1 * (f64Magnitude q).1 : ℕ) : ℚ) / ((f64Magnitude p).2 * (f64Magnitude q).2 : ℕ) := by
    rw [← f64Magnitude_eq, ← f64Magnitude_eq, div_mul_div_comm, Nat.cast_mul, Nat.cast_mul]
  rw [hfrac] at h ⊢
  exact f64_isNearestEven (Nat.mul_pos (f64Magnitude_den_pos p) (f64Magnitude_den_pos q)).ne' h

theorem fdiv_isNearestEven (hq : f64Real q ≠ 0) (h : |f64Real p| / |f64Real q| < 2 ^ 1023) :
    IsNearestEven (|f64Real p| / |f64Real q|) (fdiv p q) := by
  have hfrac : |f64Real p| / |f64Real q| =
      (((f64Magnitude p).1 * (f64Magnitude q).2 : ℕ) : ℚ) / ((f64Magnitude p).2 * (f64Magnitude q).1 : ℕ) := by
    rw [← f64Magnitude_eq, ← f64Magnitude_eq, div_div_div_eq, Nat.cast_mul, Nat.cast_mul]
  have hnum : (f64Magnitude q).1 ≠ 0 := fun h0 => by
    have hzero := f64Magnitude_eq q
    rw [h0, Nat.cast_zero, zero_div, eq_comm, abs_eq_zero] at hzero
    exact hq hzero
  rw [hfrac] at h ⊢
  exact f64_isNearestEven (Nat.mul_ne_zero (f64Magnitude_den_pos p).ne' hnum) h

theorem fadd_isNearestEven (h : |f64Real p| + |f64Real q| < 2 ^ 1023) :
    IsNearestEven (|f64Real p| + |f64Real q|) (fadd p q) := by
  have hp : ((f64Magnitude p).2 : ℚ) ≠ 0 := by exact_mod_cast (f64Magnitude_den_pos p).ne'
  have hq : ((f64Magnitude q).2 : ℚ) ≠ 0 := by exact_mod_cast (f64Magnitude_den_pos q).ne'
  have hfrac : |f64Real p| + |f64Real q| =
      (((f64Magnitude p).1 * (f64Magnitude q).2 + (f64Magnitude q).1 * (f64Magnitude p).2 : ℕ) : ℚ) /
        ((f64Magnitude p).2 * (f64Magnitude q).2 : ℕ) := by
    rw [← f64Magnitude_eq, ← f64Magnitude_eq, div_add_div _ _ hp hq, Nat.cast_add, Nat.cast_mul, Nat.cast_mul,
      Nat.cast_mul, mul_comm ((f64Magnitude q).1 : ℚ)]
  rw [hfrac] at h ⊢
  exact f64_isNearestEven (Nat.mul_pos (f64Magnitude_den_pos p) (f64Magnitude_den_pos q)).ne' h

end Operations

/-- Settles O20: each operation is `f64` of the exact fraction. -/
theorem binaryOperationsRoundToNearestEven : Obligations.BinaryOperationsRoundToNearestEven := by
  refine ⟨fun num den hden hsmall => f64_isNearestEven hden.ne' ?_, fun n hn => fromint_isNearestEven ?_,
    fun p q _ _ hp hq => ?_⟩
  · rw [div_lt_iff₀ (by exact_mod_cast hden), mul_comm]
    exact_mod_cast hsmall
  · exact_mod_cast hn
  · rw [← abs_of_nonneg (f64Real_nonneg hp), ← abs_of_nonneg (f64Real_nonneg hq)]
    exact ⟨fmul_isNearestEven, fun h0 => fdiv_isNearestEven (abs_ne_zero.1 h0), fadd_isNearestEven⟩

/-! ### What a nearest pattern is at most -/

section Nearest

variable {x : ℚ} {p : Word} (h : IsNearestEven x p)
include h

/-- A value that a pattern has is an upper bound for the nearest pattern of anything below it. -/
theorem isNearestEven_le {q : Word} (hfinite : F64Finite q) (hsign : q.getLsbD 63 = false) (hx : x ≤ f64Real q) :
    f64Real p ≤ f64Real q := by
  obtain ⟨hnear, -⟩ := h.2.2 q hfinite hsign
  rw [abs_of_nonneg (sub_nonneg.2 hx)] at hnear
  linarith [le_abs_self (f64Real p - x)]

/-- A nearest pattern is at most twice the value: 0 is a pattern. -/
theorem isNearestEven_le_two_mul (hx : 0 ≤ x) : f64Real p ≤ 2 * x := by
  have hzero : f64Real 0 = 0 := by
    rw [f64Real_of_sign_false (by decide), show f64Units 0 = 0 by decide, Nat.cast_zero, zero_mul]
  obtain ⟨hnear, -⟩ := h.2.2 0 (by decide) (by decide)
  rw [hzero, zero_sub, abs_neg, abs_of_nonneg hx] at hnear
  linarith [le_abs_self (f64Real p - x)]

end Nearest

theorem lt_two_pow_1023 {x : ℚ} {k : Nat} (hk : k ≤ 1023) (h : x < 2 ^ k) : x < 2 ^ 1023 :=
  h.trans_le (pow_le_pow_right₀ one_le_two hk)

/-! ### Powers of ten -/

theorem ten_pow_lt {d : Nat} (hd : d ≤ 18) : (10 : ℚ) ^ d < 2 ^ 60 :=
  (pow_le_pow_right₀ (by norm_num) hd).trans_lt (by norm_num)

/-- The powers of ten that the decimal commands meet have patterns of their own. -/
theorem fromint_ten_pow {d : Nat} (hd : d ≤ 18) :
    F64Finite (fromint (10 ^ d)) ∧ (fromint (10 ^ d)).getLsbD 63 = false ∧ f64Real (fromint (10 ^ d)) = 10 ^ d := by
  have hcast : ((10 ^ d : ℕ) : ℚ) = 10 ^ d := by push_cast; rfl
  have hsmall : ((10 ^ d : ℕ) : ℚ) < 2 ^ 1023 := lt_two_pow_1023 (by decide) (hcast ▸ ten_pow_lt hd)
  obtain ⟨hfinite, hsign, -⟩ := fromint_isNearestEven hsmall
  refine ⟨hfinite, hsign, ?_⟩
  have hdiv : ((10 ^ d : ℕ) : ℚ) / (1 : ℕ) = 10 ^ d := by rw [Nat.cast_one, div_one, hcast]
  have hfive : 5 ^ d < 2 ^ 53 := (Nat.pow_le_pow_right (by decide) hd).trans_lt (by decide)
  rw [fromint, f64_exact (k := 5 ^ d) (j := d + 1074) one_ne_zero (by rwa [Nat.cast_one, div_one]) hfive ?_, hdiv]
  have hexp : ((d + 1074 : ℕ) : ℤ) - 1074 = d := by omega
  rw [hdiv, Nat.cast_mul, Nat.cast_pow, Nat.cast_pow, Nat.cast_ofNat, Nat.cast_ofNat, mul_assoc, two_pow_mul_ulpMin,
    hexp, zpow_natCast, ← mul_pow]
  norm_num

/-! ### DecCombine -/

/-- Settles O21: the operations of the formula stay far below `2^1023`, so each rounds to the nearest pattern. -/
theorem decCombineFollowsItsFormula : Obligations.DecCombineFollowsItsFormula := by
  intro sg ip sd d hip hsd hd
  have hip' : (ip : ℚ) < 2 ^ 63 := by exact_mod_cast hip
  have hsd' : (sd : ℚ) < 2 ^ 60 := by exact_mod_cast hsd
  obtain ⟨hvfin, hvsign, hv⟩ := fromint_ten_pow hd
  have ht1 := fromint_isNearestEven (lt_two_pow_1023 (by decide) hip')
  have hu := fromint_isNearestEven (lt_two_pow_1023 (by decide) hsd')
  have ht1le := isNearestEven_le_two_mul ht1 (Nat.cast_nonneg ip)
  have hule := isNearestEven_le_two_mul hu (Nat.cast_nonneg sd)
  have ht1nonneg := f64Real_nonneg ht1.2.1
  have hunonneg := f64Real_nonneg hu.2.1
  have hv1 : 1 ≤ f64Real (fromint (10 ^ d)) := by
    rw [hv]
    exact one_le_pow₀ (by norm_num)
  have hquot : f64Real (fromint sd) / f64Real (fromint (10 ^ d)) ≤ 2 ^ 61 := by
    refine (div_le_self hunonneg hv1).trans (hule.trans ?_)
    linarith
  have ht2 : IsNearestEven (f64Real (fromint sd) / f64Real (fromint (10 ^ d)))
      (fdiv (fromint sd) (fromint (10 ^ d))) := by
    have h := fdiv_isNearestEven (p := fromint sd) (q := fromint (10 ^ d)) (by linarith)
    rw [abs_of_nonneg hunonneg, abs_of_nonneg (by linarith)] at h
    exact h (lt_two_pow_1023 (k := 62) (by decide) (hquot.trans_lt (by norm_num)))
  have ht2le := isNearestEven_le_two_mul ht2 (div_nonneg hunonneg (by linarith))
  have ht2nonneg := f64Real_nonneg ht2.2.1
  have ht3 := fadd_isNearestEven (p := fromint ip) (q := fdiv (fromint sd) (fromint (10 ^ d)))
  rw [abs_of_nonneg ht1nonneg, abs_of_nonneg ht2nonneg] at ht3
  refine ⟨_, _, _, _, _, ht1, hu, hvfin, hvsign, hv, ht2,
    ht3 (lt_two_pow_1023 (k := 65) (by decide) (by linarith)), fun i hi => getLsbD_setBit _ _ _ _ hi⟩

/-! ### DecSplit -/

/-- The fraction of a magnitude: it is a whole number, or a significand over a power of two of the format. -/
theorem f64Magnitude_cases (p : Word) : (f64Magnitude p).2 = 1 ∨
    ((f64Magnitude p).1 < 2 ^ 53 ∧ ∃ t, t ≤ 1074 ∧ (f64Magnitude p).2 = 2 ^ t) := by
  have hsig : (if f64ExpField p = 0 then f64ManField p else 2 ^ 52 + f64ManField p) < 2 ^ 53 := f64Significand_lt p
  unfold f64Magnitude
  simp only []
  split
  · exact .inl rfl
  · exact .inr ⟨hsig, _, by omega, rfl⟩

theorem floor_abs_f64Real (p : Word) : ⌊|f64Real p|⌋ = ((f64Magnitude p).1 / (f64Magnitude p).2 : ℕ) := by
  rw [← f64Magnitude_eq, Rat.floor_natCast_div_natCast, Int.natCast_div]

/-- What the magnitude has above its floor. -/
theorem fract_abs_f64Real (p : Word) : |f64Real p| - ⌊|f64Real p|⌋ =
    ((f64Magnitude p).1 % (f64Magnitude p).2 : ℕ) / ((f64Magnitude p).2 : ℚ) := by
  rw [floor_abs_f64Real, ← f64Magnitude_eq, div_eq_floor_add (f64Magnitude_den_pos p), Int.cast_natCast,
    add_sub_cancel_left]

/-- The fraction of a pattern is a pattern: no bit of its significand is lost. -/
theorem f64Real_fract (p : Word) : f64Real (f64 ((f64Magnitude p).1 % (f64Magnitude p).2) (f64Magnitude p).2) =
    |f64Real p| - ⌊|f64Real p|⌋ := by
  have hden := f64Magnitude_den_pos p
  have hsmall : (((f64Magnitude p).1 % (f64Magnitude p).2 : ℕ) : ℚ) / (f64Magnitude p).2 < 2 ^ 1023 := by
    rw [← fract_abs_f64Real]
    refine lt_two_pow_1023 (k := 0) (by decide) ?_
    rw [pow_zero]
    linarith [Int.lt_floor_add_one |f64Real p|]
  rw [fract_abs_f64Real]
  obtain hone | ⟨hnum, t, ht, hpow⟩ := f64Magnitude_cases p
  · refine f64_exact (k := 0) (j := 0) hden.ne' hsmall (by decide) ?_
    rw [hone, Nat.mod_one, Nat.cast_zero, zero_div, Nat.zero_mul, Nat.cast_zero, zero_mul]
  · refine f64_exact (k := (f64Magnitude p).1 % (f64Magnitude p).2) (j := 1074 - t) hden.ne' hsmall
      ((Nat.mod_le _ _).trans_lt hnum) ?_
    have hexp : ((1074 - t : ℕ) : ℤ) - 1074 = -t := by omega
    rw [Nat.cast_mul, Nat.cast_pow (2 : ℕ) (1074 - t), Nat.cast_ofNat, mul_assoc, two_pow_mul_ulpMin, hexp, zpow_neg,
      zpow_natCast, ← div_eq_mul_inv, hpow, Nat.cast_pow, Nat.cast_ofNat]

/-- The product that `DecSplit` rounds (47 R201). -/
def scaledProduct (p : Word) (d : Nat) : Word :=
  fmul (f64 ((f64Magnitude p).1 % (f64Magnitude p).2) (f64Magnitude p).2) (fromint (10 ^ d))

theorem scaledProduct_isNearestEven (p : Word) {d : Nat} (hd : d ≤ 18) :
    IsNearestEven ((|f64Real p| - ⌊|f64Real p|⌋) * 10 ^ d) (scaledProduct p d) := by
  obtain ⟨-, -, hten⟩ := fromint_ten_pow hd
  have hfloor := Int.floor_le |f64Real p|
  have hlt := Int.lt_floor_add_one |f64Real p|
  have h := fmul_isNearestEven (p := f64 ((f64Magnitude p).1 % (f64Magnitude p).2) (f64Magnitude p).2)
    (q := fromint (10 ^ d))
  have hpos : (0 : ℚ) < 10 ^ d := by positivity
  rw [f64Real_fract, hten, abs_of_nonneg (sub_nonneg.2 hfloor), abs_of_pos hpos] at h
  refine h (lt_two_pow_1023 (k := 60) (by decide) ?_)
  refine (mul_le_of_le_one_left hpos.le ?_).trans_lt (ten_pow_lt hd)
  linarith

/-- The scaled decimal part is that product rounded under the tie rule. -/
theorem decSplit_sd_isRounded (ties : Config.RoundTies) (p : Word) {d : Nat} (hd : d ≤ 18) :
    IsRounded ties (f64Real (scaledProduct p d)) (decSplit ties p d).sd := by
  obtain ⟨-, hsign, -⟩ := scaledProduct_isNearestEven p hd
  rw [← abs_of_nonneg (f64Real_nonneg hsign), ← f64Magnitude_eq]
  exact roundTie_isRounded ties _ (f64Magnitude_den_pos _)

/-- The sign part: a pattern is negative when its sign is set and it is not zero (47 R201). -/
theorem decSplit_sg_iff (ties : Config.RoundTies) (p : Word) (d : Nat) :
    (decSplit ties p d).sg = true ↔ f64Real p < 0 := by
  have hden : ((f64Magnitude p).2 : ℚ) ≠ 0 := by exact_mod_cast (f64Magnitude_den_pos p).ne'
  have hnum : (f64Magnitude p).1 ≠ 0 ↔ f64Real p ≠ 0 := by
    rw [← abs_ne_zero, ← f64Magnitude_eq, div_ne_zero_iff, Nat.cast_ne_zero]
    exact ⟨fun h => ⟨h, hden⟩, And.left⟩
  rw [show (decSplit ties p d).sg = (p.getLsbD 63 && (f64Magnitude p).1 != 0) from rfl, Bool.and_eq_true, bne_iff_ne,
    hnum]
  cases hsign : p.getLsbD 63 with
  | false => simp [not_lt.2 (f64Real_nonneg hsign)]
  | true =>
    have hneg : f64Real p = -|f64Real p| := by rw [abs_f64Real, f64Real_eq, if_pos hsign, neg_one_mul]
    have hle : f64Real p ≤ 0 := by
      rw [hneg]
      exact neg_nonpos.2 (abs_nonneg _)
    simp [lt_iff_le_and_ne, hle]

/-- Settles O22: sign, floor, and the rounded product of the exact fraction with the power of ten. -/
theorem decSplitFollowsItsFormula : Obligations.DecSplitFollowsItsFormula :=
  fun ties p d _ hd => ⟨decSplit_sg_iff ties p d, (floor_abs_f64Real p).symm, scaledProduct p d,
    scaledProduct_isNearestEven p hd, decSplit_sd_isRounded ties p hd⟩

/-- A power of ten is no power of two but 1, so it is below the power of two that holds it. -/
theorem ten_pow_lt_two_pow_bitsNeeded (d : Nat) : 10 ^ d < 2 ^ bitsNeeded (10 ^ d) := by
  obtain ⟨hpos, hle, -⟩ := bitsNeeded_spec (10 ^ d)
  refine lt_of_le_of_ne (by exact_mod_cast hle) fun heq => ?_
  cases d with
  | zero =>
    rw [pow_zero] at heq
    exact absurd heq (Nat.one_lt_two_pow (by omega)).ne
  | succ d =>
    have hdvd : 5 ∣ 2 ^ bitsNeeded (10 ^ (d + 1)) := heq ▸ dvd_pow (by decide : 5 ∣ 10) (Nat.succ_ne_zero d)
    exact absurd (Nat.prime_five.dvd_of_dvd_pow hdvd) (by decide)

/-- Settles O23: the exact product is at most `10^d`, which is a pattern, so the rounded product is, and so is its
rounding. -/
theorem scaledDecimalPartFitsItsField : Obligations.ScaledDecimalPartFitsItsField := by
  intro ties p d _ hd
  refine ⟨isRounded_le_of_le (decSplit_sd_isRounded ties p hd) ?_, ten_pow_lt_two_pow_bitsNeeded d⟩
  obtain ⟨hfinite, hsign, hten⟩ := fromint_ten_pow hd
  have hlt := Int.lt_floor_add_one |f64Real p|
  have hle := isNearestEven_le (scaledProduct_isNearestEven p hd) hfinite hsign (by
    rw [hten]
    exact mul_le_of_le_one_left (by positivity) (by linarith))
  rw [hten] at hle
  exact_mod_cast hle

end Sys2Proof.Binary64
end

section
/-! A writing command and its mirror (spec 44 R172, 45 R182, 46 R193, 47 R204): from the bits that the command puts on
the wire the mirror command reads back what the round-trip laws say, and moves its cursor and counter as the writer
did. -/

namespace Sys2Proof.RoundTrip

open Sys2Proof Sys2Proof.Machine Sys2Proof.Encoding Sys2Proof.Reader Sys2Proof.Writer Sys2Proof.Units

/-- A reader that finds the bits `bit` from its cursor on and is given the mirror of `i` reads `n` bits, counts `c` of
them and responds what is read back of the value written. A decimal is read with the `OPD2` it was written with. -/
def MirrorReads (i : Instr) (ties : Config.RoundTies) (opd opd2 : Word) (n c : Nat) (bit : Nat → Bool) : Prop :=
  ∀ r : State, ((∃ d, i = .wrDec d) → r.opd2 = opd2) → (∀ j, j < n → r.rdu.memRead (r.rdu.rcur + j) = bit j) →
    ∃ res, exec (mirror i) r = .next ({ r with rdu := (r.rdu.advance n).count c }.responded 0 res) ∧
      ReadsBack ties opd opd2 res i

/-- The command `i` presented in `s` succeeds, and its mirror reads back what it writes. -/
def RoundTrips (i : Instr) (s : State) : Prop :=
  ∃ (n c : Nat) (bit : Nat → Bool) (u : Wru) (k : Nat),
    exec i s = .next ({ s with wru := u, freeCount := k }.responded 0 0) ∧ WritesBits n c bit s.wru u ∧
      MirrorReads i s.roundTies s.opd s.opd2 n c bit

/-! ### Bits and integers -/

theorem roundTrips_bitWrites {form : Instr × Nat} (hform : form ∈ [(Instr.wrBit, 0), (Instr.wrBool, 1)]) {s : State}
    (hf : s.wru.wfin = false) : RoundTrips form.1 s := by
  obtain ⟨-, -, hwrites⟩ := bitWritesAppendOneBit
  obtain ⟨u, hexec, hwrote⟩ := (hwrites form hform s).1 hf
  refine ⟨1, form.2, _, u, s.freeCount, hexec, hwrote, fun r _ hbits => ?_⟩
  have hbit : r.rdu.memRead r.rdu.rcur = s.opd.getLsbD 0 := hbits 0 Nat.one_pos
  have hres : ∀ i, (bitResult (r.rdu.memRead r.rdu.rcur)).getLsbD i = (decide (i = 0) && s.opd.getLsbD 0) := fun i => by
    rw [hbit, bitResult, ← getLsbD_ofBool_shiftLeft (by decide : 0 < 64), BitVec.shiftLeft_zero]
  simp only [List.mem_cons, List.not_mem_nil, or_false] at hform
  obtain rfl | rfl := hform
  · exact ⟨_, rfl, hres⟩
  · exact ⟨_, rfl, hres⟩

/-- A field of the low bits of `OPD` and its fixed-width read. -/
theorem roundTrips_fixed {i : Instr} {w : Int} {T : Nat} {s : State} (hw : 1 ≤ w ∧ w ≤ T) (hT : T ≤ 64)
    (hwrite : ∃ u : Wru, exec i s = .next ({ s with wru := u }.responded 0 0) ∧
      WritesBits w.toNat w.toNat (fun j => s.opd.getLsbD j) s.wru u)
    (hmirror : ∀ r, exec (mirror i) r = rdFixed w T r)
    (hback : ∀ res : Word, (∀ j, res.getLsbD j = (decide (j < w.toNat) && s.opd.getLsbD j)) →
      ReadsBack s.roundTies s.opd s.opd2 res i) : RoundTrips i s := by
  obtain ⟨u, hexec, hwrote⟩ := hwrite
  refine ⟨_, _, _, u, s.freeCount, hexec, hwrote, fun r _ hbits => ?_⟩
  refine ⟨_, (hmirror r).trans (rdFixed_of_inRange hw r), hback _ fun j => ?_⟩
  rw [getLsbD_ofNat_rdField (by omega)]
  by_cases hj : j < w.toNat
  · rw [hbits j hj]
  · rw [decide_eq_false hj, Bool.false_and, Bool.false_and]

/-- The read that mirrors each of the four fixed-width writes, and what it reads back (44 R172). -/
theorem fixedWrites_mirror : ∀ form ∈ fixedWrites, form.2.2 ≤ 64 ∧
    (∀ w r, exec (mirror (form.2.1 w)) r = rdFixed w form.2.2 r) ∧
    ∀ ties opd opd2 w (res : Word), (∀ j, res.getLsbD j = (decide (j < w.toNat) && opd.getLsbD j)) →
      ReadsBack ties opd opd2 res (form.2.1 w) := by
  simp only [List.forall_mem_cons]
  exact ⟨⟨by decide, fun _ _ => rfl, fun _ _ _ _ _ h => h⟩, ⟨by decide, fun _ _ => rfl, fun _ _ _ _ _ h => h⟩,
    ⟨by decide, fun _ _ => rfl, fun _ _ _ _ _ h => h⟩, ⟨by decide, fun _ _ => rfl, fun _ _ _ _ _ h => h⟩,
    List.forall_mem_nil _⟩

theorem roundTrips_fixedWrite {form : CommandWord × (Int → Instr) × Nat} (hform : form ∈ fixedWrites) {w : Int}
    {s : State} (hf : s.wru.wfin = false) (hw : 1 ≤ w ∧ w ≤ form.2.2) : RoundTrips (form.2.1 w) s := by
  obtain ⟨hT, hmirror, hback⟩ := fixedWrites_mirror form hform
  exact roundTrips_fixed hw hT (((fixedWidthWritesAppendTheField form hform).2 w s).1 ⟨hf, hw⟩) (hmirror w)
    (hback _ _ _ w)

theorem roundTrips_wrPint {w : Int} {s : State} (hf : s.wru.wfin = false) (hw : 1 ≤ w ∧ w ≤ 31)
    (hpos : s.opd.getLsbD 31 = false) : RoundTrips (.wrPint w) s :=
  roundTrips_fixed (T := 31) hw (by decide)
    ((positiveOnlyWriteRefusesNegativeValues.2 w s).1 ⟨hf, hw.1, hw.2, hpos⟩) (fun _ => rfl) fun _ h => h

theorem roundTrips_wrSint {w : Int} (signed : Bool) {s : State} (hf : s.wru.wfin = false) (hw : 1 ≤ w ∧ w ≤ 32) :
    RoundTrips (.wrSint w signed) s := by
  obtain ⟨u, hexec, hcur, hwrote⟩ := (signedWriteAppendsTheSignBitLast.2 w signed s).1 ⟨hf, hw⟩
  refine ⟨w.toNat + signed.toNat, w.toNat, _, u, s.freeCount, hexec, ⟨by omega, hwrote⟩, fun r _ hbits => ?_⟩
  obtain ⟨res, hread, hres⟩ := (signedReadPlacesTheSignBitLast.2 w signed r).1 hw
  refine ⟨res, by rw [Nat.add_assoc] at hread; exact hread, fun i => (hres i).trans ?_⟩
  by_cases hsign : i = 31 ∧ signed = true
  · rw [if_pos hsign, if_pos hsign, hbits w.toNat (by simp [hsign.2]), if_neg (Nat.lt_irrefl _)]
  · rw [if_neg hsign, if_neg hsign]
    by_cases hi : i < w.toNat
    · rw [hbits i (by omega), if_pos hi]
    · rw [decide_eq_false hi, Bool.false_and, Bool.false_and]

/-! ### Floats -/

/-- The bits of a pattern that a float write sends: of the mantissa, of the exponent, and the sign with `s = 1`. -/
abbrev sentMask (mMax top e m : Nat) (signed : Bool) (i : Nat) : Bool :=
  decide (i < m) || decide (mMax ≤ i ∧ i < mMax + e) || (decide (i = top) && signed)

/-- `res` has the bits of `opd` that a float write sends, and 0 where it leaves one out (45 R182). -/
def SentBits (mMax top e m : Nat) (signed : Bool) (opd res : Word) : Prop :=
  ∀ i, res.getLsbD i = (sentMask mMax top e m signed i && opd.getLsbD i)

/-- The three fields on the wire, read by the common body of the float reads. -/
theorem sentBits_of_wire {mMax top e m : Nat} {signed : Bool} {opd res : Word} {wire : Nat → Bool}
    (hwire : ∀ j, j < signed.toNat + e + m → wire j =
      if j < signed.toNat then opd.getLsbD top
      else if j < signed.toNat + e then opd.getLsbD (mMax + (j - signed.toNat))
      else opd.getLsbD (j - signed.toNat - e))
    (hres : ∀ i, res.getLsbD i =
      if i < m then wire (signed.toNat + e + i)
      else if mMax ≤ i ∧ i < mMax + e then wire (signed.toNat + (i - mMax))
      else if i = top then (signed && wire 0) else false) : SentBits mMax top e m signed opd res := by
  intro i
  rw [hres i]
  split
  · next hman =>
    rw [hwire _ (by omega), if_neg (by omega), if_neg (by omega),
      show signed.toNat + e + i - signed.toNat - e = i by omega]
    simp [hman]
  · next hman =>
    split
    · next hexp =>
      rw [hwire _ (by omega), if_neg (by omega), if_pos (by omega),
        show mMax + (signed.toNat + (i - mMax) - signed.toNat) = i by omega]
      simp [hexp]
    · next hexp =>
      split
      · next htop =>
        cases signed with
        | false => simp [hman, hexp]
        | true =>
          rw [hwire 0 (by simp), if_pos (by simp), htop]
          simp
      · next htop => simp [hman, hexp, htop]

/-- A float write and the float read of the same layout. -/
theorem roundTrips_float {i : Instr} {e m : Int} {mMax top : Nat} {signed : Bool} {s : State}
    (hwrite : ∃ u : Wru, exec i s = .next ({ s with wru := u }.responded 0 0) ∧
      u.wcur = s.wru.wcur + signed.toNat + e.toNat + m.toNat ∧ u.wcnt = s.wru.wcnt + e.toNat + m.toNat ∧
      (WruInv s.wru → AppendsBits (signed.toNat + e.toNat + m.toNat)
        (floatWireBit mMax top e.toNat signed s) s.wru u))
    (hread : ∀ r : State, ∃ res : Word,
      exec (mirror i) r = .next ({ r with rdu := { r.rdu with
        rcur := r.rdu.rcur + signed.toNat + e.toNat + m.toNat,
        rcnt := r.rdu.rcnt + e.toNat + m.toNat } }.responded 0 res) ∧
      ∀ j, res.getLsbD j =
        if j < m.toNat then r.rdu.memRead (r.rdu.rcur + signed.toNat + e.toNat + j)
        else if mMax ≤ j ∧ j < mMax + e.toNat then r.rdu.memRead (r.rdu.rcur + signed.toNat + (j - mMax))
        else if j = top then (signed && r.rdu.memRead r.rdu.rcur) else false)
    (hback : ∀ res, SentBits mMax top e.toNat m.toNat signed s.opd res → ReadsBack s.roundTies s.opd s.opd2 res i) :
    RoundTrips i s := by
  obtain ⟨u, hexec, hcur, hcnt, hwrote⟩ := hwrite
  refine ⟨signed.toNat + e.toNat + m.toNat, e.toNat + m.toNat, _, u, s.freeCount, hexec,
    ⟨by omega, by omega, hwrote⟩, fun r _ hbits => ?_⟩
  obtain ⟨res, hexec', hres⟩ := hread r
  simp only [Nat.add_assoc] at hexec' hres
  refine ⟨res, by rw [Nat.add_assoc]; exact hexec', hback res ?_⟩
  refine sentBits_of_wire (wire := fun j => r.rdu.memRead (r.rdu.rcur + j)) hbits fun j => ?_
  rw [hres j]
  simp only [Nat.add_assoc, Nat.add_zero]

theorem roundTrips_wrFloat {e m : Int} (signed : Bool) {s : State} (hf : s.wru.wfin = false)
    (hrange : 1 ≤ e ∧ e ≤ 8 ∧ 1 ≤ m ∧ m ≤ 23) : RoundTrips (.wrFloat e m signed) s :=
  roundTrips_float (mMax := 23) (top := 31)
    (((floatWritesAppendSignExponentMantissa (0x48, Instr.wrFloat, 8, 23, 31) (by simp)).2 e m signed s).1 ⟨hf, hrange⟩)
    (fun r => ((floatReadsPlaceSignExponentMantissa (0x08, Instr.rdFloat, 8, 23, 31) (by simp)).2 e m signed r).1
      hrange)
    fun _ h => h

theorem roundTrips_wrDouble {e m : Int} (signed : Bool) {s : State} (hf : s.wru.wfin = false)
    (hrange : 1 ≤ e ∧ e ≤ 11 ∧ 1 ≤ m ∧ m ≤ 52) : RoundTrips (.wrDouble e m signed) s :=
  roundTrips_float (mMax := 52) (top := 63)
    (((floatWritesAppendSignExponentMantissa (0x49, Instr.wrDouble, 11, 52, 63) (by simp)).2 e m signed s).1
      ⟨hf, hrange⟩)
    (fun r => ((floatReadsPlaceSignExponentMantissa (0x09, Instr.rdDouble, 11, 52, 63) (by simp)).2 e m signed r).1
      hrange)
    fun _ h => h

/-! ### Variable-length integers -/

/-- The continuation bit of group `j` on the wire. -/
theorem varintWireBit_flag (g V n j : Nat) : varintWireBit g V n (j * (g + 1) + g) = decide (j + 1 < n) := by
  have hmod : (j * (g + 1) + g) % (g + 1) = g := by
    rw [Nat.mul_add_mod_of_lt (Nat.lt_succ_self g)]
  have hdiv : (j * (g + 1) + g) / (g + 1) = j := by
    rw [Nat.mul_comm, Nat.mul_add_div (Nat.succ_pos g), Nat.div_eq_of_lt (Nat.lt_succ_self g), Nat.add_zero]
  rw [varintWireBit, hmod, hdiv, if_neg (Nat.lt_irrefl g)]

/-- Bit `p` of the value stands in group `p div g` (46 R190). -/
theorem varintWireBit_payload {g : Nat} (hg : 0 < g) (V n p : Nat) :
    varintWireBit g V n (p / g * (g + 1) + p % g) = V.testBit p := by
  have hlt : p % g < g := Nat.mod_lt _ hg
  have hmod : (p / g * (g + 1) + p % g) % (g + 1) = p % g := by
    rw [Nat.mul_add_mod_of_lt (by omega)]
  have hdiv : (p / g * (g + 1) + p % g) / (g + 1) = p / g := by
    rw [Nat.mul_comm, Nat.mul_add_div (Nat.succ_pos g), Nat.div_eq_of_lt (Nat.lt_succ_of_lt hlt), Nat.add_zero]
  rw [varintWireBit, hmod, hdiv, if_pos hlt, Nat.mul_comm, Nat.div_add_mod]

theorem roundTrips_wrVarint {g : Int} {s : State} (hf : s.wru.wfin = false) (hg : 1 ≤ g ∧ g ≤ 64) :
    RoundTrips (.wrVarint g) s := by
  obtain ⟨n, u, hn, hlast, hexec, hwrites⟩ := (varintWriteAppendsGroupsAndFlags.2 g s).1 ⟨hf, hg⟩
  refine ⟨n * (g.toNat + 1), n * g.toNat, varintWireBit g.toNat s.opd.toNat n, u, s.freeCount, hexec, hwrites,
    fun r _ hbits => ?_⟩
  obtain ⟨n', res, hn', hread, hflags, hres⟩ := (varintReadStopsAtTheFirstZeroFlag.2 g r).1 hg
  have hwire : ∀ {j k}, j < n → k ≤ g.toNat → r.rdu.memRead (r.rdu.rcur + j * (g.toNat + 1) + k) =
      varintWireBit g.toNat s.opd.toNat n (j * (g.toNat + 1) + k) := fun {j k} hj hk => by
    rw [Nat.add_assoc]
    refine hbits _ ?_
    calc j * (g.toNat + 1) + k < (j + 1) * (g.toNat + 1) := by rw [Nat.succ_mul]; omega
      _ ≤ n * (g.toNat + 1) := Nat.mul_le_mul_right _ hj
  obtain rfl : n = n' := groups_unique hn hn'
    (fun j hj => (hwire hj (le_refl _)).trans (varintWireBit_flag g.toNat s.opd.toNat n j)) hflags
  refine ⟨res, hread, BitVec.eq_of_getLsbD_eq fun p hp => ?_⟩
  rw [hres p hp]
  by_cases hin : p < n * g.toNat
  · rw [decide_eq_true hin, Bool.true_and, hwire ((Nat.div_lt_iff_lt_mul (by omega)).2 hin)
      (Nat.mod_lt _ (by omega : 0 < g.toNat)).le, varintWireBit_payload (by omega), BitVec.testBit_toNat]
  · have hsize := (show GroupCount g.toNat s.opd.toNat n from ⟨hn, hlast⟩).size_le.1
    rw [decide_eq_false hin, Bool.false_and, ← BitVec.testBit_toNat]
    exact (Nat.testBit_lt_two_pow (Nat.size_le.1 (hsize.trans (Nat.le_of_not_lt hin)))).symm

/-! ### Decimals -/

theorem roundTrips_wrDec {d : Int} {s : State} (hf : s.wru.wfin = false)
    (hrange : 0 < s.opd2.toInt ∧ 0 ≤ d ∧ d ≤ 18) : RoundTrips (.wrDec d) s := by
  obtain ⟨parts, u, k, hexec, hcur, hcnt, hwrote, hfinite, -⟩ := (decimalWriteAppendsItsParts.2 d s).1 ⟨hf, hrange⟩
  refine ⟨1 + bitsNeeded s.opd2.toInt + bitsNeeded (10 ^ d.toNat),
    bitsNeeded s.opd2.toInt + bitsNeeded (10 ^ d.toNat), _, u, k, hexec, ⟨by omega, by omega, hwrote⟩,
    fun r hopd2 hbits => ?_⟩
  have hsame : r.opd2 = s.opd2 := hopd2 ⟨d, rfl⟩
  obtain ⟨ip, sd, hread, hip, hsd⟩ := (decimalReadCombinesItsParts.2 d r).1 (hsame ▸ hrange)
  rw [hsame] at hread hip hsd
  refine ⟨_, hread.trans (by simp only [Nat.add_assoc]; rfl), fun hfin => ?_⟩
  obtain ⟨hparts, -⟩ := hfinite hfin
  have hsg : r.rdu.memRead r.rdu.rcur = parts.sg := hbits 0 (by omega)
  have hipeq : ip = parts.ip % 2 ^ bitsNeeded s.opd2.toInt := Nat.eq_of_testBit_eq fun i => by
    rw [hip, Nat.testBit_mod_two_pow]
    by_cases hi : i < bitsNeeded s.opd2.toInt
    · rw [Nat.add_assoc, hbits (1 + i) (by omega), if_neg (by omega), if_pos (by omega), Nat.add_sub_cancel_left]
    · rw [decide_eq_false hi, Bool.false_and, Bool.false_and]
  have hsdeq : sd = parts.sd % 2 ^ bitsNeeded (10 ^ d.toNat) := Nat.eq_of_testBit_eq fun i => by
    rw [hsd, Nat.testBit_mod_two_pow]
    by_cases hi : i < bitsNeeded (10 ^ d.toNat)
    · rw [Nat.add_assoc, Nat.add_assoc, hbits (1 + (bitsNeeded s.opd2.toInt + i)) (by omega), if_neg (by omega),
        if_neg (by omega), show 1 + (bitsNeeded s.opd2.toInt + i) - 1 - bitsNeeded s.opd2.toInt = i by omega]
    · rw [decide_eq_false hi, Bool.false_and, Bool.false_and]
  simp only [hsg, hipeq, hsdeq, scaledWidth_eq, hparts]
  rfl

/-! ### Every writing command -/

/-- A check that gives an error code gives `OK` only where it does not hold and what follows it gives `OK`. -/
theorem check_eq_zero_iff {err : Bool} {code st : BitVec 4} (hcode : code ≠ 0) :
    (if err then code else st) = 0 ↔ err = false ∧ st = 0 := by
  cases err with
  | false => simp
  | true => exact ⟨fun h => absurd h hcode, fun h => absurd h.1 (by decide)⟩

/-- A command with status `OK` meets none of the error rules (60_exceptions R249). -/
theorem errors_false_of_statusOf {i : Instr} {opd opd2 : Word} {wfin : Bool} (h : statusOf i opd opd2 wfin = 0) :
    (isWriting i && wfin) = false ∧ widthError i = false ∧ groupError i = false ∧ rangeError opd2 i = false ∧
      negativeError opd i = false := by
  rw [statusOf, check_eq_zero_iff (by decide), check_eq_zero_iff (by decide), check_eq_zero_iff (by decide),
    check_eq_zero_iff (by decide), check_eq_zero_iff (by decide), check_eq_zero_iff (by decide),
    check_eq_zero_iff (by decide)] at h
  obtain ⟨-, hfin, hwidth, hgroup, hrange, -, hneg, -⟩ := h
  exact ⟨hfin, hwidth, hgroup, hrange, hneg⟩

/-- Every writing command whose arguments are no error round-trips. -/
theorem roundTrips_exec {i : Instr} (hi : isWriting i = true) {s : State}
    (hstatus : statusOf i s.opd s.opd2 s.wru.wfin = 0) : RoundTrips i s := by
  obtain ⟨hfin, hwidth, hgroup, hrange, hneg⟩ := errors_false_of_statusOf hstatus
  rw [hi, Bool.true_and] at hfin
  cases i with
  | wrBit => exact roundTrips_bitWrites (form := (.wrBit, 0)) (by simp) hfin
  | wrBool => exact roundTrips_bitWrites (form := (.wrBool, 1)) (by simp) hfin
  | wrByte w =>
    have hw := of_decide_eq_false hwidth
    exact roundTrips_fixedWrite (form := (0x42, Instr.wrByte, 8)) (by simp) hfin
      (by omega : 1 ≤ w ∧ w ≤ (8 : ℕ))
  | wrShort w =>
    have hw := of_decide_eq_false hwidth
    exact roundTrips_fixedWrite (form := (0x43, Instr.wrShort, 16)) (by simp) hfin
      (by omega : 1 ≤ w ∧ w ≤ (16 : ℕ))
  | wrInt w =>
    have hw := of_decide_eq_false hwidth
    exact roundTrips_fixedWrite (form := (0x44, Instr.wrInt, 32)) (by simp) hfin
      (by omega : 1 ≤ w ∧ w ≤ (32 : ℕ))
  | wrLong w =>
    have hw := of_decide_eq_false hwidth
    exact roundTrips_fixedWrite (form := (0x45, Instr.wrLong, 64)) (by simp) hfin
      (by omega : 1 ≤ w ∧ w ≤ (64 : ℕ))
  | wrPint w =>
    have hw := of_decide_eq_false hwidth
    exact roundTrips_wrPint hfin (by omega) hneg
  | wrSint w signed =>
    have hw := of_decide_eq_false hwidth
    exact roundTrips_wrSint signed hfin (by omega)
  | wrFloat e m signed =>
    have hw := of_decide_eq_false hwidth
    exact roundTrips_wrFloat signed hfin (by omega)
  | wrDouble e m signed =>
    have hw := of_decide_eq_false hwidth
    exact roundTrips_wrDouble signed hfin (by omega)
  | wrVarint g =>
    have hg := of_decide_eq_false hgroup
    exact roundTrips_wrVarint hfin (by omega)
  | wrDec d =>
    have hd := of_decide_eq_false hrange
    exact roundTrips_wrDec hfin (by omega)
  | _ => exact absurd hi Bool.false_ne_true

end Sys2Proof.RoundTrip
end

section
/-! A stream and its mirror (spec 44 R172, 45 R182, 46 R193, 47 R204, 48 R212): the packed bytes hold the wire, so a
reader bound to them reads back what was written, command by command. -/

namespace Sys2Proof.RoundTrip

open Sys2Proof Sys2Proof.Machine Sys2Proof.Encoding Sys2Proof.Reader Sys2Proof.Writer Sys2Proof.Units

/-! ### The packed bytes -/

/-- A reader bound to the bytes of a writer reads the bytes of `WMEM`. -/
theorem memRead_resetWith_bytes (u : Wru) {p : Nat} (hp : p / 8 < u.wlen) :
    (Rdu.resetWith u.bytes).memRead p = (u.wmem.readByte (p / 8)).getLsbD (p % 8) := by
  have hlen : u.bytes.length = u.wlen := by simp [Wru.bytes]
  have hbyte : (Memory.ofBytes 0 u.bytes).readByte (p / 8) = u.wmem.readByte (p / 8) := by
    have hread := Memory.readByte_ofBytes 0 u.bytes (p / 8)
    rw [Nat.zero_add, List.getD_eq_getElem _ _ (hlen.symm ▸ hp)] at hread
    simpa [Wru.bytes] using hread
  rw [Rdu.memRead, Rdu.resetWith_rlen, Rdu.resetWith_rmem, hlen, if_pos hp, hbyte]

/-- After finalization every bit written stands in a byte that the host takes. -/
theorem memRead_of_final {u : Wru} (hinv : WruInv u) (hf : u.wfin = true) {p : Nat} (hp : p < u.wcur) :
    (Rdu.resetWith u.bytes).memRead p = u.wireBit p := by
  obtain ⟨-, -, -, -, hfinal⟩ := hinv
  obtain ⟨hlen, -⟩ := hfinal hf
  have hin : p / 8 < u.wlen := by omega
  rw [memRead_resetWith_bytes u hin, Wru.wireBit, if_pos hin]

theorem pack_wfin (u : Wru) : u.pack.wfin = true := by
  unfold Wru.pack
  split
  · assumption
  · rfl

theorem pack_wcur (u : Wru) : u.pack.wcur = u.wcur := by
  cases hf : u.wfin with
  | true => rw [pack_of_final hf]
  | false => rw [pack_of_open hf]

theorem pack_wcnt (u : Wru) : u.pack.wcnt = u.wcnt := by
  cases hf : u.wfin with
  | true => rw [pack_of_final hf]
  | false => rw [pack_of_open hf]

/-! ### One command -/

/-- Every command keeps the writer's invariant and what was written. -/
theorem keepsWritten_of_exec {i : Instr} {s t : State} (hinv : WruInv s.wru) (h : exec i s = .next t) :
    KeepsWritten s.wru t.wru := by
  obtain ⟨t', hexec, hmove⟩ := exec_wru_moves i s
  obtain rfl : t' = t := by simpa [hexec] using h
  exact hmove.keepsWritten hinv

/-- A writing command, `WR_PACK`, and the mirror command on the packed bytes at the writer's cursor. -/
theorem packed_roundTrip {i : Instr} {s : State} (hdec : ∀ d, i ≠ .wrDec d) (hinv : WruInv s.wru)
    (h : RoundTrips i s) (cnt : Nat) :
    ∃ t p r res, exec i s = .next t ∧ exec .wrPack t = .next p ∧
      exec (mirror i) { p with rdu := { Rdu.resetWith p.wru.bytes with rcur := s.wru.wcur, rcnt := cnt } } = .next r ∧
      r.responses = ⟨0, res⟩ :: p.responses ∧ ReadsBack s.roundTies s.opd s.opd2 res i ∧
      r.rdu.rcur = t.wru.wcur ∧ r.rdu.rcnt + s.wru.wcnt = cnt + t.wru.wcnt := by
  obtain ⟨n, c, bit, u, k, hexec, ⟨hcur, hcnt, hwrote⟩, hmirror⟩ := h
  have hu : WruInv u := (keepsWritten_of_exec hinv hexec).inv
  have hpack := keepsWritten_pack hu
  have hbits : ∀ j, j < n → (Rdu.resetWith u.pack.bytes).memRead (s.wru.wcur + j) = bit j := fun j hj => by
    have hpos : s.wru.wcur + j < u.pack.wcur := by
      rw [pack_wcur]
      omega
    calc (Rdu.resetWith u.pack.bytes).memRead (s.wru.wcur + j)
        = u.pack.wireBit (s.wru.wcur + j) := memRead_of_final hpack.inv (pack_wfin u) hpos
      _ = u.wireBit (s.wru.wcur + j) := hpack.wire _ (by omega)
      _ = bit j := (hwrote hinv).newBits j hj
  obtain ⟨p, hp, hpwru⟩ : ∃ p, exec .wrPack ({ s with wru := u, freeCount := k }.responded 0 0) = .next p ∧
      p.wru = u.pack := ⟨_, rfl, rfl⟩
  obtain ⟨res, hread, hback⟩ :=
    hmirror { p with rdu := { Rdu.resetWith p.wru.bytes with rcur := s.wru.wcur, rcnt := cnt } }
      (fun ⟨d, hd⟩ => absurd hd (hdec d)) (by rw [hpwru]; exact hbits)
  refine ⟨_, p, _, res, hexec, hp, hread, rfl, hback, hcur.symm, ?_⟩
  show cnt + c + s.wru.wcnt = cnt + u.wcnt
  omega

/-- Settles O47: the operand comes back whole. -/
theorem varintRoundTrip : Obligations.VarintRoundTrip := by
  intro g s cnt hg1 hg64 hinv hf
  obtain ⟨t, p, r, res, ht, hp, hr, hresponses, hback, hcur, hcnt⟩ :=
    packed_roundTrip (i := .wrVarint g) (by simp) hinv (roundTrips_wrVarint hf ⟨hg1, hg64⟩) cnt
  obtain rfl : res = s.opd := hback
  exact ⟨t, p, r, ht, hp, hr, hresponses, hcur, hcnt⟩

/-! ### Floats, whole or in part -/

/-- A number with some bits left out is the number exactly when no bit left out was set. -/
theorem masked_eq_iff {x y : Nat} {mask : Nat → Bool} (h : ∀ i, x.testBit i = (mask i && y.testBit i)) :
    x = y ↔ ∀ i, y.testBit i = true → mask i = true := by
  constructor
  · rintro rfl i hi
    rw [h i, Bool.and_eq_true] at hi
    exact hi.1
  · refine fun hall => Nat.eq_of_testBit_eq fun i => ?_
    rw [h i]
    cases hi : y.testBit i with
    | false => exact Bool.and_false _
    | true => rw [hall i hi, Bool.true_and]

/-- The low `k` bits of a number fit `w` bits when those from `w` on are 0. -/
theorem mod_two_pow_lt_iff (x k w : Nat) : x % 2 ^ k < 2 ^ w ↔ ∀ i, i < k → x.testBit i = true → i < w := by
  constructor
  · intro hlt i hik hi
    by_contra hge
    have hzero := Nat.testBit_lt_two_pow (hlt.trans_le (Nat.pow_le_pow_right Nat.two_pos (Nat.le_of_not_lt hge)))
    rw [Nat.testBit_mod_two_pow, decide_eq_true hik, Bool.true_and, hi] at hzero
    exact absurd hzero (by decide)
  · refine fun hall => Nat.lt_pow_two_of_testBit _ fun i hwi => ?_
    rw [Nat.testBit_mod_two_pow, Bool.and_eq_false_iff, decide_eq_false_iff_not]
    by_cases hik : i < k
    · exact .inr (Bool.eq_false_of_not_eq_true fun hi => Nat.not_lt.2 hwi (hall i hik hi))
    · exact .inl hik

/-- No bit of a pattern is left out exactly when its sign is 0 or sent and its fields fit their widths (45 R182). -/
theorem sentMask_covers_iff {mMax eMax e m P : Nat} {signed : Bool} (hP : P < 2 ^ (mMax + eMax + 1)) (he : e ≤ eMax)
    (hm : m ≤ mMax) : (∀ i, P.testBit i = true → sentMask mMax (mMax + eMax) e m signed i = true) ↔
      ((P.testBit (mMax + eMax) = false ∨ signed = true) ∧ P / 2 ^ mMax % 2 ^ eMax < 2 ^ e ∧
        P % 2 ^ mMax < 2 ^ m) := by
  rw [mod_two_pow_lt_iff, mod_two_pow_lt_iff]
  simp only [Nat.testBit_div_two_pow, sentMask, Bool.or_eq_true, Bool.and_eq_true, decide_eq_true_eq, or_assoc]
  constructor
  · intro hall
    refine ⟨?_, fun i hi hbit => ?_, fun i hi hbit => ?_⟩
    · cases hbit : P.testBit (mMax + eMax) with
      | false => exact .inl rfl
      | true =>
        obtain hman | ⟨-, hexp⟩ | ⟨-, hsigned⟩ := hall _ hbit
        · omega
        · omega
        · exact .inr hsigned
    · have := hall _ hbit
      omega
    · have := hall _ hbit
      omega
  · rintro ⟨hsign, hexpfits, hmanfits⟩ i hbit
    have hi : i < mMax + eMax + 1 := by
      by_contra hge
      rw [Nat.testBit_lt_two_pow (hP.trans_le (Nat.pow_le_pow_right Nat.two_pos (Nat.le_of_not_lt hge)))] at hbit
      exact absurd hbit Bool.false_ne_true
    by_cases hman : i < mMax
    · exact .inl (hmanfits i hman hbit)
    · by_cases htop : i = mMax + eMax
      · subst htop
        exact .inr (.inr ⟨rfl, hsign.resolve_left (Bool.not_eq_false _ ▸ hbit)⟩)
      · obtain ⟨k, rfl⟩ : ∃ k, i = mMax + k := ⟨i - mMax, by omega⟩
        have := hexpfits k (by omega) (by rwa [Nat.add_comm])
        exact .inr (.inl ⟨by omega, by omega⟩)

/-- The round trip of either float form. -/
theorem float_roundTrip {i : Instr} {e m : Int} {mMax eMax : Nat} {signed : Bool} {s : State}
    (hdec : ∀ d, i ≠ .wrDec d) (he : e ≤ eMax) (hm : m ≤ mMax) (hinv : WruInv s.wru) (h : RoundTrips i s)
    (hback : ∀ res, ReadsBack s.roundTies s.opd s.opd2 res i →
      SentBits mMax (mMax + eMax) e.toNat m.toNat signed s.opd res)
    {P : Nat} (hP : P = s.opd.toNat % 2 ^ (mMax + eMax + 1)) :
    ∃ t p r res,
      exec i s = .next t ∧ exec .wrPack t = .next p ∧
      exec (mirror i) { p with rdu := { Rdu.resetWith p.wru.bytes with rcur := s.wru.wcur } } = .next r ∧
      r.responses = ⟨0, res⟩ :: p.responses ∧
      (∀ j, res.getLsbD j = (sentMask mMax (mMax + eMax) e.toNat m.toNat signed j && P.testBit j)) ∧
      (res.toNat = P ↔ ((P.testBit (mMax + eMax) = false ∨ signed = true) ∧
        P / 2 ^ mMax % 2 ^ eMax < 2 ^ e.toNat ∧ P % 2 ^ mMax < 2 ^ m.toNat)) := by
  obtain ⟨t, p, r, res, ht, hp, hr, hresponses, hres, -, -⟩ := packed_roundTrip hdec hinv h 0
  have hbits : ∀ j, res.getLsbD j = (sentMask mMax (mMax + eMax) e.toNat m.toNat signed j && P.testBit j) := fun j => by
    rw [hback res hres j, hP, Nat.testBit_mod_two_pow, BitVec.testBit_toNat]
    by_cases hj : j < mMax + eMax + 1
    · rw [decide_eq_true hj, Bool.true_and]
    · simp [sentMask, show ¬j < m.toNat by omega, show ¬j < mMax + e.toNat by omega, show j ≠ mMax + eMax by omega]
  refine ⟨t, p, r, res, ht, hp, hr, hresponses, hbits, ?_⟩
  rw [masked_eq_iff fun j => (BitVec.testBit_toNat res).trans (hbits j)]
  exact sentMask_covers_iff (hP ▸ Nat.mod_lt _ (Nat.two_pow_pos _)) (by omega) (by omega)

/-- Settles O48: both forms are that round trip, with the sign right above the widest exponent. -/
theorem floatRoundTrip : Obligations.FloatRoundTrip := by
  unfold Obligations.FloatRoundTrip
  simp only [List.forall_mem_cons]
  refine ⟨fun e m signed s he1 he hm1 hm hinv hf => ?_, fun e m signed s he1 he hm1 hm hinv hf => ?_,
    List.forall_mem_nil _⟩
  · exact float_roundTrip (mMax := 23) (eMax := 8) (by simp) he hm hinv
      (roundTrips_wrFloat signed hf ⟨he1, he, hm1, hm⟩) (fun _ h => h) rfl
  · exact float_roundTrip (mMax := 52) (eMax := 11) (by simp) he hm hinv
      (roundTrips_wrDouble signed hf ⟨he1, he, hm1, hm⟩) (fun _ h => h) rfl

/-! ### A whole stream -/

/-- A mirror command has the operands of the command it mirrors. -/
theorem mirror_wellFormed {i : Instr} (h : i.WellFormed = true) : (mirror i).WellFormed = true := by
  cases i <;> exact h

/-- A presented command with a word of its own is run with its operands. -/
theorem step_issue {s : State} {i : Instr} {opd opd2 : Word} {rest : List HostEvent} (hi : i.WellFormed = true)
    (hport : s.port = issue i opd opd2 :: rest) : step s = exec i s ∧ s.opd = opd ∧ s.opd2 = opd2 := by
  refine ⟨step_eq_exec hport (decode_encode i hi), ?_, ?_⟩
  · rw [State.opd, hport]
    rfl
  · rw [State.opd2, hport]
    rfl

/-- The writing commands of a stream, each with arguments that are no error. -/
abbrev WritableStream (cmds : List (Instr × Word × Word)) : Prop :=
  ∀ c ∈ cmds, isWriting c.1 = true ∧ c.1.WellFormed = true ∧ statusOf c.1 c.2.1 c.2.2 false = 0

/-- A reader that stands where the writer `u` stood and finds the wire of `w` runs the mirrors of `cmds`: it ends where
`w` stands, and each response is what is read back of the value written. -/
def MirrorRunReads (ties : Config.RoundTies) (cmds : List (Instr × Word × Word)) (u w : Wru) : Prop :=
  ∀ r : State, r.port = cmds.map (fun c => issue (mirror c.1) c.2.1 c.2.2) →
    r.rdu.rcur = u.wcur → r.rdu.rcnt = u.wcnt → (∀ p, p < w.wcur → r.rdu.memRead p = w.wireBit p) →
    ∃ (t : State) (answers : List Response),
      Host.Core.run Sys2Proof.core cmds.length r = .next t ∧ t.responses = answers.reverse ++ r.responses ∧
      t.rdu.rcur = w.wcur ∧ t.rdu.rcnt = w.wcnt ∧
      List.Forall₂ (fun c x => x.st = 0 ∧ ReadsBack ties c.2.1 c.2.2 x.res c.1) cmds answers

/-- The run of a stream up to and with its `WR_PACK`, and the mirror run it allows. -/
theorem writer_run (cmds : List (Instr × Word × Word)) (hcmds : WritableStream cmds) (s : State)
    (hport : s.port = cmds.map (fun c => issue c.1 c.2.1 c.2.2) ++ [issue .wrPack 0 0]) (hinv : WruInv s.wru)
    (hf : s.wru.wfin = false) :
    ∃ t, Host.Core.run Sys2Proof.core (cmds.length + 1) s = .next t ∧ KeepsWritten s.wru t.wru ∧ t.wru.wfin = true ∧
      (∀ x ∈ t.responses, x ∈ s.responses ∨ x.st = 0) ∧ MirrorRunReads s.roundTies cmds s.wru t.wru := by
  induction cmds generalizing s with
  | nil =>
    obtain ⟨hstep, -, -⟩ := step_issue (i := .wrPack) rfl hport
    have hpack : step s = .next ({ s with wru := s.wru.pack }.responded 0 (BitVec.ofNat 64 s.wru.pack.wlen)) := hstep
    refine ⟨_, (run_succ hpack 0).trans (run_zero _), keepsWritten_pack hinv, pack_wfin _, fun x hx => ?_, ?_⟩
    · obtain rfl | hx := List.mem_cons.1 hx
      · exact .inr rfl
      · exact .inl hx
    · intro r _ hcur hcnt _
      exact ⟨r, [], run_zero r, rfl, hcur.trans (pack_wcur s.wru).symm, hcnt.trans (pack_wcnt s.wru).symm, .nil⟩
  | cons c cmds ih =>
    obtain ⟨⟨hwriting, hwf, hstatus⟩, hrest⟩ := List.forall_mem_cons.1 hcmds
    obtain ⟨hstep, hopd, hopd2⟩ := step_issue hwf hport
    obtain ⟨n, k, bit, u, free, hexec, ⟨hcur, hcnt, hwrote⟩, hmirror⟩ :=
      roundTrips_exec hwriting (s := s) (by rw [hopd, hopd2, hf]; exact hstatus)
    have hkeeps := keepsWritten_of_exec hinv hexec
    have happends := hwrote hinv
    obtain ⟨t, hrun, hkeeps', hfin, hresponses, hreads⟩ :=
      ih hrest ({ s with wru := u, freeCount := free }.responded 0 0) (congrArg List.tail hport) hkeeps.inv
        (happends.unfinalized.trans hf)
    refine ⟨t, (run_succ (hstep.trans hexec) _).trans hrun, ?_, hfin, fun x hx => ?_, ?_⟩
    · exact KeepsWritten.trans hkeeps hkeeps'
    · obtain hx | hx := hresponses x hx
      · obtain rfl | hx := List.mem_cons.1 hx
        · exact .inr rfl
        · exact .inl hx
      · exact .inr hx
    · intro r hrport hrcur hrcnt hwire
      obtain ⟨hrstep, -, hropd2⟩ := step_issue (mirror_wellFormed hwf) hrport
      obtain ⟨res, hread, hback⟩ := hmirror r (fun _ => hropd2.trans hopd2.symm) fun j hj => by
        have hnew : s.wru.wcur + j < u.wcur := by omega
        rw [hrcur, hwire _ (hnew.trans_le hkeeps'.wcur), hkeeps'.wire _ hnew, happends.newBits j hj]
      rw [hopd, hopd2] at hback
      obtain ⟨t', answers, hrun', hanswers, htcur, htcnt, hall⟩ :=
        hreads ({ r with rdu := (r.rdu.advance n).count k }.responded 0 res) (congrArg List.tail hrport)
          (by rw [← hrcur] at hcur; exact hcur.symm) (by rw [← hrcnt] at hcnt; exact hcnt.symm) hwire
      refine ⟨t', ⟨0, res⟩ :: answers, (run_succ (hrstep.trans hread) _).trans hrun', ?_, htcur, htcnt,
        .cons ⟨rfl, hback⟩ hall⟩
      rw [hanswers, List.reverse_cons, List.append_assoc]
      rfl

/-- Settles O49: the writer's run from reset leaves a stream on which the mirror run reads everything back. -/
theorem mirrorRunReadsBackWhatWasWritten : Obligations.MirrorRunReadsBackWhatWasWritten := by
  intro cmds hcmds
  obtain ⟨t, hrun, hkeeps, hfin, hresponses, hreads⟩ :=
    writer_run cmds hcmds { State.reset with port := cmds.map (fun c => issue c.1 c.2.1 c.2.2) ++ [issue .wrPack 0 0] }
      rfl wruInv_reset rfl
  obtain ⟨r, answers, hmirror, hanswers, hcur, hcnt, hall⟩ :=
    hreads { State.reset with
        rdu := Rdu.resetWith t.wru.bytes, port := cmds.map (fun c => issue (mirror c.1) c.2.1 c.2.2) }
      rfl rfl rfl fun p hp => memRead_of_final hkeeps.inv hfin hp
  refine ⟨t, r, hrun, (run_succ (step_resetRdu rfl) _).trans hmirror, fun x hx => ?_, hcur, hcnt, ?_⟩
  · exact (hresponses x hx).resolve_left (List.not_mem_nil)
  · rw [hanswers, List.reverse_append, List.reverse_reverse]
    exact hall

end Sys2Proof.RoundTrip
end
